-- ==== Sys2Proof/Word.lean ====
section
/-! DEFINITION. The word types of the machine: bytes, 64-bit words and the full vector register. -/

namespace Sys2Proof

/-- A byte of memory or of an encoding (10_state.md R29: "a byte being 8 bits"). -/
abbrev Byte := BitVec 8

/-- A 64-bit word: an MMX register, an opmask register, a general register, an address, a count. -/
abbrev Quad := BitVec 64

/-- A whole vector register at the largest `MAX_VL` (00_scope.md R6, 10_state.md R16). -/
abbrev Vec := BitVec 512

end Sys2Proof
end

