-- ==== Sys2Proof/Config.lean ====
section
/-! DEFINITION. What an implementation or a launch fixes for a whole run (00_scope.md R6): the parameters
`MAX_VL`, `FEATURES`, `MODE64`, `NVEC`, `enabled(form)` and `readable(addr)`, as plain data. They are held in State, so
that every claim about a state quantifies over them. There is no free value: 93_implementation_defined.md part 1 says
that no form in scope has a result that is "any value". -/

namespace Sys2Proof

/-- The seven CPUID feature flags in scope (00_scope.md R3). -/
inductive Feature where
  | mmx | sse2 | avx | avx2 | avx512f | avx512bw | avx512vl
deriving DecidableEq, Repr

/-- `FEATURES`: the set of CPUID feature flags the processor reports (00_scope.md R6, decision D3). -/
structure Features where
  mmx : Bool
  sse2 : Bool
  avx : Bool
  avx2 : Bool
  avx512f : Bool
  avx512bw : Bool
  avx512vl : Bool
deriving DecidableEq, Repr

/-- Membership in `FEATURES`. -/
def Features.has (fs : Features) : Feature → Bool
  | .mmx => fs.mmx
  | .sse2 => fs.sse2
  | .avx => fs.avx
  | .avx2 => fs.avx2
  | .avx512f => fs.avx512f
  | .avx512bw => fs.avx512bw
  | .avx512vl => fs.avx512vl

/-- The three lengths `MAX_VL` may have (00_scope.md R6). -/
inductive VecLen where
  | v128 | v256 | v512
deriving DecidableEq, Repr

/-- The length in bits. -/
def VecLen.bits : VecLen → Nat
  | .v128 => 128
  | .v256 => 256
  | .v512 => 512

/-- A run of byte addresses, `base` up to but not including `base + size`. -/
structure Region where
  base : Nat
  size : Nat
deriving DecidableEq, Repr

/-- Whether the address lies in the region. -/
def Region.contains (r : Region) (a : Nat) : Bool := decide (r.base ≤ a) && decide (a < r.base + r.size)

/-- The parameters of a run (00_scope.md R6, 70_reset_and_hazards.md R161): fixed by the launch, never changed by a step.
`enabled` holds `enabled(form)` (60_exceptions.md R143), the form of opcode-table row `n` at index `n - 1`.
`unreadable` holds the predicate `readable(addr)` (20_memory.md R47) as the regions whose bytes are NOT readable: every
predicate on a finite address space is such a list. -/
structure Launch where
  mode64 : Bool
  features : Features
  maxVl : VecLen
  enabled : Vector Bool 34
  unreadable : List Region
deriving DecidableEq, Repr

/-- Decision D2: the relation between `FEATURES` and `MAX_VL`, and the implications between the flags. -/
def Launch.featuresConsistent (l : Launch) : Bool :=
  (l.maxVl == if l.features.avx512f then .v512 else if l.features.avx then .v256 else .v128)
  && (!l.features.avx2 || l.features.avx)
  && (!l.features.avx512bw || l.features.avx512f)
  && (!l.features.avx512vl || l.features.avx512f)
  && (!l.features.avx512f || l.features.avx2)
  && (!l.features.avx || l.features.sse2)

/-- `NVEC` as the state has it (10_state.md R19, decision D5): 32 registers with `AVX512F` in 64-bit mode, else 16 in
64-bit mode, else 8. -/
def Launch.nvec (l : Launch) : Nat := if !l.mode64 then 8 else if l.features.avx512f then 32 else 16

end Sys2Proof
end

