-- ==== Sys2Proof/Syntax.lean ====
section
/-! DEFINITION. The decoded instruction: one constructor of `Instr` for each of the 34 rows of the opcode table
(30_encoding.md R75), with the decoded operands as fields (00_scope.md R14). -/

namespace Sys2Proof

/-- An MMX register number, `MM0` to `MM7` (10_state.md R15). -/
abbrev MmReg := Fin 8

/-- A vector register number, `V[0]` to `V[31]` (10_state.md R19). -/
abbrev VReg := Fin 32

/-- A general register number (10_state.md R22). -/
abbrev GReg := Fin 16

/-- The factor of an index register, 1, 2, 4 or 8 (20_memory.md R46, 30_encoding.md R57). -/
inductive Scale where
  | s1 | s2 | s4 | s8
deriving DecidableEq, Repr

/-- A decoded memory operand (20_memory.md R46). The displacement is held in the 32 bits an encoding can give it (an EVEX
8-bit displacement already multiplied by `N`, 30_encoding.md R66) and sign-extended when the address is formed. -/
inductive MemRef where
  /-- `base + index * scale + disp`, base and index each present or absent. -/
  | sum (base : Option GReg) (index : Option (GReg × Scale)) (disp : BitVec 32)
  /-- `pc + len + disp32`, 64-bit mode only. -/
  | ripRel (disp : BitVec 32)
deriving DecidableEq, Repr

/-- The opmask registers a form can select as its write mask (30_encoding.md R68: `aaa = 001 .. 111`). -/
inductive OpMask where
  | k1 | k2 | k3 | k4 | k5 | k6 | k7
deriving DecidableEq, Repr

/-- The masking of an EVEX form (30_encoding.md R68). -/
inductive Masking where
  /-- "*no writemask*" (`aaa = 000`, `z = 0`) -/
  | unmasked
  /-- "*merging-masking*" (`z = 0`) -/
  | merging (k : OpMask)
  /-- "*zeroing-masking*" (`z = 1`) -/
  | zeroing (k : OpMask)
deriving DecidableEq, Repr

/-- An operand that is a register or a memory location (`mm/m64`, `xmm3/m128`, `zmm2/m512`). -/
inductive RegMem (α : Type) where
  | reg (r : α)
  | mem (m : MemRef)
deriving DecidableEq, Repr

/-- The data source of an FVI form: a register, a full memory vector, or one broadcast element (20_memory.md R38). -/
inductive FvSource where
  | reg (r : VReg)
  | mem (m : MemRef)
  | bcst (m : MemRef)
deriving DecidableEq, Repr

/-- The 34 forms, in the opcode table's order (30_encoding.md R75). In each, `d` is the destination, `s1` or `src` the data
source, `c` the variable count, `imm` the immediate count, `m` the masking. -/
inductive Instr where
  /-- row 1: `PSRAW mm, mm/m64` (R103) -/
  | psrawMm (d : MmReg) (c : RegMem MmReg)
  /-- row 2: `PSRAW xmm1, xmm2/m128` (R107) -/
  | psrawXmm (d : VReg) (c : RegMem VReg)
  /-- row 3: `PSRAW mm, imm8` (R104) -/
  | psrawMmImm (d : MmReg) (imm : Byte)
  /-- row 4: `PSRAW xmm1, imm8` (R108) -/
  | psrawXmmImm (d : VReg) (imm : Byte)
  /-- row 5: `PSRAD mm, mm/m64` (R105) -/
  | psradMm (d : MmReg) (c : RegMem MmReg)
  /-- row 6: `PSRAD xmm1, xmm2/m128` (R109) -/
  | psradXmm (d : VReg) (c : RegMem VReg)
  /-- row 7: `PSRAD mm, imm8` (R106) -/
  | psradMmImm (d : MmReg) (imm : Byte)
  /-- row 8: `PSRAD xmm1, imm8` (R110) -/
  | psradXmmImm (d : VReg) (imm : Byte)
  /-- row 9: VEX `VPSRAW xmm1, xmm2, xmm3/m128` (R111) -/
  | vpsrawXmm (d s1 : VReg) (c : RegMem VReg)
  /-- row 10: VEX `VPSRAW xmm1, xmm2, imm8` (R112) -/
  | vpsrawXmmImm (d s1 : VReg) (imm : Byte)
  /-- row 11: VEX `VPSRAD xmm1, xmm2, xmm3/m128` (R113) -/
  | vpsradXmm (d s1 : VReg) (c : RegMem VReg)
  /-- row 12: VEX `VPSRAD xmm1, xmm2, imm8` (R114) -/
  | vpsradXmmImm (d s1 : VReg) (imm : Byte)
  /-- row 13: VEX `VPSRAW ymm1, ymm2, xmm3/m128` (R115) -/
  | vpsrawYmm (d s1 : VReg) (c : RegMem VReg)
  /-- row 14: VEX `VPSRAW ymm1, ymm2, imm8` (R116) -/
  | vpsrawYmmImm (d s1 : VReg) (imm : Byte)
  /-- row 15: VEX `VPSRAD ymm1, ymm2, xmm3/m128` (R117) -/
  | vpsradYmm (d s1 : VReg) (c : RegMem VReg)
  /-- row 16: VEX `VPSRAD ymm1, ymm2, imm8` (R118) -/
  | vpsradYmmImm (d s1 : VReg) (imm : Byte)
  /-- row 17: EVEX `VPSRAW xmm1 {k1}{z}, xmm2, xmm3/m128` (R119) -/
  | evexVpsraw128 (d s1 : VReg) (c : RegMem VReg) (m : Masking)
  /-- row 18: EVEX `VPSRAW ymm1 {k1}{z}, ymm2, xmm3/m128` (R120) -/
  | evexVpsraw256 (d s1 : VReg) (c : RegMem VReg) (m : Masking)
  /-- row 19: EVEX `VPSRAW zmm1 {k1}{z}, zmm2, xmm3/m128` (R121) -/
  | evexVpsraw512 (d s1 : VReg) (c : RegMem VReg) (m : Masking)
  /-- row 20: EVEX `VPSRAW xmm1 {k1}{z}, xmm2/m128, imm8` (R122) -/
  | evexVpsraw128Imm (d : VReg) (src : RegMem VReg) (imm : Byte) (m : Masking)
  /-- row 21: EVEX `VPSRAW ymm1 {k1}{z}, ymm2/m256, imm8` (R123) -/
  | evexVpsraw256Imm (d : VReg) (src : RegMem VReg) (imm : Byte) (m : Masking)
  /-- row 22: EVEX `VPSRAW zmm1 {k1}{z}, zmm2/m512, imm8` (R124) -/
  | evexVpsraw512Imm (d : VReg) (src : RegMem VReg) (imm : Byte) (m : Masking)
  /-- row 23: EVEX `VPSRAD xmm1 {k1}{z}, xmm2, xmm3/m128` (R125) -/
  | evexVpsrad128 (d s1 : VReg) (c : RegMem VReg) (m : Masking)
  /-- row 24: EVEX `VPSRAD ymm1 {k1}{z}, ymm2, xmm3/m128` (R126) -/
  | evexVpsrad256 (d s1 : VReg) (c : RegMem VReg) (m : Masking)
  /-- row 25: EVEX `VPSRAD zmm1 {k1}{z}, zmm2, xmm3/m128` (R127) -/
  | evexVpsrad512 (d s1 : VReg) (c : RegMem VReg) (m : Masking)
  /-- row 26: EVEX `VPSRAD xmm1 {k1}{z}, xmm2/m128/m32bcst, imm8` (R128) -/
  | evexVpsrad128Imm (d : VReg) (src : FvSource) (imm : Byte) (m : Masking)
  /-- row 27: EVEX `VPSRAD ymm1 {k1}{z}, ymm2/m256/m32bcst, imm8` (R129) -/
  | evexVpsrad256Imm (d : VReg) (src : FvSource) (imm : Byte) (m : Masking)
  /-- row 28: EVEX `VPSRAD zmm1 {k1}{z}, zmm2/m512/m32bcst, imm8` (R130) -/
  | evexVpsrad512Imm (d : VReg) (src : FvSource) (imm : Byte) (m : Masking)
  /-- row 29: EVEX `VPSRAQ xmm1 {k1}{z}, xmm2, xmm3/m128` (R131) -/
  | evexVpsraq128 (d s1 : VReg) (c : RegMem VReg) (m : Masking)
  /-- row 30: EVEX `VPSRAQ ymm1 {k1}{z}, ymm2, xmm3/m128` (R132) -/
  | evexVpsraq256 (d s1 : VReg) (c : RegMem VReg) (m : Masking)
  /-- row 31: EVEX `VPSRAQ zmm1 {k1}{z}, zmm2, xmm3/m128` (R133) -/
  | evexVpsraq512 (d s1 : VReg) (c : RegMem VReg) (m : Masking)
  /-- row 32: EVEX `VPSRAQ xmm1 {k1}{z}, xmm2/m128/m64bcst, imm8` (R134) -/
  | evexVpsraq128Imm (d : VReg) (src : FvSource) (imm : Byte) (m : Masking)
  /-- row 33: EVEX `VPSRAQ ymm1 {k1}{z}, ymm2/m256/m64bcst, imm8` (R135) -/
  | evexVpsraq256Imm (d : VReg) (src : FvSource) (imm : Byte) (m : Masking)
  /-- row 34: EVEX `VPSRAQ zmm1 {k1}{z}, zmm2/m512/m64bcst, imm8` (R136) -/
  | evexVpsraq512Imm (d : VReg) (src : FvSource) (imm : Byte) (m : Masking)
deriving DecidableEq, Repr

/-- The name of a form: a row of the opcode table without its operands. `enabled(form)`, the feature flags and the
decoder's rows are given per form. -/
inductive Form where
  | psrawMm | psrawXmm | psrawMmImm | psrawXmmImm | psradMm | psradXmm | psradMmImm | psradXmmImm
  | vpsrawXmm | vpsrawXmmImm | vpsradXmm | vpsradXmmImm | vpsrawYmm | vpsrawYmmImm | vpsradYmm | vpsradYmmImm
  | evexVpsraw128 | evexVpsraw256 | evexVpsraw512 | evexVpsraw128Imm | evexVpsraw256Imm | evexVpsraw512Imm
  | evexVpsrad128 | evexVpsrad256 | evexVpsrad512 | evexVpsrad128Imm | evexVpsrad256Imm | evexVpsrad512Imm
  | evexVpsraq128 | evexVpsraq256 | evexVpsraq512 | evexVpsraq128Imm | evexVpsraq256Imm | evexVpsraq512Imm
deriving DecidableEq, Repr

/-- The form an instruction is of. -/
def Instr.form : Instr → Form
  | .psrawMm _ _ => .psrawMm
  | .psrawXmm _ _ => .psrawXmm
  | .psrawMmImm _ _ => .psrawMmImm
  | .psrawXmmImm _ _ => .psrawXmmImm
  | .psradMm _ _ => .psradMm
  | .psradXmm _ _ => .psradXmm
  | .psradMmImm _ _ => .psradMmImm
  | .psradXmmImm _ _ => .psradXmmImm
  | .vpsrawXmm _ _ _ => .vpsrawXmm
  | .vpsrawXmmImm _ _ _ => .vpsrawXmmImm
  | .vpsradXmm _ _ _ => .vpsradXmm
  | .vpsradXmmImm _ _ _ => .vpsradXmmImm
  | .vpsrawYmm _ _ _ => .vpsrawYmm
  | .vpsrawYmmImm _ _ _ => .vpsrawYmmImm
  | .vpsradYmm _ _ _ => .vpsradYmm
  | .vpsradYmmImm _ _ _ => .vpsradYmmImm
  | .evexVpsraw128 _ _ _ _ => .evexVpsraw128
  | .evexVpsraw256 _ _ _ _ => .evexVpsraw256
  | .evexVpsraw512 _ _ _ _ => .evexVpsraw512
  | .evexVpsraw128Imm _ _ _ _ => .evexVpsraw128Imm
  | .evexVpsraw256Imm _ _ _ _ => .evexVpsraw256Imm
  | .evexVpsraw512Imm _ _ _ _ => .evexVpsraw512Imm
  | .evexVpsrad128 _ _ _ _ => .evexVpsrad128
  | .evexVpsrad256 _ _ _ _ => .evexVpsrad256
  | .evexVpsrad512 _ _ _ _ => .evexVpsrad512
  | .evexVpsrad128Imm _ _ _ _ => .evexVpsrad128Imm
  | .evexVpsrad256Imm _ _ _ _ => .evexVpsrad256Imm
  | .evexVpsrad512Imm _ _ _ _ => .evexVpsrad512Imm
  | .evexVpsraq128 _ _ _ _ => .evexVpsraq128
  | .evexVpsraq256 _ _ _ _ => .evexVpsraq256
  | .evexVpsraq512 _ _ _ _ => .evexVpsraq512
  | .evexVpsraq128Imm _ _ _ _ => .evexVpsraq128Imm
  | .evexVpsraq256Imm _ _ _ _ => .evexVpsraq256Imm
  | .evexVpsraq512Imm _ _ _ _ => .evexVpsraq512Imm

/-- The encoding classes (30_encoding.md R51), the MMX and SSE2 rows of the legacy class told apart. -/
inductive EncClass where
  | mmx | sse | vex | evex
deriving DecidableEq, Repr

/-- The operand encodings of 30_encoding.md R70. -/
inductive OpEn where
  | rm | mi | rvm | vmi | m128 | fvmi | fvi
deriving DecidableEq, Repr

/-- What the opcode table says of a form (30_encoding.md R75): its row (counted from 0), class, operand encoding,
element width and operated length in bits, and the CPUID flags it needs. -/
structure FormInfo where
  row : Fin 34
  cls : EncClass
  opEn : OpEn
  elem : Nat
  vl : Nat
  needs : List Feature
deriving DecidableEq, Repr

end Sys2Proof
end

