-- ==== Sys2Proof/Machine/Forms.lean ====
section
/-! DEFINITION. The opcode table as data: what 30_encoding.md R75 says of each of the 34 forms, and the 34 rows
`match`/`mask` of the decode key (R73). -/

namespace Sys2Proof

/-- The opcode table's columns (30_encoding.md R75; the feature flags in parentheses there are the restored ones of R76). -/
def Form.info : Form → FormInfo
  | .psrawMm => ⟨0, .mmx, .rm, 16, 64, [.mmx]⟩
  | .psrawXmm => ⟨1, .sse, .rm, 16, 128, [.sse2]⟩
  | .psrawMmImm => ⟨2, .mmx, .mi, 16, 64, [.mmx]⟩
  | .psrawXmmImm => ⟨3, .sse, .mi, 16, 128, [.sse2]⟩
  | .psradMm => ⟨4, .mmx, .rm, 32, 64, [.mmx]⟩
  | .psradXmm => ⟨5, .sse, .rm, 32, 128, [.sse2]⟩
  | .psradMmImm => ⟨6, .mmx, .mi, 32, 64, [.mmx]⟩
  | .psradXmmImm => ⟨7, .sse, .mi, 32, 128, [.sse2]⟩
  | .vpsrawXmm => ⟨8, .vex, .rvm, 16, 128, [.avx]⟩
  | .vpsrawXmmImm => ⟨9, .vex, .vmi, 16, 128, [.avx]⟩
  | .vpsradXmm => ⟨10, .vex, .rvm, 32, 128, [.avx]⟩
  | .vpsradXmmImm => ⟨11, .vex, .vmi, 32, 128, [.avx]⟩
  | .vpsrawYmm => ⟨12, .vex, .rvm, 16, 256, [.avx2]⟩
  | .vpsrawYmmImm => ⟨13, .vex, .vmi, 16, 256, [.avx2]⟩
  | .vpsradYmm => ⟨14, .vex, .rvm, 32, 256, [.avx2]⟩
  | .vpsradYmmImm => ⟨15, .vex, .vmi, 32, 256, [.avx2]⟩
  | .evexVpsraw128 => ⟨16, .evex, .m128, 16, 128, [.avx512vl, .avx512bw]⟩
  | .evexVpsraw256 => ⟨17, .evex, .m128, 16, 256, [.avx512vl, .avx512bw]⟩
  | .evexVpsraw512 => ⟨18, .evex, .m128, 16, 512, [.avx512bw]⟩
  | .evexVpsraw128Imm => ⟨19, .evex, .fvmi, 16, 128, [.avx512vl, .avx512bw]⟩
  | .evexVpsraw256Imm => ⟨20, .evex, .fvmi, 16, 256, [.avx512vl, .avx512bw]⟩
  | .evexVpsraw512Imm => ⟨21, .evex, .fvmi, 16, 512, [.avx512bw]⟩
  | .evexVpsrad128 => ⟨22, .evex, .m128, 32, 128, [.avx512vl, .avx512f]⟩
  | .evexVpsrad256 => ⟨23, .evex, .m128, 32, 256, [.avx512vl, .avx512f]⟩
  | .evexVpsrad512 => ⟨24, .evex, .m128, 32, 512, [.avx512f]⟩
  | .evexVpsrad128Imm => ⟨25, .evex, .fvi, 32, 128, [.avx512vl, .avx512f]⟩
  | .evexVpsrad256Imm => ⟨26, .evex, .fvi, 32, 256, [.avx512vl, .avx512f]⟩
  | .evexVpsrad512Imm => ⟨27, .evex, .fvi, 32, 512, [.avx512f]⟩
  | .evexVpsraq128 => ⟨28, .evex, .m128, 64, 128, [.avx512vl, .avx512f]⟩
  | .evexVpsraq256 => ⟨29, .evex, .m128, 64, 256, [.avx512vl, .avx512f]⟩
  | .evexVpsraq512 => ⟨30, .evex, .m128, 64, 512, [.avx512f]⟩
  | .evexVpsraq128Imm => ⟨31, .evex, .fvi, 64, 128, [.avx512vl, .avx512f]⟩
  | .evexVpsraq256Imm => ⟨32, .evex, .fvi, 64, 256, [.avx512vl, .avx512f]⟩
  | .evexVpsraq512Imm => ⟨33, .evex, .fvi, 64, 512, [.avx512f]⟩

/-- The CPUID flags of the form's row (30_encoding.md R76). -/
def Form.needs (f : Form) : List Feature := f.info.needs

/-- The operated length `VL` in bits, 64 for the MMX rows (30_encoding.md R64). -/
def Form.vl (f : Form) : Nat := f.info.vl

/-- Whether the opcode string ends in `ib` (30_encoding.md R52, R67). -/
def Form.hasImm (f : Form) : Bool :=
  match f.info.opEn with
  | .mi | .vmi | .fvmi | .fvi => true
  | .rm | .rvm | .m128 => false

/-- The factor `N` of an 8-bit displacement (30_encoding.md R66); `bc` is `EVEX.b`. -/
def Form.disp8Scale (f : Form) (bc : Bool) : Nat :=
  match f.info.opEn with
  | .m128 => 16
  | .fvmi => f.info.vl / 8
  | .fvi => if bc then f.info.elem / 8 else f.info.vl / 8
  | .rm | .mi | .rvm | .vmi => 1

/-- A row of the opcode table: it matches a decode key `k` when `k & mask = pat`. -/
structure OpcodeRow where
  pat : BitVec 32
  mask : BitVec 32
  form : Form
deriving DecidableEq, Repr

/-- The 34 rows of spec/opcode_table.json. -/
def opcodeTable : List OpcodeRow :=
  [⟨0x0001E100, 0xFCFFFF00, .psrawMm⟩,
   ⟨0x1001E100, 0xFCFFFF00, .psrawXmm⟩,
   ⟨0x000171E0, 0xFCFFFFF8, .psrawMmImm⟩,
   ⟨0x100171E0, 0xFCFFFFF8, .psrawXmmImm⟩,
   ⟨0x0001E200, 0xFCFFFF00, .psradMm⟩,
   ⟨0x1001E200, 0xFCFFFF00, .psradXmm⟩,
   ⟨0x000172E0, 0xFCFFFFF8, .psradMmImm⟩,
   ⟨0x100172E0, 0xFCFFFFF8, .psradXmmImm⟩,
   ⟨0x5001E100, 0xFCFFFF00, .vpsrawXmm⟩,
   ⟨0x500171E0, 0xFCFFFFF8, .vpsrawXmmImm⟩,
   ⟨0x5001E200, 0xFCFFFF00, .vpsradXmm⟩,
   ⟨0x500172E0, 0xFCFFFFF8, .vpsradXmmImm⟩,
   ⟨0x5401E100, 0xFCFFFF00, .vpsrawYmm⟩,
   ⟨0x540171E0, 0xFCFFFFF8, .vpsrawYmmImm⟩,
   ⟨0x5401E200, 0xFCFFFF00, .vpsradYmm⟩,
   ⟨0x540172E0, 0xFCFFFFF8, .vpsradYmmImm⟩,
   ⟨0x9001E100, 0xFCFFFF00, .evexVpsraw128⟩,
   ⟨0x9401E100, 0xFCFFFF00, .evexVpsraw256⟩,
   ⟨0x9801E100, 0xFCFFFF00, .evexVpsraw512⟩,
   ⟨0x90017120, 0xFCFFFF38, .evexVpsraw128Imm⟩,
   ⟨0x94017120, 0xFCFFFF38, .evexVpsraw256Imm⟩,
   ⟨0x98017120, 0xFCFFFF38, .evexVpsraw512Imm⟩,
   ⟨0x9001E200, 0xFEFFFF00, .evexVpsrad128⟩,
   ⟨0x9401E200, 0xFEFFFF00, .evexVpsrad256⟩,
   ⟨0x9801E200, 0xFEFFFF00, .evexVpsrad512⟩,
   ⟨0x90017220, 0xFEFFFF38, .evexVpsrad128Imm⟩,
   ⟨0x94017220, 0xFEFFFF38, .evexVpsrad256Imm⟩,
   ⟨0x98017220, 0xFEFFFF38, .evexVpsrad512Imm⟩,
   ⟨0x9201E200, 0xFEFFFF00, .evexVpsraq128⟩,
   ⟨0x9601E200, 0xFEFFFF00, .evexVpsraq256⟩,
   ⟨0x9A01E200, 0xFEFFFF00, .evexVpsraq512⟩,
   ⟨0x92017220, 0xFEFFFF38, .evexVpsraq128Imm⟩,
   ⟨0x96017220, 0xFEFFFF38, .evexVpsraq256Imm⟩,
   ⟨0x9A017220, 0xFEFFFF38, .evexVpsraq512Imm⟩]

/-- The form whose row a decode key matches (30_encoding.md R73). -/
def findRow (k : BitVec 32) : Option Form :=
  (opcodeTable.find? fun r => k &&& r.mask == r.pat).map fun r => r.form

end Sys2Proof
end

