-- ==== Sys2Proof/WellFormed.lean ====
section
/-! DEFINITION. Which decoded instructions an encoding can name: the register numbers each class reaches in each mode, and
the memory operands the ModRM and SIB bytes can express. -/

namespace Sys2Proof

/-- A vector register a form can name (10_state.md R18, R19): 8 outside 64-bit mode; in it 16 for the legacy and VEX forms
and 32 for the EVEX forms. -/
def vecWf (m64 evex : Bool) (r : VReg) : Bool :=
  decide (r.val < if !m64 then 8 else if evex then 32 else 16)

/-- A general register an address can name (10_state.md R22): 16 in 64-bit mode, 8 outside it. -/
def gprWf (m64 : Bool) (r : GReg) : Bool := decide (r.val < if m64 then 16 else 8)

/-- A memory operand an encoding can express: general registers of the mode; register 4 is no index (30_encoding.md R57);
`pc + len + disp32` exists in 64-bit mode only (30_encoding.md R56). -/
def MemRef.wf (m64 : Bool) : MemRef → Bool
  | .sum base index _ =>
    (match base with | none => true | some b => gprWf m64 b)
    && (match index with | none => true | some (x, _) => gprWf m64 x && decide (x.val ≠ 4))
  | .ripRel _ => m64

/-- An MMX or memory operand. -/
def RegMem.memWf {α : Type} (m64 : Bool) : RegMem α → Bool
  | .reg _ => true
  | .mem m => m.wf m64

/-- A vector register or memory operand. -/
def RegMem.vecMemWf (m64 evex : Bool) : RegMem VReg → Bool
  | .reg r => vecWf m64 evex r
  | .mem m => m.wf m64

/-- The data source of an FVI form. -/
def FvSource.wf (m64 : Bool) : FvSource → Bool
  | .reg r => vecWf m64 true r
  | .mem m => m.wf m64
  | .bcst m => m.wf m64

/-- The instruction can be encoded in the mode: every register number is one its class reaches, every memory operand can
be expressed. -/
def Instr.wf (m64 : Bool) : Instr → Bool
  | .psrawMm _ c => c.memWf m64
  | .psrawXmm d c => vecWf m64 false d && c.vecMemWf m64 false
  | .psrawMmImm _ _ => true
  | .psrawXmmImm d _ => vecWf m64 false d
  | .psradMm _ c => c.memWf m64
  | .psradXmm d c => vecWf m64 false d && c.vecMemWf m64 false
  | .psradMmImm _ _ => true
  | .psradXmmImm d _ => vecWf m64 false d
  | .vpsrawXmm d s1 c => vecWf m64 false d && vecWf m64 false s1 && c.vecMemWf m64 false
  | .vpsrawXmmImm d s1 _ => vecWf m64 false d && vecWf m64 false s1
  | .vpsradXmm d s1 c => vecWf m64 false d && vecWf m64 false s1 && c.vecMemWf m64 false
  | .vpsradXmmImm d s1 _ => vecWf m64 false d && vecWf m64 false s1
  | .vpsrawYmm d s1 c => vecWf m64 false d && vecWf m64 false s1 && c.vecMemWf m64 false
  | .vpsrawYmmImm d s1 _ => vecWf m64 false d && vecWf m64 false s1
  | .vpsradYmm d s1 c => vecWf m64 false d && vecWf m64 false s1 && c.vecMemWf m64 false
  | .vpsradYmmImm d s1 _ => vecWf m64 false d && vecWf m64 false s1
  | .evexVpsraw128 d s1 c _ => vecWf m64 true d && vecWf m64 true s1 && c.vecMemWf m64 true
  | .evexVpsraw256 d s1 c _ => vecWf m64 true d && vecWf m64 true s1 && c.vecMemWf m64 true
  | .evexVpsraw512 d s1 c _ => vecWf m64 true d && vecWf m64 true s1 && c.vecMemWf m64 true
  | .evexVpsraw128Imm d src _ _ => vecWf m64 true d && src.vecMemWf m64 true
  | .evexVpsraw256Imm d src _ _ => vecWf m64 true d && src.vecMemWf m64 true
  | .evexVpsraw512Imm d src _ _ => vecWf m64 true d && src.vecMemWf m64 true
  | .evexVpsrad128 d s1 c _ => vecWf m64 true d && vecWf m64 true s1 && c.vecMemWf m64 true
  | .evexVpsrad256 d s1 c _ => vecWf m64 true d && vecWf m64 true s1 && c.vecMemWf m64 true
  | .evexVpsrad512 d s1 c _ => vecWf m64 true d && vecWf m64 true s1 && c.vecMemWf m64 true
  | .evexVpsrad128Imm d src _ _ => vecWf m64 true d && src.wf m64
  | .evexVpsrad256Imm d src _ _ => vecWf m64 true d && src.wf m64
  | .evexVpsrad512Imm d src _ _ => vecWf m64 true d && src.wf m64
  | .evexVpsraq128 d s1 c _ => vecWf m64 true d && vecWf m64 true s1 && c.vecMemWf m64 true
  | .evexVpsraq256 d s1 c _ => vecWf m64 true d && vecWf m64 true s1 && c.vecMemWf m64 true
  | .evexVpsraq512 d s1 c _ => vecWf m64 true d && vecWf m64 true s1 && c.vecMemWf m64 true
  | .evexVpsraq128Imm d src _ _ => vecWf m64 true d && src.wf m64
  | .evexVpsraq256Imm d src _ _ => vecWf m64 true d && src.wf m64
  | .evexVpsraq512Imm d src _ _ => vecWf m64 true d && src.wf m64

end Sys2Proof
end

