-- ==== Sys2Proof/Decode.lean ====
section
/-! DEFINITION. The byte-level decoder and the encoder. Every layout here is 30_encoding.md's (R51 to R82), which the spec
marks as general knowledge (00_scope.md R14, decision D1); a claim about the decoder rests on it. The decoder is total: on
any bytes it answers a form with its length, an invalid opcode, an over-long instruction, that it needs more bytes, or a
refusal by name. -/

namespace Sys2Proof

/-- Why the decoder refuses bytes: the edge of the model, not a behaviour of the hardware (30_encoding.md R79). -/
inductive DecodeRefusal where
  /-- The bytes are not one of the 34 forms (R79, decision D15). -/
  | notInScope
  /-- An address-size prefix 0x67 (R58, decision D10). -/
  | addressSize
  /-- A repeat prefix 0xF2 or 0xF3 on a legacy form (R58, decision D19). -/
  | repOnLegacy
  /-- A VEX or EVEX register-extension bit set outside 64-bit mode (R61, R62, decision D31). -/
  | extensionBits
deriving DecidableEq, Repr

/-- What decoding answers. -/
inductive Decoded where
  /-- One of the 34 forms, `len` bytes long. -/
  | ok (i : Instr) (len : Nat)
  /-- Bytes of a form that raise the invalid-opcode fault (R78, R80, R81). -/
  | invalidOpcode
  /-- An instruction longer than 15 bytes (R74). -/
  | tooLong
  /-- The bytes end before the instruction does. -/
  | truncated
  /-- Refused by name. -/
  | refused (why : DecodeRefusal)
deriving DecidableEq, Repr

/-- The answer of a part of the decoder: a value and the bytes after it, or an end of decoding. -/
inductive Parse (α : Type) where
  | ok (a : α) (rest : List Byte)
  | truncated
  | refused (why : DecodeRefusal)
deriving DecidableEq, Repr

/-! ## Prefixes (30_encoding.md section 4) -/

/-- The legacy prefixes seen before the REX, VEX, EVEX or escape byte (R58). Segment overrides are accepted and leave no
trace (decision D10). -/
structure LegacyPrefixes where
  opSize : Bool
  rep : Bool
  lock : Bool
  addrSize : Bool
deriving DecidableEq, Repr

/-- A segment override: 0x26, 0x2E, 0x36, 0x3E, 0x64, 0x65 (R58). -/
def isSegment (b : Byte) : Bool :=
  b == 0x26 || b == 0x2E || b == 0x36 || b == 0x3E || b == 0x64 || b == 0x65

/-- Reads the run of legacy prefix bytes at the front (R58). -/
def takePrefixes (p : LegacyPrefixes) : List Byte → LegacyPrefixes × List Byte
  | [] => (p, [])
  | b :: bs =>
    if isSegment b then takePrefixes p bs
    else if b = 0x66 then takePrefixes { p with opSize := true } bs
    else if b = 0x67 then takePrefixes { p with addrSize := true } bs
    else if b = 0xF0 then takePrefixes { p with lock := true } bs
    else if b = 0xF2 ∨ b = 0xF3 then takePrefixes { p with rep := true } bs
    else (p, b :: bs)

/-- The encoding class of a decode key (R73). -/
inductive KeyClass where
  | legacy | vex | evex
deriving DecidableEq, Repr

/-- The key's `cls` code (R73). -/
def KeyClass.code : KeyClass → BitVec 2
  | .legacy => 0
  | .vex => 1
  | .evex => 2

/-- Everything the prefixes of an instruction say, with the inverted fields read back (R59 to R65). `vvvv` is `V':vvvv`,
`bc` is `EVEX.b`, `x` the extension bit of the index and `xReg` the one of a register in ModRM r/m (R63: EVEX only).
`illegal` says that a prefix of R81 or a reserved bit of R80 (e) was met, which is an invalid opcode on a form in scope. -/
structure Head where
  cls : KeyClass
  pp : BitVec 2
  ll : BitVec 2
  w : Bool
  map : BitVec 8
  r : Bool
  x : Bool
  b : Bool
  rHi : Bool
  xReg : Bool
  vvvv : BitVec 5
  aaa : BitVec 3
  z : Bool
  bc : Bool
  illegal : Bool
deriving DecidableEq, Repr

/-- The head of a legacy form: `rex` is the REX byte, 0x40 where there is none (R59, "Without a REX prefix the REX bits
are 0" R63). -/
def legacyHead (p : LegacyPrefixes) (rex : Byte) : Head :=
  { cls := .legacy, pp := if p.opSize then 1 else 0, ll := 0, w := rex.getLsbD 3, map := 1, r := rex.getLsbD 2,
    x := rex.getLsbD 1, b := rex.getLsbD 0, rHi := false, xReg := false, vvvv := 0, aaa := 0, z := false, bc := false,
    illegal := p.lock }

/-- The head of a VEX form from the three-byte prefix's bytes 1 and 2 (R61). -/
def vexHead (illegal : Bool) (b1 b2 : Byte) : Head :=
  { cls := .vex, pp := b2.extractLsb' 0 2, ll := (BitVec.ofBool (b2.getLsbD 2)).setWidth 2, w := b2.getLsbD 7,
    map := (b1.extractLsb' 0 5).setWidth 8, r := !b1.getLsbD 7, x := !b1.getLsbD 6, b := !b1.getLsbD 5, rHi := false,
    xReg := false, vvvv := (~~~(b2.extractLsb' 3 4)).setWidth 5, aaa := 0, z := false, bc := false, illegal := illegal }

/-- The two-byte VEX prefix's byte 1 as the bytes 1 and 2 of the three-byte one: it implies `X̄ = 1`, `B̄ = 1`, `W = 0` and
the 0F map (R60). -/
def vex2Head (illegal : Bool) (b1 : Byte) : Head :=
  vexHead illegal (BitVec.ofBool (b1.getLsbD 7) ++ (0b1100001 : BitVec 7)) (BitVec.ofBool false ++ b1.extractLsb' 0 7)

/-- The head of an EVEX form from P0, P1, P2 (R62); reserved bits of P0 and P1 are R80 (e). -/
def evexHead (illegal : Bool) (p0 p1 p2 : Byte) : Head :=
  { cls := .evex, pp := p1.extractLsb' 0 2, ll := p2.extractLsb' 5 2, w := p1.getLsbD 7,
    map := (p0.extractLsb' 0 2).setWidth 8, r := !p0.getLsbD 7, x := !p0.getLsbD 6, b := !p0.getLsbD 5,
    rHi := !p0.getLsbD 4, xReg := !p0.getLsbD 6,
    vvvv := BitVec.ofBool (!p2.getLsbD 3) ++ ~~~(p1.extractLsb' 3 4), aaa := p2.extractLsb' 0 3, z := p2.getLsbD 7,
    bc := p2.getLsbD 4, illegal := illegal || p0.extractLsb' 2 2 != 0 || !p1.getLsbD 2 }

/-- The bits outside 64-bit mode without which 0xC4, 0xC5 and 0x62 are other instructions (R61, R62). -/
def isLongPrefix (m64 : Bool) (b1 : Byte) : Bool := m64 || b1.extractLsb' 6 2 == 3

/-- Decision D31: outside 64-bit mode every register-extension bit of a VEX or EVEX prefix says "below 8". -/
def extensionsOk (m64 : Bool) (h : Head) : Bool := m64 || (!h.b && !h.rHi && h.vvvv.extractLsb' 3 2 == 0)

/-- Accepts a VEX or EVEX head, or refuses it by D31. -/
def acceptHead (m64 : Bool) (h : Head) (rest : List Byte) : Parse Head :=
  if extensionsOk m64 h then .ok h rest else .refused .extensionBits

/-- Reads the escape byte or the VEX or EVEX prefix that begins with `c`; `rex` is the REX byte before it, if any. -/
def parseEscape (m64 : Bool) (p : LegacyPrefixes) (rex : Option Byte) (c : Byte) (bs : List Byte) : Parse Head :=
  let illegal := p.lock || p.opSize || p.rep || rex.isSome
  if c = 0x0F then
    if p.rep then .refused .repOnLegacy else .ok (legacyHead p (rex.getD 0x40)) bs
  else if c = 0xC5 then
    match bs with
    | [] => .truncated
    | b1 :: rest => if isLongPrefix m64 b1 then acceptHead m64 (vex2Head illegal b1) rest else .refused .notInScope
  else if c = 0xC4 then
    match bs with
    | [] => .truncated
    | b1 :: bs =>
      if isLongPrefix m64 b1 then
        match bs with
        | [] => .truncated
        | b2 :: rest => acceptHead m64 (vexHead illegal b1 b2) rest
      else .refused .notInScope
  else if c = 0x62 then
    match bs with
    | [] => .truncated
    | p0 :: bs =>
      if isLongPrefix m64 p0 then
        match bs with
        | p1 :: p2 :: rest => acceptHead m64 (evexHead illegal p0 p1 p2) rest
        | _ => .truncated
      else .refused .notInScope
  else .refused .notInScope

/-- A REX byte, `0100WRXB`, which exists in 64-bit mode only (R59). -/
def isRex (m64 : Bool) (b : Byte) : Bool := m64 && b.extractLsb' 4 4 == 4

/-- Reads everything before the opcode byte (R51, R58 to R62). -/
def parseHead (m64 : Bool) (bs : List Byte) : Parse Head :=
  match takePrefixes ⟨false, false, false, false⟩ bs with
  | (p, rest) =>
    if p.addrSize then .refused .addressSize
    else
      match rest with
      | [] => .truncated
      | b :: bs =>
        if isRex m64 b then
          match bs with
          | [] => .truncated
          | c :: bs => parseEscape m64 p (some b) c bs
        else parseEscape m64 p none b bs

/-! ## The opcode and the row (30_encoding.md sections 7 to 9) -/

/-- The decode key of R73. -/
def Head.key (h : Head) (opcode modrm : Byte) : BitVec 32 :=
  h.cls.code ++ h.pp ++ h.ll ++ BitVec.ofBool h.w ++ (0 : BitVec 1) ++ h.map ++ opcode ++ modrm

/-- What a decode key stands for: a row of the table, a reserved encoding of a row's opcode, or nothing in scope. -/
inductive RowMatch where
  | row (f : Form)
  | reserved (f : Form)
  | outside
deriving DecidableEq, Repr

/-- The row a key matches (R73). A key that matches none is reserved where it would match with `mod = 11` (R78: rows 3, 4,
7, 8, 10, 12, 14, 16 with a memory operand) or with a vector length other than `L'L = 11` (R80 (d)); else it is
another instruction (R79). -/
def Head.rowMatch (h : Head) (opcode modrm : Byte) : RowMatch :=
  match findRow (h.key opcode modrm) with
  | some f => .row f
  | none =>
    match findRow (({ h with ll := if h.ll = 3 then 0 else h.ll } : Head).key opcode (modrm ||| 0xC0)) with
    | some f => .reserved f
    | none => .outside

/-- The opcode bytes of the table; every other is another instruction (R79), whatever follows it. -/
def opcodeInScope (b : Byte) : Bool := b == 0xE1 || b == 0xE2 || b == 0x71 || b == 0x72

/-! ## ModRM, SIB, displacement (30_encoding.md section 3) -/

/-- The r/m operand: a register number `X:B:rm`, or a memory operand. -/
inductive RmField where
  | reg (n : BitVec 5)
  | mem (m : MemRef)
deriving DecidableEq, Repr

/-- The little-endian 32-bit value of four bytes (R57, 20_memory.md R34). -/
def le32Value (b0 b1 b2 b3 : Byte) : BitVec 32 := b3 ++ b2 ++ b1 ++ b0

/-- The bytes of a 32-bit value, least significant first. -/
def le32Bytes (d : BitVec 32) : List Byte :=
  [d.extractLsb' 0 8, d.extractLsb' 8 8, d.extractLsb' 16 8, d.extractLsb' 24 8]

/-- Reads a 4-byte displacement. -/
def takeDisp32 : List Byte → Parse (BitVec 32)
  | b0 :: b1 :: b2 :: b3 :: rest => .ok (le32Value b0 b1 b2 b3) rest
  | _ => .truncated

/-- Reads a 1-byte displacement, sign-extended and multiplied by `n` (R57, R66). -/
def takeDisp8 (n : Nat) : List Byte → Parse (BitVec 32)
  | b :: rest => .ok (b.signExtend 32 * BitVec.ofNat 32 n) rest
  | [] => .truncated

/-- Reads the displacement that `mod` asks for: none for 00, one byte for 01, four for 10 (R56). -/
def takeDisp (mod : BitVec 2) (n : Nat) (bs : List Byte) : Parse (BitVec 32) :=
  if mod = 0 then .ok 0 bs else if mod = 1 then takeDisp8 n bs else takeDisp32 bs

/-- The operand once its displacement is read. -/
def Parse.toMem (p : Parse (BitVec 32)) (f : BitVec 32 → MemRef) : Parse RmField :=
  match p with
  | .ok d rest => .ok (.mem (f d)) rest
  | .truncated => .truncated
  | .refused why => .refused why

/-- The scale of an index (R57). -/
def Scale.ofBits (b : BitVec 2) : Scale :=
  if b = 0 then .s1 else if b = 1 then .s2 else if b = 2 then .s4 else .s8

/-- The index a SIB byte names: `X:index` equal to 4 is no index (R57, R63). -/
def sibIndex (x : Bool) (sib : Byte) : Option (GReg × Scale) :=
  let n : BitVec 4 := BitVec.ofBool x ++ sib.extractLsb' 3 3
  if n = 4 then none else some (n.toFin, Scale.ofBits (sib.extractLsb' 6 2))

/-- Reads the SIB byte and displacement of a memory operand (R57). -/
def parseSib (h : Head) (mod : BitVec 2) (n : Nat) : List Byte → Parse RmField
  | [] => .truncated
  | sib :: bs =>
    let base := sib.extractLsb' 0 3
    if base = 5 ∧ mod = 0 then
      (takeDisp32 bs).toMem fun d => .sum none (sibIndex h.x sib) d
    else
      (takeDisp mod n bs).toMem fun d =>
        .sum (some (BitVec.ofBool h.b ++ base : BitVec 4).toFin) (sibIndex h.x sib) d

/-- Reads what follows the ModRM byte up to the immediate (R56, R57). -/
def parseRm (m64 : Bool) (h : Head) (n : Nat) (modrm : Byte) (bs : List Byte) : Parse RmField :=
  let mod := modrm.extractLsb' 6 2
  let rm := modrm.extractLsb' 0 3
  if mod = 3 then .ok (.reg (BitVec.ofBool h.xReg ++ BitVec.ofBool h.b ++ rm)) bs
  else if rm = 4 then parseSib h mod n bs
  else if rm = 5 ∧ mod = 0 then
    (takeDisp32 bs).toMem fun d => if m64 then .ripRel d else .sum none none d
  else
    (takeDisp mod n bs).toMem fun d => .sum (some (BitVec.ofBool h.b ++ rm : BitVec 4).toFin) none d

/-! ## Operands -/

/-- The vector register of the ModRM reg field (R63). -/
def Head.regVec (h : Head) (reg : BitVec 3) : VReg := (BitVec.ofBool h.rHi ++ BitVec.ofBool h.r ++ reg : BitVec 5).toFin

/-- The write mask `aaa` selects; 0 selects none (R68). -/
def OpMask.ofBits (aaa : BitVec 3) : Option OpMask :=
  if aaa = 1 then some .k1 else if aaa = 2 then some .k2 else if aaa = 3 then some .k3 else if aaa = 4 then some .k4
  else if aaa = 5 then some .k5 else if aaa = 6 then some .k6 else if aaa = 7 then some .k7 else none

/-- The masking of an EVEX form; `z = 1` with `aaa = 000` is an invalid opcode (R68, R80 (c)). -/
def Head.masking (h : Head) : Option Masking :=
  match OpMask.ofBits h.aaa with
  | none => if h.z then none else some .unmasked
  | some k => some (if h.z then .zeroing k else .merging k)

/-- The masking of a form without broadcast, on which `EVEX.b = 1` is an invalid opcode (R80 (a)). -/
def Head.maskingNb (h : Head) : Option Masking := if h.bc then none else h.masking

/-- An MMX register or memory operand: the extension bits are dropped (10_state.md R15). -/
def RmField.mmRegMem : RmField → RegMem MmReg
  | .reg n => .reg (n.extractLsb' 0 3).toFin
  | .mem m => .mem m

/-- A vector register or memory operand. -/
def RmField.vecRegMem : RmField → RegMem VReg
  | .reg n => .reg n.toFin
  | .mem m => .mem m

/-- An MMX register operand; memory is an invalid opcode (R78). -/
def RmField.mmReg? : RmField → Option MmReg
  | .reg n => some (n.extractLsb' 0 3).toFin
  | .mem _ => none

/-- A vector register operand; memory is an invalid opcode (R78). -/
def RmField.vecReg? : RmField → Option VReg
  | .reg n => some n.toFin
  | .mem _ => none

/-- The data source of an FVI form: `EVEX.b = 1` broadcasts a memory source and is an invalid opcode on a register (R69,
R80 (b)). -/
def RmField.fvSource (bc : Bool) : RmField → Option FvSource
  | .reg n => if bc then none else some (.reg n.toFin)
  | .mem m => some (if bc then .bcst m else .mem m)

/-- The instruction a row's form, the prefix fields, the ModRM reg field, the r/m operand and the immediate name (the
operand-encoding table, R70); none where the combination is an invalid opcode. -/
def buildInstr (f : Form) (h : Head) (reg : BitVec 3) (rm : RmField) (imm : Byte) : Option Instr :=
  match f with
  | .psrawMm => some (.psrawMm reg.toFin rm.mmRegMem)
  | .psrawXmm => some (.psrawXmm (h.regVec reg) rm.vecRegMem)
  | .psrawMmImm => rm.mmReg?.map fun d => .psrawMmImm d imm
  | .psrawXmmImm => rm.vecReg?.map fun d => .psrawXmmImm d imm
  | .psradMm => some (.psradMm reg.toFin rm.mmRegMem)
  | .psradXmm => some (.psradXmm (h.regVec reg) rm.vecRegMem)
  | .psradMmImm => rm.mmReg?.map fun d => .psradMmImm d imm
  | .psradXmmImm => rm.vecReg?.map fun d => .psradXmmImm d imm
  | .vpsrawXmm => some (.vpsrawXmm (h.regVec reg) h.vvvv.toFin rm.vecRegMem)
  | .vpsrawXmmImm => rm.vecReg?.map fun s1 => .vpsrawXmmImm h.vvvv.toFin s1 imm
  | .vpsradXmm => some (.vpsradXmm (h.regVec reg) h.vvvv.toFin rm.vecRegMem)
  | .vpsradXmmImm => rm.vecReg?.map fun s1 => .vpsradXmmImm h.vvvv.toFin s1 imm
  | .vpsrawYmm => some (.vpsrawYmm (h.regVec reg) h.vvvv.toFin rm.vecRegMem)
  | .vpsrawYmmImm => rm.vecReg?.map fun s1 => .vpsrawYmmImm h.vvvv.toFin s1 imm
  | .vpsradYmm => some (.vpsradYmm (h.regVec reg) h.vvvv.toFin rm.vecRegMem)
  | .vpsradYmmImm => rm.vecReg?.map fun s1 => .vpsradYmmImm h.vvvv.toFin s1 imm
  | .evexVpsraw128 => h.maskingNb.map fun m => .evexVpsraw128 (h.regVec reg) h.vvvv.toFin rm.vecRegMem m
  | .evexVpsraw256 => h.maskingNb.map fun m => .evexVpsraw256 (h.regVec reg) h.vvvv.toFin rm.vecRegMem m
  | .evexVpsraw512 => h.maskingNb.map fun m => .evexVpsraw512 (h.regVec reg) h.vvvv.toFin rm.vecRegMem m
  | .evexVpsraw128Imm => h.maskingNb.map fun m => .evexVpsraw128Imm h.vvvv.toFin rm.vecRegMem imm m
  | .evexVpsraw256Imm => h.maskingNb.map fun m => .evexVpsraw256Imm h.vvvv.toFin rm.vecRegMem imm m
  | .evexVpsraw512Imm => h.maskingNb.map fun m => .evexVpsraw512Imm h.vvvv.toFin rm.vecRegMem imm m
  | .evexVpsrad128 => h.maskingNb.map fun m => .evexVpsrad128 (h.regVec reg) h.vvvv.toFin rm.vecRegMem m
  | .evexVpsrad256 => h.maskingNb.map fun m => .evexVpsrad256 (h.regVec reg) h.vvvv.toFin rm.vecRegMem m
  | .evexVpsrad512 => h.maskingNb.map fun m => .evexVpsrad512 (h.regVec reg) h.vvvv.toFin rm.vecRegMem m
  | .evexVpsrad128Imm => h.masking.bind fun m => (rm.fvSource h.bc).map fun src => .evexVpsrad128Imm h.vvvv.toFin src imm m
  | .evexVpsrad256Imm => h.masking.bind fun m => (rm.fvSource h.bc).map fun src => .evexVpsrad256Imm h.vvvv.toFin src imm m
  | .evexVpsrad512Imm => h.masking.bind fun m => (rm.fvSource h.bc).map fun src => .evexVpsrad512Imm h.vvvv.toFin src imm m
  | .evexVpsraq128 => h.maskingNb.map fun m => .evexVpsraq128 (h.regVec reg) h.vvvv.toFin rm.vecRegMem m
  | .evexVpsraq256 => h.maskingNb.map fun m => .evexVpsraq256 (h.regVec reg) h.vvvv.toFin rm.vecRegMem m
  | .evexVpsraq512 => h.maskingNb.map fun m => .evexVpsraq512 (h.regVec reg) h.vvvv.toFin rm.vecRegMem m
  | .evexVpsraq128Imm => h.masking.bind fun m => (rm.fvSource h.bc).map fun src => .evexVpsraq128Imm h.vvvv.toFin src imm m
  | .evexVpsraq256Imm => h.masking.bind fun m => (rm.fvSource h.bc).map fun src => .evexVpsraq256Imm h.vvvv.toFin src imm m
  | .evexVpsraq512Imm => h.masking.bind fun m => (rm.fvSource h.bc).map fun src => .evexVpsraq512Imm h.vvvv.toFin src imm m

/-! ## The decoder -/

/-- The end of decoding, all `len` bytes of the instruction being there: over-long first (60_exceptions.md R147), then the
invalid opcodes. -/
def finishDecode (row : RowMatch) (h : Head) (reg : BitVec 3) (rm : RmField) (imm : Byte) (len : Nat) : Decoded :=
  match row with
  | .outside => .refused .notInScope
  | .reserved _ => if 15 < len then .tooLong else .invalidOpcode
  | .row f =>
    if 15 < len then .tooLong
    else if h.illegal then .invalidOpcode
    else
      match buildInstr f h reg rm imm with
      | some i => .ok i len
      | none => .invalidOpcode

/-- Reads the ModRM byte's operand and the immediate of form `f`, then ends. `total` is the number of bytes decoding was
given: what is left at the end tells the length (R74). -/
def decodeOperands (m64 : Bool) (total : Nat) (row : RowMatch) (f : Form) (h : Head) (modrm : Byte) (bs : List Byte) :
    Decoded :=
  match parseRm m64 h (f.disp8Scale h.bc) modrm bs with
  | .truncated => .truncated
  | .refused why => .refused why
  | .ok rm rest =>
    if f.hasImm then
      match rest with
      | [] => .truncated
      | imm :: rest => finishDecode row h (modrm.extractLsb' 3 3) rm imm (total - rest.length)
    else finishDecode row h (modrm.extractLsb' 3 3) rm 0 (total - rest.length)

/-- Decodes the instruction at the front of the bytes, in 64-bit mode (`m64`) or outside it. -/
def decode (m64 : Bool) (bs : List Byte) : Decoded :=
  match parseHead m64 bs with
  | .truncated => .truncated
  | .refused why => .refused why
  | .ok _ [] => .truncated
  | .ok h (opcode :: rest) =>
    if h.map = 1 ∧ opcodeInScope opcode then
      match rest with
      | [] => .truncated
      | modrm :: rest =>
        match h.rowMatch opcode modrm with
        | .outside => .refused .notInScope
        | .row f => decodeOperands m64 bs.length (.row f) f h modrm rest
        | .reserved f => decodeOperands m64 bs.length (.reserved f) f h modrm rest
    else .refused .notInScope

/-! ## The encoder

`encode` writes ONE encoding of a well-formed instruction, the same in both modes: no prefix beyond the ones the form
needs, the three-byte VEX prefix, `W = 0` where it is ignored, and every memory operand but a `pc`-relative one through a
SIB byte and a 32-bit displacement. -/

/-- The extension bits, `mod`, `rm` and the bytes after the ModRM byte that name an r/m operand. -/
structure RmCode where
  x : Bool
  b : Bool
  mod : BitVec 2
  rm : BitVec 3
  tail : List Byte
deriving DecidableEq, Repr

/-- A register in ModRM r/m. -/
def encReg (n : BitVec 5) : RmCode := ⟨n.getLsbD 4, n.getLsbD 3, 3, n.extractLsb' 0 3, []⟩

/-- An MMX register number as a 5-bit one. -/
def encMm (r : MmReg) : BitVec 5 := (BitVec.ofFin r : BitVec 3).setWidth 5

/-- The scale's code (R57). -/
def Scale.bits : Scale → BitVec 2
  | .s1 => 0
  | .s2 => 1
  | .s4 => 2
  | .s8 => 3

/-- The index number and scale code of a SIB byte; number 4 for no index (R57). -/
def encIndex : Option (GReg × Scale) → BitVec 4 × BitVec 2
  | none => (4, 0)
  | some (r, sc) => (BitVec.ofFin r, sc.bits)

/-- A memory operand (R56, R57). -/
def MemRef.enc : MemRef → RmCode
  | .ripRel d => ⟨false, false, 0, 5, le32Bytes d⟩
  | .sum base index d =>
    let n := (encIndex index).1
    let sc := (encIndex index).2
    match base with
    | none => ⟨n.getLsbD 3, false, 0, 4, (sc ++ n.extractLsb' 0 3 ++ (5 : BitVec 3)) :: le32Bytes d⟩
    | some r =>
      let b : BitVec 4 := BitVec.ofFin r
      ⟨n.getLsbD 3, b.getLsbD 3, 2, 4, (sc ++ n.extractLsb' 0 3 ++ b.extractLsb' 0 3) :: le32Bytes d⟩

/-- An MMX register or memory operand. -/
def RegMem.encMm : RegMem MmReg → RmCode
  | .reg r => encReg (Sys2Proof.encMm r)
  | .mem m => m.enc

/-- A vector register or memory operand. -/
def RegMem.encVec : RegMem VReg → RmCode
  | .reg r => encReg (BitVec.ofFin r)
  | .mem m => m.enc

/-- The data source of an FVI form. -/
def FvSource.enc : FvSource → RmCode
  | .reg r => encReg (BitVec.ofFin r)
  | .mem m => m.enc
  | .bcst m => m.enc

/-- `EVEX.b` of an FVI form. -/
def FvSource.isBcst : FvSource → Bool
  | .reg _ => false
  | .mem _ => false
  | .bcst _ => true

/-- The ModRM byte (R56). -/
def modrmByte (mod : BitVec 2) (reg rm : BitVec 3) : Byte := mod ++ reg ++ rm

/-- The opcode byte, the ModRM byte, what follows it, and the immediate if any. -/
def opcodeBytes (op : Byte) (reg : BitVec 5) (e : RmCode) (imm : List Byte) : List Byte :=
  op :: modrmByte e.mod (reg.extractLsb' 0 3) e.rm :: (e.tail ++ imm)

/-- The REX prefix, where an extension bit needs it (R59). -/
def rexBytes (r x b : Bool) : List Byte :=
  if r || x || b then [(4 : BitVec 4) ++ BitVec.ofBool false ++ BitVec.ofBool r ++ BitVec.ofBool x ++ BitVec.ofBool b]
  else []

/-- A legacy form: `op66` asks for the mandatory 0x66 (R52, R59). -/
def legacyBytes (op66 : Bool) (op : Byte) (reg : BitVec 5) (e : RmCode) (imm : List Byte) : List Byte :=
  (if op66 then [0x66] else []) ++ rexBytes (reg.getLsbD 3) e.x e.b ++ 0x0F :: opcodeBytes op reg e imm

/-- A VEX form with the three-byte prefix, map 0F, `pp` = 66, `W` = 0 (R53, R61). -/
def vexBytes (l : Bool) (op : Byte) (reg vvvv : BitVec 5) (e : RmCode) (imm : List Byte) : List Byte :=
  0xC4 :: (BitVec.ofBool (!reg.getLsbD 3) ++ BitVec.ofBool (!e.x) ++ BitVec.ofBool (!e.b) ++ (1 : BitVec 5))
    :: (BitVec.ofBool false ++ ~~~(vvvv.extractLsb' 0 4) ++ BitVec.ofBool l ++ (1 : BitVec 2))
    :: opcodeBytes op reg e imm

/-- The mask selector's code (R68). -/
def OpMask.bits : OpMask → BitVec 3
  | .k1 => 1
  | .k2 => 2
  | .k3 => 3
  | .k4 => 4
  | .k5 => 5
  | .k6 => 6
  | .k7 => 7

/-- `aaa` of a masking (R68). -/
def Masking.aaa : Masking → BitVec 3
  | .unmasked => 0
  | .merging k => k.bits
  | .zeroing k => k.bits

/-- `EVEX.z` of a masking (R68). -/
def Masking.z : Masking → Bool
  | .unmasked => false
  | .merging _ => false
  | .zeroing _ => true

/-- An EVEX form, map 0F, `pp` = 66 (R54, R62). -/
def evexBytes (w : Bool) (ll : BitVec 2) (bc : Bool) (m : Masking) (op : Byte) (reg vvvv : BitVec 5) (e : RmCode)
    (imm : List Byte) : List Byte :=
  0x62 :: (BitVec.ofBool (!reg.getLsbD 3) ++ BitVec.ofBool (!e.x) ++ BitVec.ofBool (!e.b)
      ++ BitVec.ofBool (!reg.getLsbD 4) ++ (1 : BitVec 4))
    :: (BitVec.ofBool w ++ ~~~(vvvv.extractLsb' 0 4) ++ BitVec.ofBool true ++ (1 : BitVec 2))
    :: (BitVec.ofBool m.z ++ ll ++ BitVec.ofBool bc ++ BitVec.ofBool (!vvvv.getLsbD 4) ++ m.aaa)
    :: opcodeBytes op reg e imm

/-- The bytes of a well-formed instruction (R51 to R72). -/
def encode : Instr → List Byte
  | .psrawMm d c => legacyBytes false 0xE1 (encMm d) c.encMm []
  | .psrawXmm d c => legacyBytes true 0xE1 (BitVec.ofFin d) c.encVec []
  | .psrawMmImm d imm => legacyBytes false 0x71 4 (encReg (encMm d)) [imm]
  | .psrawXmmImm d imm => legacyBytes true 0x71 4 (encReg (BitVec.ofFin d)) [imm]
  | .psradMm d c => legacyBytes false 0xE2 (encMm d) c.encMm []
  | .psradXmm d c => legacyBytes true 0xE2 (BitVec.ofFin d) c.encVec []
  | .psradMmImm d imm => legacyBytes false 0x72 4 (encReg (encMm d)) [imm]
  | .psradXmmImm d imm => legacyBytes true 0x72 4 (encReg (BitVec.ofFin d)) [imm]
  | .vpsrawXmm d s1 c => vexBytes false 0xE1 (BitVec.ofFin d) (BitVec.ofFin s1) c.encVec []
  | .vpsrawXmmImm d s1 imm => vexBytes false 0x71 4 (BitVec.ofFin d) (encReg (BitVec.ofFin s1)) [imm]
  | .vpsradXmm d s1 c => vexBytes false 0xE2 (BitVec.ofFin d) (BitVec.ofFin s1) c.encVec []
  | .vpsradXmmImm d s1 imm => vexBytes false 0x72 4 (BitVec.ofFin d) (encReg (BitVec.ofFin s1)) [imm]
  | .vpsrawYmm d s1 c => vexBytes true 0xE1 (BitVec.ofFin d) (BitVec.ofFin s1) c.encVec []
  | .vpsrawYmmImm d s1 imm => vexBytes true 0x71 4 (BitVec.ofFin d) (encReg (BitVec.ofFin s1)) [imm]
  | .vpsradYmm d s1 c => vexBytes true 0xE2 (BitVec.ofFin d) (BitVec.ofFin s1) c.encVec []
  | .vpsradYmmImm d s1 imm => vexBytes true 0x72 4 (BitVec.ofFin d) (encReg (BitVec.ofFin s1)) [imm]
  | .evexVpsraw128 d s1 c m => evexBytes false 0 false m 0xE1 (BitVec.ofFin d) (BitVec.ofFin s1) c.encVec []
  | .evexVpsraw256 d s1 c m => evexBytes false 1 false m 0xE1 (BitVec.ofFin d) (BitVec.ofFin s1) c.encVec []
  | .evexVpsraw512 d s1 c m => evexBytes false 2 false m 0xE1 (BitVec.ofFin d) (BitVec.ofFin s1) c.encVec []
  | .evexVpsraw128Imm d src imm m => evexBytes false 0 false m 0x71 4 (BitVec.ofFin d) src.encVec [imm]
  | .evexVpsraw256Imm d src imm m => evexBytes false 1 false m 0x71 4 (BitVec.ofFin d) src.encVec [imm]
  | .evexVpsraw512Imm d src imm m => evexBytes false 2 false m 0x71 4 (BitVec.ofFin d) src.encVec [imm]
  | .evexVpsrad128 d s1 c m => evexBytes false 0 false m 0xE2 (BitVec.ofFin d) (BitVec.ofFin s1) c.encVec []
  | .evexVpsrad256 d s1 c m => evexBytes false 1 false m 0xE2 (BitVec.ofFin d) (BitVec.ofFin s1) c.encVec []
  | .evexVpsrad512 d s1 c m => evexBytes false 2 false m 0xE2 (BitVec.ofFin d) (BitVec.ofFin s1) c.encVec []
  | .evexVpsrad128Imm d src imm m => evexBytes false 0 src.isBcst m 0x72 4 (BitVec.ofFin d) src.enc [imm]
  | .evexVpsrad256Imm d src imm m => evexBytes false 1 src.isBcst m 0x72 4 (BitVec.ofFin d) src.enc [imm]
  | .evexVpsrad512Imm d src imm m => evexBytes false 2 src.isBcst m 0x72 4 (BitVec.ofFin d) src.enc [imm]
  | .evexVpsraq128 d s1 c m => evexBytes true 0 false m 0xE2 (BitVec.ofFin d) (BitVec.ofFin s1) c.encVec []
  | .evexVpsraq256 d s1 c m => evexBytes true 1 false m 0xE2 (BitVec.ofFin d) (BitVec.ofFin s1) c.encVec []
  | .evexVpsraq512 d s1 c m => evexBytes true 2 false m 0xE2 (BitVec.ofFin d) (BitVec.ofFin s1) c.encVec []
  | .evexVpsraq128Imm d src imm m => evexBytes true 0 src.isBcst m 0x72 4 (BitVec.ofFin d) src.enc [imm]
  | .evexVpsraq256Imm d src imm m => evexBytes true 1 src.isBcst m 0x72 4 (BitVec.ofFin d) src.enc [imm]
  | .evexVpsraq512Imm d src imm m => evexBytes true 2 src.isBcst m 0x72 4 (BitVec.ofFin d) src.enc [imm]

/-! ## The words of spec/opcode_table.json

The table numbers the bits of a decode key (R73), not of stored bytes: class, `pp`, `LL`, `W`, map, opcode, ModRM. -/

/-- The bytes of the instruction whose decode key is `w` and whose other fields are all 0 (registers of `vvvv` and of the
extension bits number 0, no mask, no zeroing, no broadcast, every later byte 0), padded to 15 bytes; none where no
encoding has the key. -/
def keyBytes (w : Nat) : Option (List Byte) :=
  let key : BitVec 32 := BitVec.ofNat 32 w
  let cls := key.extractLsb' 30 2
  let pp := key.extractLsb' 28 2
  let ll := key.extractLsb' 26 2
  let wBit := key.extractLsb' 25 1
  let map := key.extractLsb' 16 8
  let tail := [key.extractLsb' 8 8, key.extractLsb' 0 8]
  let pad (bs : List Byte) : List Byte := (bs ++ List.replicate 15 0).take 15
  if key.getLsbD 24 then none
  else if cls = 0 then
    if ll = 0 ∧ map = 1 then
      some (pad ((if pp = 1 then [0x66] else if pp = 2 then [0xF3] else if pp = 3 then [0xF2] else [])
        ++ (if wBit = 1 then [0x48] else []) ++ 0x0F :: tail))
    else none
  else if cls = 1 then
    if ll.getLsbD 1 ∨ map.extractLsb' 5 3 ≠ 0 then none
    else some (pad (0xC4 :: ((7 : BitVec 3) ++ map.extractLsb' 0 5)
      :: (wBit ++ (15 : BitVec 4) ++ ll.extractLsb' 0 1 ++ pp) :: tail))
  else if cls = 2 then
    if map.extractLsb' 2 6 ≠ 0 then none
    else some (pad (0x62 :: ((15 : BitVec 4) ++ (0 : BitVec 2) ++ map.extractLsb' 0 2)
      :: (wBit ++ (15 : BitVec 4) ++ (1 : BitVec 1) ++ pp)
      :: ((0 : BitVec 1) ++ ll ++ (0 : BitVec 1) ++ (1 : BitVec 1) ++ (0 : BitVec 3)) :: tail))
  else none

/-- The instruction the decoder reads from a word of the opcode table, in 64-bit mode. The table gives every row 32 bits. -/
def decodeTableWord (_nbits w : Nat) : Option Instr :=
  match keyBytes w with
  | none => none
  | some bs =>
    match decode true bs with
    | .ok i _ => some i
    | _ => none

end Sys2Proof
end

