-- ==== Sys2Proof/Machine/Shift.lean ====
section
/-! DEFINITION. The shift primitives every form shares (40_shift_primitives.md): the element operation, the common-count
vector shift, the write mask and the broadcast. -/

namespace Sys2Proof.Machine

/-- `rep(b, w)`: `w` copies of one bit (00_scope.md R10). -/
def rep (b : Bool) (w : Nat) : BitVec w := if b then BitVec.allOnes w else 0

/-- `sra_w(e, c)`, the arithmetic right shift of one element (40_shift_primitives.md R85, R86). -/
def sra {w : Nat} (e : BitVec w) (c : Nat) : BitVec w :=
  if w ≤ c then rep e.msb w
  else if c = 0 then e
  else (rep e.msb w <<< (w - c)) ||| (e >>> c)

/-- Element `j` of width `w`: bits `[j*w + w-1 : j*w]` (00_scope.md R8). -/
def elem {n : Nat} (w : Nat) (s : BitVec n) (j : Nat) : BitVec w := s.extractLsb' (w * j) w

/-- The `n`-bit vector whose elements 0 to `k-1` of width `w` are `f 0 .. f (k-1)`, the bits above them 0. -/
def pack (n w : Nat) (f : Nat → BitVec w) : Nat → BitVec n
  | 0 => 0
  | k + 1 => pack n w f k ||| ((f k).setWidth n <<< (w * k))

/-- `shift_vec(w, n, s, c)`: every element shifted by the one unsigned count, clamped at `w`
(40_shift_primitives.md R90, R99). -/
def shiftVec (w n : Nat) (s : BitVec n) (c : BitVec 64) : BitVec n :=
  pack n w (fun j => sra (elem w s j) (min c.toNat w)) (n / w)

/-- `mask_apply(w, VL, r, old, m, z)` (40_shift_primitives.md R100). -/
def maskApply (w n : Nat) (r old : BitVec n) (m : BitVec 64) (z : Bool) : BitVec n :=
  pack n w (fun j => if m.getLsbD j then elem w r j else if z then 0 else elem w old j) (n / w)

/-- One element repeated over the whole vector (20_memory.md R38). -/
def broadcast (w n : Nat) (e : BitVec w) : BitVec n := pack n w (fun _ => e) (n / w)

/-- The immediate count: `COUNT = zext_64(imm8)` (40_shift_primitives.md R87, decision D7). -/
def immCount (imm : BitVec 8) : BitVec 64 := imm.setWidth 64

end Sys2Proof.Machine
end

