-- ==== Sys2Proof/Machine/State.lean ====
section
/-! DEFINITION. The machine's state as plain data, the faults and refusals a step can end in, and the state a run starts
from. INVENTORY.md lists every field with the rule that names it. -/

namespace Sys2Proof.Machine

/-- Byte-addressed memory (10_state.md R29) as a list of address and byte pairs in one canonical form (`Memory.wf`):
addresses strictly rising, none beyond the address space, no entry equal to what an unlisted address reads as. -/
structure Memory where
  cells : List Host.Cell
deriving DecidableEq, Repr

/-- The architectural state (10_state.md) with the parameters of the run (00_scope.md R6). -/
structure State where
  /-- The parameters `MODE64`, `FEATURES`, `MAX_VL`, `enabled`, `readable` (00_scope.md R6): no step changes them. -/
  launch : Sys2Proof.Launch
  /-- `MM[0..7]` (10_state.md R15). -/
  mm : Vector (BitVec 64) 8
  /-- `V[0..31]`, each held 512 bits wide; bits from `MAX_VL` up do not exist on the processor (10_state.md R16, R19). -/
  v : Vector (BitVec 512) 32
  /-- `K[0..7]` (10_state.md R20). -/
  k : Vector (BitVec 64) 8
  /-- The general registers, used in addresses only (10_state.md R22). -/
  gpr : Vector (BitVec 64) 16
  /-- The address of the first byte of the current instruction (10_state.md R24). -/
  pc : BitVec 64
  /-- `len`: the length in bytes of the instruction being executed (00_scope.md R10, 30_encoding.md R74). -/
  ilen : Nat
  /-- Memory, data and instruction bytes alike (10_state.md R29). -/
  mem : Memory
deriving DecidableEq, Repr

/-- The three fault kinds (60_exceptions.md R145). -/
inductive FaultKind where
  /-- `#UD`, also standing in for `#NM`. -/
  | invalidOpcode
  /-- `#GP(0)`. -/
  | generalProtection
  /-- `#PF`, `#SS(0)` or `#GP(0)`, not distinguished, at the lowest unreadable byte address of the access. -/
  | memory (addr : Nat)
deriving DecidableEq, Repr

/-- The outcome `fault(kind, pc)` that ends a run (60_exceptions.md R145, R146). `pc` is the faulting instruction's. -/
inductive Fault where
  /-- Raised by every form: a feature flag missing, `enabled(form)` false, `VL > MAX_VL`; and by the decoder for the
  reserved encodings and illegal prefixes of R78, R80, R81. Safe: the spec's own outcome. -/
  | invalidOpcode (pc : BitVec 64)
  /-- Raised by the legacy SSE2 forms with a memory operand that is not 16-byte aligned, and by the fetch of an instruction
  longer than 15 bytes; the error code is 0. Safe: the spec's own outcome. -/
  | generalProtection (errorCode : BitVec 32) (pc : BitVec 64)
  /-- Raised by every form with a memory operand, and by the fetch, at the lowest byte address of the access that is not
  readable. Safe: the spec's own outcome; the model faults in some states where the chip suppresses the fault
  (60_exceptions.md R148). -/
  | memory (addr : Nat) (pc : BitVec 64)
deriving DecidableEq, Repr

/-- The edge of the model (70_reset_and_hazards.md R168 (c)): no claim is provable about a run that reaches one. -/
inductive Refusal where
  /-- An instruction with no meaning yet, by its mnemonic. Raised by no arm of this model. Safe. -/
  | notModelled (mnemonic : String)
  /-- Raised by the fetch: the bytes at `pc` are not one of the 34 forms (30_encoding.md R79, decision D15). Safe. -/
  | notInScope
  /-- Raised by the fetch: an address-size prefix 0x67 (30_encoding.md R58, decision D10). Safe. -/
  | addressSizePrefix
  /-- Raised by the fetch: 0xF2 or 0xF3 on a legacy form (30_encoding.md R58, decision D19). Safe. -/
  | repPrefixOnLegacy
  /-- Raised by the fetch: a VEX or EVEX register-extension bit set outside 64-bit mode (R61, R62, decision D31). Safe. -/
  | extensionBitsOutside64
  /-- Raised by an instruction that completes at `pc + len` beyond the top of the address space, and by a fetch that would
  run past it (10_state.md R25, decision D11). Safe. -/
  | pcPastTop
deriving DecidableEq, Repr

/-- Every feature flag set. -/
def allFeatures : Sys2Proof.Features := ⟨true, true, true, true, true, true, true⟩

/-- The parameters of the reset state: 64-bit mode, every feature, `MAX_VL` 512, every form enabled, every byte readable.
DESIGN CHOICE (log entry 2): the spec gives no reset and leaves the parameters to the launch. -/
def resetLaunch : Sys2Proof.Launch := ⟨true, allFeatures, .v512, Vector.replicate 34 true, []⟩

/-- The state a run starts from where nothing else is placed. The spec has no reset (10_state.md R31, R32;
70_reset_and_hazards.md R159): the register values are the family's that R160 gives for orientation (PRESUMED, log
entry 1), the rest is the model's choice (DESIGN CHOICE, log entries 1 to 3). -/
def State.reset : State :=
  { launch := resetLaunch
    mm := Vector.replicate 8 0
    v := Vector.replicate 32 0
    k := Vector.replicate 8 0
    gpr := Vector.replicate 16 0
    pc := 0xFFFFFFF0
    ilen := 0
    mem := ⟨[]⟩ }

end Sys2Proof.Machine
end

