-- ==== Sys2Proof/Machine/Ops.lean ====
section
/-! DEFINITION. The named operations over memory and registers: memory bytes and multi-byte reads, effective addresses,
register reads and writes, raising a fault, completing an instruction, and fetching. -/

namespace Sys2Proof.Machine

/-- What every step and every meaning answers. -/
abbrev Result := Host.Outcome State Fault Refusal

/-! ## Memory bytes -/

/-- What an address that no cell lists reads as. DESIGN CHOICE (log entry 3): the spec lets memory hold any value at launch
(10_state.md R31); a claim about other contents lists them. -/
def unlistedByte : BitVec 8 := 0

/-- The byte a list of cells holds at an address. -/
def cellAt : List Host.Cell → Nat → BitVec 8
  | [], _ => unlistedByte
  | (k, b) :: rest, a => if k = a then b else cellAt rest a

/-- Puts a byte into a list of cells with rising addresses; the value of an unlisted address leaves no entry. -/
def putCell : List Host.Cell → Nat → BitVec 8 → List Host.Cell
  | [], a, b => if b = unlistedByte then [] else [(a, b)]
  | (k, x) :: rest, a, b =>
    if a < k then (if b = unlistedByte then (k, x) :: rest else (a, b) :: (k, x) :: rest)
    else if a = k then (if b = unlistedByte then rest else (a, b) :: rest)
    else (k, x) :: putCell rest a b

/-- The byte at an address (`Mem : Addr -> Byte`, 10_state.md R29). -/
def Memory.read (m : Memory) (a : Nat) : BitVec 8 := cellAt m.cells a

/-- Stores a byte; an address beyond the 64-bit address space does not exist and holds nothing. No form writes memory
(20_memory.md R40): this is how a launch places a program. -/
def Memory.write (m : Memory) (a : Nat) (b : BitVec 8) : Memory := if a < 2 ^ 64 then ⟨putCell m.cells a b⟩ else m

/-- Stores bytes at rising addresses. -/
def Memory.writeBytes (m : Memory) (a : Nat) : List (BitVec 8) → Memory
  | [] => m
  | b :: bs => (m.write a b).writeBytes (a + 1) bs

/-- The canonical form of a list of cells whose addresses are at least `lo`. -/
def cellsWf (lo : Nat) : List Host.Cell → Bool
  | [] => true
  | (k, b) :: rest => decide (lo ≤ k) && decide (k < 2 ^ 64) && b != unlistedByte && cellsWf (k + 1) rest

/-- The canonical form: addresses strictly rising, inside the address space, no entry equal to an unlisted byte. -/
def Memory.wf (m : Memory) : Bool := cellsWf 0 m.cells

/-! ## Addresses -/

/-- The width of an address: 64 bits when `MODE64`, 32 otherwise (10_state.md R29). -/
def State.addrBits (s : State) : Nat := if s.launch.mode64 then 64 else 32

/-- One more than the top address. -/
def State.addrLimit (s : State) : Nat := 2 ^ s.addrBits

/-- `readable(addr)` (20_memory.md R47): the address exists and the launch lets it be read. -/
def State.readable (s : State) (a : Nat) : Bool :=
  decide (a < s.addrLimit) && !(s.launch.unreadable.any fun r => r.contains a)

/-- The lowest of the `n` addresses from `a` that is not readable (60_exceptions.md R145). -/
def State.firstUnreadable (s : State) (a : Nat) : Nat → Option Nat
  | 0 => none
  | n + 1 => if s.readable a then s.firstUnreadable (a + 1) n else some a

/-- The `n`-byte value at `a`, the byte at the lowest address least significant (20_memory.md R34). -/
def State.readLE (s : State) (a n : Nat) : BitVec (8 * n) := pack (8 * n) 8 (fun j => s.mem.read (a + j)) n

/-- `MemRead(addr, n)`: the value, or the memory fault at the lowest unreadable byte (20_memory.md R34, R47). -/
def State.memRead (s : State) (a n : Nat) : Except FaultKind (BitVec (8 * n)) :=
  match s.firstUnreadable a n with
  | some u => .error (.memory u)
  | none => .ok (s.readLE a n)

/-! ## Registers -/

/-- `MM[r]` (10_state.md R15). -/
def State.readMm (s : State) (r : Sys2Proof.MmReg) : BitVec 64 := s.mm.get r

/-- `MM[r] <- x`. -/
def State.writeMm (s : State) (r : Sys2Proof.MmReg) (x : BitVec 64) : State := { s with mm := s.mm.set r.val x r.isLt }

/-- `V[r]`, whole (10_state.md R16). -/
def State.readV (s : State) (r : Sys2Proof.VReg) : BitVec 512 := s.v.get r

/-- `V[r] <- x`, whole. -/
def State.writeV (s : State) (r : Sys2Proof.VReg) (x : BitVec 512) : State := { s with v := s.v.set r.val x r.isLt }

/-- `V[r][n-1:0]`: the XMM, YMM or ZMM view of a register (10_state.md R16). -/
def State.readLow (s : State) (r : Sys2Proof.VReg) (n : Nat) : BitVec n := (s.readV r).setWidth n

/-- The legacy SSE write: bits 127:0 written, the bits above unmodified (40_shift_primitives.md R101). -/
def State.writeXmmKeep (s : State) (r : Sys2Proof.VReg) (x : BitVec 128) : State :=
  s.writeV r ((s.readV r).extractLsb' 128 384 ++ x)

/-- The VEX and EVEX write: bits `n-1:0` written, the bits above zeroed (40_shift_primitives.md R101). -/
def State.writeLowZero (s : State) (r : Sys2Proof.VReg) {n : Nat} (x : BitVec n) : State := s.writeV r (x.setWidth 512)

/-- The number of the opmask register a selector names. -/
def maskNumber : Sys2Proof.OpMask → Fin 8
  | .k1 => 1
  | .k2 => 2
  | .k3 => 3
  | .k4 => 4
  | .k5 => 5
  | .k6 => 6
  | .k7 => 7

/-- `K[k]` (10_state.md R20). -/
def State.readK (s : State) (k : Sys2Proof.OpMask) : BitVec 64 := s.k.get (maskNumber k)

/-- A general register in an address (10_state.md R22, 20_memory.md R46). -/
def State.readGpr (s : State) (r : Sys2Proof.GReg) : BitVec 64 := s.gpr.get r

/-- The factor of an index (20_memory.md R46). -/
def scaleFactor : Sys2Proof.Scale → BitVec 64
  | .s1 => 1
  | .s2 => 2
  | .s4 => 4
  | .s8 => 8

/-- Truncation to the address width (20_memory.md R46). -/
def State.truncAddr (s : State) (a : BitVec 64) : BitVec 64 := if s.launch.mode64 then a else (a.setWidth 32).setWidth 64

/-- The effective address of a memory operand (20_memory.md R46), as the address of its first byte. -/
def State.ea (s : State) : Sys2Proof.MemRef → Nat
  | .sum base index disp =>
    (s.truncAddr ((match base with | none => 0 | some b => s.readGpr b)
      + (match index with | none => 0 | some (x, sc) => s.readGpr x * scaleFactor sc) + disp.signExtend 64)).toNat
  | .ripRel disp => (s.truncAddr (s.pc + BitVec.ofNat 64 s.ilen + disp.signExtend 64)).toNat

/-! ## Faults -/

/-- The outcome `fault(kind, pc)` (60_exceptions.md R146): no register and no memory is written, `pc` is the faulting
instruction's, the run ends. The spec gives no trap entry to run after it and no return from one (R150, R151,
decision D17), so there is no operation for a return. -/
def State.raise (s : State) : FaultKind → Result
  | .invalidOpcode => .fault (.invalidOpcode s.pc)
  | .generalProtection => .fault (.generalProtection 0 s.pc)
  | .memory a => .fault (.memory a s.pc)

/-- Goes on with an operand, or raises the fault its read ended in. -/
def State.withOperand {α : Type} (s : State) (x : Except FaultKind α) (k : α → Result) : Result :=
  match x with
  | .error e => s.raise e
  | .ok a => k a

/-- What a form asks of the processor and the system before it executes: every feature flag of its row (30_encoding.md
R76), `enabled(form)` (60_exceptions.md R143), and `VL` no more than `MAX_VL` (R145, decision D2). -/
def State.canExecute (s : State) (f : Sys2Proof.Form) : Bool :=
  f.needs.all s.launch.features.has && s.launch.enabled.get f.info.row && decide (f.vl ≤ s.launch.maxVl.bits)

/-- Executes a form, or raises the invalid-opcode fault, before any operand is looked at (60_exceptions.md R147). -/
def State.withForm (s : State) (f : Sys2Proof.Form) (k : Result) : Result :=
  if s.canExecute f then k else s.raise .invalidOpcode

/-- Completion: `pc <- pc + len` (10_state.md R25). A `pc` beyond the top of the address space is refused (decision D11). -/
def State.complete (s : State) : Result :=
  if s.pc.toNat + s.ilen < s.addrLimit then .next { s with pc := s.pc + BitVec.ofNat 64 s.ilen }
  else .refused .pcPastTop

/-! ## Fetch -/

/-- The readable bytes from `a` on, `n` at most (20_memory.md R35): the run of them up to the first unreadable one. -/
def State.fetchBytes (s : State) (a : Nat) : Nat → List Sys2Proof.Byte
  | 0 => []
  | n + 1 => if s.readable a then s.mem.read a :: s.fetchBytes (a + 1) n else []

/-- The longest instruction (30_encoding.md R51). -/
def maxLength : Nat := 15

/-- What a fetch gives the step: an instruction and the state to execute it in, or the end of the run. -/
inductive Fetched where
  | run (i : Sys2Proof.Instr) (s : State)
  | stop (r : Result)

/-- The refusal of a decoder's refusal. -/
def refusalOf : Sys2Proof.DecodeRefusal → Refusal
  | .notInScope => .notInScope
  | .addressSize => .addressSizePrefix
  | .repOnLegacy => .repPrefixOnLegacy
  | .extensionBits => .extensionBitsOutside64

/-- The end of a fetch whose first 15 bytes are readable and do not end the instruction, which is therefore over-long: the
memory fault if one of its further bytes is not readable, else the length fault (60_exceptions.md R147, items 1 and 2;
30_encoding.md R74). The bytes read are as many as the cells of memory and 15 more, which every instruction ends within: a
prefix byte is a listed byte, and at most 13 bytes follow the prefixes. A byte past the top is no fetch fault (log entry 7). -/
def State.fetchLong (s : State) : Result :=
  let bytes := s.fetchBytes s.pc.toNat (s.mem.cells.length + maxLength)
  match Sys2Proof.decode s.launch.mode64 bytes with
  | .truncated =>
    if s.pc.toNat + bytes.length < s.addrLimit then s.raise (.memory (s.pc.toNat + bytes.length))
    else s.raise .generalProtection
  | .ok _ _ => s.raise .generalProtection
  | .invalidOpcode => s.raise .generalProtection
  | .tooLong => s.raise .generalProtection
  | .refused _ => s.raise .generalProtection

/-- The end of a fetch whose bytes run out before the instruction does, `n` bytes being readable: an instruction longer than
15 bytes (30_encoding.md R74), the top of the address space (decision D11), or an unreadable byte (60_exceptions.md R145,
R147). -/
def State.fetchShort (s : State) (n : Nat) : Result :=
  if maxLength ≤ n then s.fetchLong
  else if s.addrLimit ≤ s.pc.toNat + n then .refused .pcPastTop
  else s.raise (.memory (s.pc.toNat + n))

/-- Fetches and decodes the instruction at `pc` (10_state.md R24, R29; 20_memory.md R35) and latches its length. The faults
of the fetch and of decoding come in the order of 60_exceptions.md R147. -/
def State.fetch (s : State) : Fetched :=
  let bytes := s.fetchBytes s.pc.toNat maxLength
  match Sys2Proof.decode s.launch.mode64 bytes with
  | .ok i len => .run i { s with ilen := len }
  | .invalidOpcode => .stop (s.raise .invalidOpcode)
  | .tooLong => .stop (s.raise .generalProtection)
  | .truncated => .stop (s.fetchShort bytes.length)
  | .refused why => .stop (.refused (refusalOf why))

/-- The regions less the addresses from `a` up to but not including `a + n`. -/
def excludeWindow (a n : Nat) : List Sys2Proof.Region → List Sys2Proof.Region
  | [] => []
  | r :: rest =>
    let below : Sys2Proof.Region := ⟨r.base, min (r.base + r.size) a - r.base⟩
    let above : Sys2Proof.Region := ⟨max r.base (a + n), r.base + r.size - max r.base (a + n)⟩
    if a < r.base + r.size ∧ r.base < a + n then
      (if below.size = 0 then [] else [below]) ++ (if above.size = 0 then [] else [above]) ++ excludeWindow a n rest
    else r :: excludeWindow a n rest

/-- Places an instruction's bytes at `pc` and makes them readable: the stand-in for a launch that placed a program there
(70_reset_and_hazards.md R161). Nothing else changes. -/
def State.placeAtPc (s : State) (bytes : List Sys2Proof.Byte) : State :=
  { s with
    launch := { s.launch with unreadable := excludeWindow s.pc.toNat bytes.length s.launch.unreadable }
    mem := s.mem.writeBytes s.pc.toNat bytes }

end Sys2Proof.Machine
end

