-- ==== Sys2Proof/Machine/Operands.lean ====
section
/-! DEFINITION. Every operand form the 34 forms have: variable counts from a register or memory, data sources from a
register, memory or a broadcast element, and the write mask. -/

namespace Sys2Proof.Machine

/-- The count of an MMX form: a whole MMX register or 8 bytes of memory, no alignment asked (40_shift_primitives.md R89,
20_memory.md R36, R41). -/
def State.countMm (s : State) : Sys2Proof.RegMem Sys2Proof.MmReg → Except FaultKind (BitVec 64)
  | .reg r => .ok (s.readMm r)
  | .mem m => s.memRead (s.ea m) 8

/-- A 16-byte count loaded whole from memory, of which the low 64 bits are the count (20_memory.md R37,
40_shift_primitives.md R88). -/
def State.countM128 (s : State) (a : Nat) : Except FaultKind (BitVec 64) :=
  match s.memRead a 16 with
  | .ok x => .ok (x.setWidth 64)
  | .error e => .error e

/-- The count of a legacy SSE2 form: its memory operand must be 16-byte aligned, which is checked before the read
(20_memory.md R41 (a), 60_exceptions.md R147). -/
def State.countXmmAligned (s : State) : Sys2Proof.RegMem Sys2Proof.VReg → Except FaultKind (BitVec 64)
  | .reg r => .ok (s.readLow r 64)
  | .mem m => if s.ea m % 16 = 0 then s.countM128 (s.ea m) else .error .generalProtection

/-- The count of a VEX or EVEX form, no alignment asked (20_memory.md R41 (b)). -/
def State.countXmm (s : State) : Sys2Proof.RegMem Sys2Proof.VReg → Except FaultKind (BitVec 64)
  | .reg r => .ok (s.readLow r 64)
  | .mem m => s.countM128 (s.ea m)

/-- A full memory vector of `n` bits, `n / 8` bytes (20_memory.md R36). -/
def State.loadVec (s : State) (n a : Nat) : Except FaultKind (BitVec n) :=
  match s.memRead a (n / 8) with
  | .ok x => .ok (x.setWidth n)
  | .error e => .error e

/-- The data source of an FVMI form: `n` bits of a register or of memory (20_memory.md R36). -/
def State.source (s : State) (n : Nat) : Sys2Proof.RegMem Sys2Proof.VReg → Except FaultKind (BitVec n)
  | .reg r => .ok (s.readLow r n)
  | .mem m => s.loadVec n (s.ea m)

/-- The data source of an FVI form: as above, or one element of `w` bits repeated over all of them (20_memory.md R38). -/
def State.fvSource (s : State) (w n : Nat) : Sys2Proof.FvSource → Except FaultKind (BitVec n)
  | .reg r => .ok (s.readLow r n)
  | .mem m => s.loadVec n (s.ea m)
  | .bcst m =>
    match s.loadVec w (s.ea m) with
    | .ok e => .ok (broadcast w n e)
    | .error e => .error e

/-- The mask value `m` of 40_shift_primitives.md R100: all ones where there is no writemask. -/
def State.maskBits (s : State) : Sys2Proof.Masking → BitVec 64
  | .unmasked => BitVec.allOnes 64
  | .merging k => s.readK k
  | .zeroing k => s.readK k

end Sys2Proof.Machine
end

