-- ==== Sys2Proof/Machine/Family.lean ====
section
/-! DEFINITION. The shared operation of each encoding class: what its forms do once the count and the data source are named
(41_mmx_forms.md to 46_evex_vpsraq.md, common text). Every operand is read before the destination is written
(40_shift_primitives.md R102). -/

namespace Sys2Proof.Machine

/-- An MMX form: the 64-bit destination is its own source (41_mmx_forms.md). -/
def mmxShift (f : Sys2Proof.Form) (w : Nat) (d : Sys2Proof.MmReg) (count : Except FaultKind (BitVec 64)) (s : State) :
    Result :=
  s.withForm f (s.withOperand count fun c => (s.writeMm d (shiftVec w 64 (s.readMm d) c)).complete)

/-- A legacy SSE2 form: bits 127:0 of the destination are its own source; the bits above stay (42_sse2_forms.md). -/
def sseShift (f : Sys2Proof.Form) (w : Nat) (d : Sys2Proof.VReg) (count : Except FaultKind (BitVec 64)) (s : State) :
    Result :=
  s.withForm f (s.withOperand count fun c => (s.writeXmmKeep d (shiftVec w 128 (s.readLow d 128) c)).complete)

/-- A VEX form: `n` bits of `s1` shifted into `d`, the bits above zeroed (43_vex_forms.md). -/
def vexShift (f : Sys2Proof.Form) (w n : Nat) (d s1 : Sys2Proof.VReg) (count : Except FaultKind (BitVec 64)) (s : State) :
    Result :=
  s.withForm f (s.withOperand count fun c => (s.writeLowZero d (shiftVec w n (s.readLow s1 n) c)).complete)

/-- An EVEX form: the source shifted, written to `d` under the mask, the bits above `n` zeroed (44_ to 46_, common text). -/
def evexShift (f : Sys2Proof.Form) (w n : Nat) (d : Sys2Proof.VReg) (m : Sys2Proof.Masking)
    (source : Except FaultKind (BitVec n)) (count : Except FaultKind (BitVec 64)) (s : State) : Result :=
  s.withForm f (s.withOperand source fun x => s.withOperand count fun c =>
    (s.writeLowZero d (maskApply w n (shiftVec w n x c) (s.readLow d n) (s.maskBits m) m.z)).complete)

end Sys2Proof.Machine
end

