-- ==== Sys2Proof/Machine/EvexVpsrad.lean ====
section
/-! DEFINITION. The six EVEX forms of VPSRAD (45_evex_vpsrad.md). -/

namespace Sys2Proof.Machine

/-- `VPSRAD xmm1 {k1}{z}, xmm2, xmm3/m128` (R125): row 23. -/
def execEvexVpsrad128 (d s1 : Sys2Proof.VReg) (c : Sys2Proof.RegMem Sys2Proof.VReg) (m : Sys2Proof.Masking) (s : State) : Result :=
  evexShift .evexVpsrad128 32 128 d m (.ok (s.readLow s1 128)) (s.countXmm c) s

/-- `VPSRAD ymm1 {k1}{z}, ymm2, xmm3/m128` (R126): row 24. -/
def execEvexVpsrad256 (d s1 : Sys2Proof.VReg) (c : Sys2Proof.RegMem Sys2Proof.VReg) (m : Sys2Proof.Masking) (s : State) : Result :=
  evexShift .evexVpsrad256 32 256 d m (.ok (s.readLow s1 256)) (s.countXmm c) s

/-- `VPSRAD zmm1 {k1}{z}, zmm2, xmm3/m128` (R127): row 25. -/
def execEvexVpsrad512 (d s1 : Sys2Proof.VReg) (c : Sys2Proof.RegMem Sys2Proof.VReg) (m : Sys2Proof.Masking) (s : State) : Result :=
  evexShift .evexVpsrad512 32 512 d m (.ok (s.readLow s1 512)) (s.countXmm c) s

/-- `VPSRAD xmm1 {k1}{z}, xmm2/m128/m32bcst, imm8` (R128): row 26. -/
def execEvexVpsrad128Imm (d : Sys2Proof.VReg) (src : Sys2Proof.FvSource) (imm : Sys2Proof.Byte) (m : Sys2Proof.Masking)
    (s : State) : Result :=
  evexShift .evexVpsrad128Imm 32 128 d m (s.fvSource 32 128 src) (.ok (immCount imm)) s

/-- `VPSRAD ymm1 {k1}{z}, ymm2/m256/m32bcst, imm8` (R129): row 27. -/
def execEvexVpsrad256Imm (d : Sys2Proof.VReg) (src : Sys2Proof.FvSource) (imm : Sys2Proof.Byte) (m : Sys2Proof.Masking)
    (s : State) : Result :=
  evexShift .evexVpsrad256Imm 32 256 d m (s.fvSource 32 256 src) (.ok (immCount imm)) s

/-- `VPSRAD zmm1 {k1}{z}, zmm2/m512/m32bcst, imm8` (R130): row 28. -/
def execEvexVpsrad512Imm (d : Sys2Proof.VReg) (src : Sys2Proof.FvSource) (imm : Sys2Proof.Byte) (m : Sys2Proof.Masking)
    (s : State) : Result :=
  evexShift .evexVpsrad512Imm 32 512 d m (s.fvSource 32 512 src) (.ok (immCount imm)) s

end Sys2Proof.Machine
end

