-- ==== Sys2Proof/Machine/EvexVpsraq.lean ====
section
/-! DEFINITION. The six EVEX forms of VPSRAQ (46_evex_vpsraq.md). -/

namespace Sys2Proof.Machine

/-- `VPSRAQ xmm1 {k1}{z}, xmm2, xmm3/m128` (R131): row 29. -/
def execEvexVpsraq128 (d s1 : Sys2Proof.VReg) (c : Sys2Proof.RegMem Sys2Proof.VReg) (m : Sys2Proof.Masking) (s : State) : Result :=
  evexShift .evexVpsraq128 64 128 d m (.ok (s.readLow s1 128)) (s.countXmm c) s

/-- `VPSRAQ ymm1 {k1}{z}, ymm2, xmm3/m128` (R132): row 30. -/
def execEvexVpsraq256 (d s1 : Sys2Proof.VReg) (c : Sys2Proof.RegMem Sys2Proof.VReg) (m : Sys2Proof.Masking) (s : State) : Result :=
  evexShift .evexVpsraq256 64 256 d m (.ok (s.readLow s1 256)) (s.countXmm c) s

/-- `VPSRAQ zmm1 {k1}{z}, zmm2, xmm3/m128` (R133): row 31. -/
def execEvexVpsraq512 (d s1 : Sys2Proof.VReg) (c : Sys2Proof.RegMem Sys2Proof.VReg) (m : Sys2Proof.Masking) (s : State) : Result :=
  evexShift .evexVpsraq512 64 512 d m (.ok (s.readLow s1 512)) (s.countXmm c) s

/-- `VPSRAQ xmm1 {k1}{z}, xmm2/m128/m64bcst, imm8` (R134): row 32. -/
def execEvexVpsraq128Imm (d : Sys2Proof.VReg) (src : Sys2Proof.FvSource) (imm : Sys2Proof.Byte) (m : Sys2Proof.Masking)
    (s : State) : Result :=
  evexShift .evexVpsraq128Imm 64 128 d m (s.fvSource 64 128 src) (.ok (immCount imm)) s

/-- `VPSRAQ ymm1 {k1}{z}, ymm2/m256/m64bcst, imm8` (R135): row 33. -/
def execEvexVpsraq256Imm (d : Sys2Proof.VReg) (src : Sys2Proof.FvSource) (imm : Sys2Proof.Byte) (m : Sys2Proof.Masking)
    (s : State) : Result :=
  evexShift .evexVpsraq256Imm 64 256 d m (s.fvSource 64 256 src) (.ok (immCount imm)) s

/-- `VPSRAQ zmm1 {k1}{z}, zmm2/m512/m64bcst, imm8` (R136): row 34. -/
def execEvexVpsraq512Imm (d : Sys2Proof.VReg) (src : Sys2Proof.FvSource) (imm : Sys2Proof.Byte) (m : Sys2Proof.Masking)
    (s : State) : Result :=
  evexShift .evexVpsraq512Imm 64 512 d m (s.fvSource 64 512 src) (.ok (immCount imm)) s

end Sys2Proof.Machine
end

