-- ==== Sys2Proof/Machine/EvexVpsraw.lean ====
section
/-! DEFINITION. The six EVEX forms of VPSRAW (44_evex_vpsraw.md). -/

namespace Sys2Proof.Machine

/-- `VPSRAW xmm1 {k1}{z}, xmm2, xmm3/m128` (R119): row 17. -/
def execEvexVpsraw128 (d s1 : Sys2Proof.VReg) (c : Sys2Proof.RegMem Sys2Proof.VReg) (m : Sys2Proof.Masking) (s : State) : Result :=
  evexShift .evexVpsraw128 16 128 d m (.ok (s.readLow s1 128)) (s.countXmm c) s

/-- `VPSRAW ymm1 {k1}{z}, ymm2, xmm3/m128` (R120): row 18. -/
def execEvexVpsraw256 (d s1 : Sys2Proof.VReg) (c : Sys2Proof.RegMem Sys2Proof.VReg) (m : Sys2Proof.Masking) (s : State) : Result :=
  evexShift .evexVpsraw256 16 256 d m (.ok (s.readLow s1 256)) (s.countXmm c) s

/-- `VPSRAW zmm1 {k1}{z}, zmm2, xmm3/m128` (R121): row 19. -/
def execEvexVpsraw512 (d s1 : Sys2Proof.VReg) (c : Sys2Proof.RegMem Sys2Proof.VReg) (m : Sys2Proof.Masking) (s : State) : Result :=
  evexShift .evexVpsraw512 16 512 d m (.ok (s.readLow s1 512)) (s.countXmm c) s

/-- `VPSRAW xmm1 {k1}{z}, xmm2/m128, imm8` (R122): row 20. -/
def execEvexVpsraw128Imm (d : Sys2Proof.VReg) (src : Sys2Proof.RegMem Sys2Proof.VReg) (imm : Sys2Proof.Byte) (m : Sys2Proof.Masking)
    (s : State) : Result :=
  evexShift .evexVpsraw128Imm 16 128 d m (s.source 128 src) (.ok (immCount imm)) s

/-- `VPSRAW ymm1 {k1}{z}, ymm2/m256, imm8` (R123): row 21. -/
def execEvexVpsraw256Imm (d : Sys2Proof.VReg) (src : Sys2Proof.RegMem Sys2Proof.VReg) (imm : Sys2Proof.Byte) (m : Sys2Proof.Masking)
    (s : State) : Result :=
  evexShift .evexVpsraw256Imm 16 256 d m (s.source 256 src) (.ok (immCount imm)) s

/-- `VPSRAW zmm1 {k1}{z}, zmm2/m512, imm8` (R124): row 22. -/
def execEvexVpsraw512Imm (d : Sys2Proof.VReg) (src : Sys2Proof.RegMem Sys2Proof.VReg) (imm : Sys2Proof.Byte) (m : Sys2Proof.Masking)
    (s : State) : Result :=
  evexShift .evexVpsraw512Imm 16 512 d m (s.source 512 src) (.ok (immCount imm)) s

end Sys2Proof.Machine
end

