-- ==== Sys2Proof/Machine/Mmx.lean ====
section
/-! DEFINITION. The four MMX forms (41_mmx_forms.md). -/

namespace Sys2Proof.Machine

/-- `PSRAW mm, mm/m64` (R103): row 1. -/
def execPsrawMm (d : Sys2Proof.MmReg) (c : Sys2Proof.RegMem Sys2Proof.MmReg) (s : State) : Result :=
  mmxShift .psrawMm 16 d (s.countMm c) s

/-- `PSRAW mm, imm8` (R104): row 3. -/
def execPsrawMmImm (d : Sys2Proof.MmReg) (imm : Sys2Proof.Byte) (s : State) : Result :=
  mmxShift .psrawMmImm 16 d (.ok (immCount imm)) s

/-- `PSRAD mm, mm/m64` (R105): row 5. -/
def execPsradMm (d : Sys2Proof.MmReg) (c : Sys2Proof.RegMem Sys2Proof.MmReg) (s : State) : Result :=
  mmxShift .psradMm 32 d (s.countMm c) s

/-- `PSRAD mm, imm8` (R106): row 7. -/
def execPsradMmImm (d : Sys2Proof.MmReg) (imm : Sys2Proof.Byte) (s : State) : Result :=
  mmxShift .psradMmImm 32 d (.ok (immCount imm)) s

end Sys2Proof.Machine
end

