-- ==== Sys2Proof/Machine/Sse2.lean ====
section
/-! DEFINITION. The four legacy SSE2 forms (42_sse2_forms.md). -/

namespace Sys2Proof.Machine

/-- `PSRAW xmm1, xmm2/m128` (R107): row 2. -/
def execPsrawXmm (d : Sys2Proof.VReg) (c : Sys2Proof.RegMem Sys2Proof.VReg) (s : State) : Result :=
  sseShift .psrawXmm 16 d (s.countXmmAligned c) s

/-- `PSRAW xmm1, imm8` (R108): row 4. -/
def execPsrawXmmImm (d : Sys2Proof.VReg) (imm : Sys2Proof.Byte) (s : State) : Result :=
  sseShift .psrawXmmImm 16 d (.ok (immCount imm)) s

/-- `PSRAD xmm1, xmm2/m128` (R109): row 6. -/
def execPsradXmm (d : Sys2Proof.VReg) (c : Sys2Proof.RegMem Sys2Proof.VReg) (s : State) : Result :=
  sseShift .psradXmm 32 d (s.countXmmAligned c) s

/-- `PSRAD xmm1, imm8` (R110): row 8. -/
def execPsradXmmImm (d : Sys2Proof.VReg) (imm : Sys2Proof.Byte) (s : State) : Result :=
  sseShift .psradXmmImm 32 d (.ok (immCount imm)) s

end Sys2Proof.Machine
end

