-- ==== Sys2Proof/Machine/Vex.lean ====
section
/-! DEFINITION. The eight VEX forms (43_vex_forms.md). -/

namespace Sys2Proof.Machine

/-- `VPSRAW xmm1, xmm2, xmm3/m128` (R111): row 9. -/
def execVpsrawXmm (d s1 : Sys2Proof.VReg) (c : Sys2Proof.RegMem Sys2Proof.VReg) (s : State) : Result :=
  vexShift .vpsrawXmm 16 128 d s1 (s.countXmm c) s

/-- `VPSRAW xmm1, xmm2, imm8` (R112): row 10. -/
def execVpsrawXmmImm (d s1 : Sys2Proof.VReg) (imm : Sys2Proof.Byte) (s : State) : Result :=
  vexShift .vpsrawXmmImm 16 128 d s1 (.ok (immCount imm)) s

/-- `VPSRAD xmm1, xmm2, xmm3/m128` (R113): row 11. -/
def execVpsradXmm (d s1 : Sys2Proof.VReg) (c : Sys2Proof.RegMem Sys2Proof.VReg) (s : State) : Result :=
  vexShift .vpsradXmm 32 128 d s1 (s.countXmm c) s

/-- `VPSRAD xmm1, xmm2, imm8` (R114): row 12. -/
def execVpsradXmmImm (d s1 : Sys2Proof.VReg) (imm : Sys2Proof.Byte) (s : State) : Result :=
  vexShift .vpsradXmmImm 32 128 d s1 (.ok (immCount imm)) s

/-- `VPSRAW ymm1, ymm2, xmm3/m128` (R115): row 13. -/
def execVpsrawYmm (d s1 : Sys2Proof.VReg) (c : Sys2Proof.RegMem Sys2Proof.VReg) (s : State) : Result :=
  vexShift .vpsrawYmm 16 256 d s1 (s.countXmm c) s

/-- `VPSRAW ymm1, ymm2, imm8` (R116): row 14. -/
def execVpsrawYmmImm (d s1 : Sys2Proof.VReg) (imm : Sys2Proof.Byte) (s : State) : Result :=
  vexShift .vpsrawYmmImm 16 256 d s1 (.ok (immCount imm)) s

/-- `VPSRAD ymm1, ymm2, xmm3/m128` (R117): row 15. -/
def execVpsradYmm (d s1 : Sys2Proof.VReg) (c : Sys2Proof.RegMem Sys2Proof.VReg) (s : State) : Result :=
  vexShift .vpsradYmm 32 256 d s1 (s.countXmm c) s

/-- `VPSRAD ymm1, ymm2, imm8` (R118): row 16. -/
def execVpsradYmmImm (d s1 : Sys2Proof.VReg) (imm : Sys2Proof.Byte) (s : State) : Result :=
  vexShift .vpsradYmmImm 32 256 d s1 (.ok (immCount imm)) s

end Sys2Proof.Machine
end

