-- ==== Sys2Proof/Machine/Dispatch.lean ====
section
/-! DEFINITION. One arm for each of the 34 forms: the call of its meaning. -/

namespace Sys2Proof.Machine

def exec (i : Instr) (s : State) : Host.Outcome State Fault Refusal :=
  match i with
  | .psrawMm d c => Sys2Proof.Machine.execPsrawMm d c s
  | .psrawXmm d c => Sys2Proof.Machine.execPsrawXmm d c s
  | .psrawMmImm d imm => Sys2Proof.Machine.execPsrawMmImm d imm s
  | .psrawXmmImm d imm => Sys2Proof.Machine.execPsrawXmmImm d imm s
  | .psradMm d c => Sys2Proof.Machine.execPsradMm d c s
  | .psradXmm d c => Sys2Proof.Machine.execPsradXmm d c s
  | .psradMmImm d imm => Sys2Proof.Machine.execPsradMmImm d imm s
  | .psradXmmImm d imm => Sys2Proof.Machine.execPsradXmmImm d imm s
  | .vpsrawXmm d s1 c => Sys2Proof.Machine.execVpsrawXmm d s1 c s
  | .vpsrawXmmImm d s1 imm => Sys2Proof.Machine.execVpsrawXmmImm d s1 imm s
  | .vpsradXmm d s1 c => Sys2Proof.Machine.execVpsradXmm d s1 c s
  | .vpsradXmmImm d s1 imm => Sys2Proof.Machine.execVpsradXmmImm d s1 imm s
  | .vpsrawYmm d s1 c => Sys2Proof.Machine.execVpsrawYmm d s1 c s
  | .vpsrawYmmImm d s1 imm => Sys2Proof.Machine.execVpsrawYmmImm d s1 imm s
  | .vpsradYmm d s1 c => Sys2Proof.Machine.execVpsradYmm d s1 c s
  | .vpsradYmmImm d s1 imm => Sys2Proof.Machine.execVpsradYmmImm d s1 imm s
  | .evexVpsraw128 d s1 c m => Sys2Proof.Machine.execEvexVpsraw128 d s1 c m s
  | .evexVpsraw256 d s1 c m => Sys2Proof.Machine.execEvexVpsraw256 d s1 c m s
  | .evexVpsraw512 d s1 c m => Sys2Proof.Machine.execEvexVpsraw512 d s1 c m s
  | .evexVpsraw128Imm d src imm m => Sys2Proof.Machine.execEvexVpsraw128Imm d src imm m s
  | .evexVpsraw256Imm d src imm m => Sys2Proof.Machine.execEvexVpsraw256Imm d src imm m s
  | .evexVpsraw512Imm d src imm m => Sys2Proof.Machine.execEvexVpsraw512Imm d src imm m s
  | .evexVpsrad128 d s1 c m => Sys2Proof.Machine.execEvexVpsrad128 d s1 c m s
  | .evexVpsrad256 d s1 c m => Sys2Proof.Machine.execEvexVpsrad256 d s1 c m s
  | .evexVpsrad512 d s1 c m => Sys2Proof.Machine.execEvexVpsrad512 d s1 c m s
  | .evexVpsrad128Imm d src imm m => Sys2Proof.Machine.execEvexVpsrad128Imm d src imm m s
  | .evexVpsrad256Imm d src imm m => Sys2Proof.Machine.execEvexVpsrad256Imm d src imm m s
  | .evexVpsrad512Imm d src imm m => Sys2Proof.Machine.execEvexVpsrad512Imm d src imm m s
  | .evexVpsraq128 d s1 c m => Sys2Proof.Machine.execEvexVpsraq128 d s1 c m s
  | .evexVpsraq256 d s1 c m => Sys2Proof.Machine.execEvexVpsraq256 d s1 c m s
  | .evexVpsraq512 d s1 c m => Sys2Proof.Machine.execEvexVpsraq512 d s1 c m s
  | .evexVpsraq128Imm d src imm m => Sys2Proof.Machine.execEvexVpsraq128Imm d src imm m s
  | .evexVpsraq256Imm d src imm m => Sys2Proof.Machine.execEvexVpsraq256Imm d src imm m s
  | .evexVpsraq512Imm d src imm m => Sys2Proof.Machine.execEvexVpsraq512Imm d src imm m s

end Sys2Proof.Machine
end

