-- ==== Sys2Proof/Machine/Step.lean ====
section
/-! DEFINITION. One step: fetch and decode the instruction at `pc`, latch its length, execute it. -/

namespace Sys2Proof.Machine

/-- One instruction of the sequential machine (20_memory.md R48, 70_reset_and_hazards.md R168). -/
def step (s : State) : Host.Outcome State Fault Refusal :=
  match s.fetch with
  | .run i s' => exec i s'
  | .stop r => r

/-- The state with the instruction of an opcode-table word (a decode key, 30_encoding.md R73) at `pc`: its bytes, the fields
the key leaves out at 0, stored and made readable. A word no encoding has leaves the state as it is. -/
def State.withFetchWord (s : State) (_nbits w : Nat) : State :=
  match Sys2Proof.keyBytes w with
  | none => s
  | some bytes => s.placeAtPc bytes

end Sys2Proof.Machine
end

