-- ==== Sys2Proof/Safety.lean ====
section
/-! DEFINITION. The terms in which claims speak: what a form needs to complete, the operand values the rules name, what an
instruction changes and leaves, and the invariant of the machine. Nothing here is used by the machine itself. -/

namespace Sys2Proof

/-- A destination operand: an MMX or a vector register. No form writes anything else but `pc` (20_memory.md R40). -/
inductive Dest where
  | mm (d : MmReg)
  | vec (d : VReg)
deriving DecidableEq, Repr

/-- The destination operand, the first of the assembler syntax (10_state.md R21, 30_encoding.md R70). -/
def Instr.dest : Instr → Dest
  | .psrawMm d _ | .psradMm d _ | .psrawMmImm d _ | .psradMmImm d _ => .mm d
  | .psrawXmm d _ | .psradXmm d _ | .psrawXmmImm d _ | .psradXmmImm d _ => .vec d
  | .vpsrawXmm d _ _ | .vpsradXmm d _ _ | .vpsrawYmm d _ _ | .vpsradYmm d _ _ | .vpsrawXmmImm d _ _
  | .vpsradXmmImm d _ _ | .vpsrawYmmImm d _ _ | .vpsradYmmImm d _ _ => .vec d
  | .evexVpsraw128 d _ _ _ | .evexVpsraw256 d _ _ _ | .evexVpsraw512 d _ _ _ | .evexVpsrad128 d _ _ _
  | .evexVpsrad256 d _ _ _ | .evexVpsrad512 d _ _ _ | .evexVpsraq128 d _ _ _ | .evexVpsraq256 d _ _ _
  | .evexVpsraq512 d _ _ _ | .evexVpsraw128Imm d _ _ _ | .evexVpsraw256Imm d _ _ _ | .evexVpsraw512Imm d _ _ _
  | .evexVpsrad128Imm d _ _ _ | .evexVpsrad256Imm d _ _ _ | .evexVpsrad512Imm d _ _ _
  | .evexVpsraq128Imm d _ _ _ | .evexVpsraq256Imm d _ _ _ | .evexVpsraq512Imm d _ _ _ => .vec d

/-- The masking of an EVEX form; the other classes have none (30_encoding.md R68). -/
def Instr.masking : Instr → Masking
  | .psrawMm _ _ | .psradMm _ _ | .psrawMmImm _ _ | .psradMmImm _ _ | .psrawXmm _ _ | .psradXmm _ _
  | .psrawXmmImm _ _ | .psradXmmImm _ _ => .unmasked
  | .vpsrawXmm _ _ _ | .vpsradXmm _ _ _ | .vpsrawYmm _ _ _ | .vpsradYmm _ _ _ | .vpsrawXmmImm _ _ _
  | .vpsradXmmImm _ _ _ | .vpsrawYmmImm _ _ _ | .vpsradYmmImm _ _ _ => .unmasked
  | .evexVpsraw128 _ _ _ m | .evexVpsraw256 _ _ _ m | .evexVpsraw512 _ _ _ m | .evexVpsrad128 _ _ _ m
  | .evexVpsrad256 _ _ _ m | .evexVpsrad512 _ _ _ m | .evexVpsraq128 _ _ _ m | .evexVpsraq256 _ _ _ m
  | .evexVpsraq512 _ _ _ m | .evexVpsraw128Imm _ _ _ m | .evexVpsraw256Imm _ _ _ m | .evexVpsraw512Imm _ _ _ m
  | .evexVpsrad128Imm _ _ _ m | .evexVpsrad256Imm _ _ _ m | .evexVpsrad512Imm _ _ _ m
  | .evexVpsraq128Imm _ _ _ m | .evexVpsraq256Imm _ _ _ m | .evexVpsraq512Imm _ _ _ m => m

/-- The number of elements of width `w` in `VL` bits: `KL` of an EVEX form (40_shift_primitives.md R100). -/
def Form.elements (f : Form) : Nat := f.vl / f.info.elem

end Sys2Proof

namespace Sys2Proof.Machine

/-- The form may execute and the instruction ends inside the address space (30_encoding.md R76, 60_exceptions.md R143,
R145, 10_state.md R25). -/
abbrev State.Ready (s : State) (f : Sys2Proof.Form) : Prop :=
  s.canExecute f = true ∧ s.pc.toNat + s.ilen < s.addrLimit

/-- Every one of the `n` bytes from `a` is readable (20_memory.md R47). -/
abbrev State.RangeReadable (s : State) (a n : Nat) : Prop := ∀ k, k < n → s.readable (a + k) = true

/-- An operand that is a register, or `n` readable bytes of memory. -/
abbrev State.OperandReadable {α : Type} (s : State) (n : Nat) : Sys2Proof.RegMem α → Prop
  | .reg _ => True
  | .mem m => s.RangeReadable (s.ea m) n

/-- A memory operand, if it is one, is 16-byte aligned (20_memory.md R41 (a)). -/
abbrev State.OperandAligned {α : Type} (s : State) : Sys2Proof.RegMem α → Prop
  | .reg _ => True
  | .mem m => s.ea m % 16 = 0

/-- The source of an FVI form is a register or readable memory: `n / 8` bytes, or one element of `w / 8` bytes
(20_memory.md R36, R38). -/
abbrev State.FvReadable (s : State) (w n : Nat) : Sys2Proof.FvSource → Prop
  | .reg _ => True
  | .mem m => s.RangeReadable (s.ea m) (n / 8)
  | .bcst m => s.RangeReadable (s.ea m) (w / 8)

/-- Every operand of the instruction can be read: a memory operand's bytes are readable, at its size (20_memory.md R36, R38),
and the legacy SSE2 forms' is aligned (R41 (a)). -/
abbrev State.OperandsReady (s : State) : Sys2Proof.Instr → Prop
  | .psrawMm _ c | .psradMm _ c => s.OperandReadable 8 c
  | .psrawXmm _ c | .psradXmm _ c => s.OperandReadable 16 c ∧ s.OperandAligned c
  | .vpsrawXmm _ _ c | .vpsradXmm _ _ c | .vpsrawYmm _ _ c | .vpsradYmm _ _ c => s.OperandReadable 16 c
  | .evexVpsraw128 _ _ c _ | .evexVpsraw256 _ _ c _ | .evexVpsraw512 _ _ c _ | .evexVpsrad128 _ _ c _
  | .evexVpsrad256 _ _ c _ | .evexVpsrad512 _ _ c _ | .evexVpsraq128 _ _ c _ | .evexVpsraq256 _ _ c _
  | .evexVpsraq512 _ _ c _ => s.OperandReadable 16 c
  | .evexVpsraw128Imm _ src _ _ => s.OperandReadable (128 / 8) src
  | .evexVpsraw256Imm _ src _ _ => s.OperandReadable (256 / 8) src
  | .evexVpsraw512Imm _ src _ _ => s.OperandReadable (512 / 8) src
  | .evexVpsrad128Imm _ src _ _ => s.FvReadable 32 128 src
  | .evexVpsrad256Imm _ src _ _ => s.FvReadable 32 256 src
  | .evexVpsrad512Imm _ src _ _ => s.FvReadable 32 512 src
  | .evexVpsraq128Imm _ src _ _ => s.FvReadable 64 128 src
  | .evexVpsraq256Imm _ src _ _ => s.FvReadable 64 256 src
  | .evexVpsraq512Imm _ src _ _ => s.FvReadable 64 512 src
  | .psrawMmImm _ _ | .psradMmImm _ _ | .psrawXmmImm _ _ | .psradXmmImm _ _ => True
  | .vpsrawXmmImm _ _ _ | .vpsradXmmImm _ _ _ | .vpsrawYmmImm _ _ _ | .vpsradYmmImm _ _ _ => True

/-- The count an MMX operand holds: the register, or the 8 bytes of memory (40_shift_primitives.md R89). -/
def State.mmCount (s : State) : Sys2Proof.RegMem Sys2Proof.MmReg → Nat
  | .reg r => (s.readMm r).toNat
  | .mem m => (s.readLE (s.ea m) 8).toNat

/-- The count a 128-bit operand holds: the low 64 bits of the register, or the 8 bytes at the lowest addresses
(40_shift_primitives.md R88, 20_memory.md R34). -/
def State.xmmCount (s : State) : Sys2Proof.RegMem Sys2Proof.VReg → Nat
  | .reg r => ((s.readV r).extractLsb' 0 64).toNat
  | .mem m => (s.readLE (s.ea m) 8).toNat

/-- Element `j` of a data source that is a register or a full memory vector: in memory it is the `w / 8` bytes at
`ea + j * (w / 8)` (00_scope.md R8, 20_memory.md R34). -/
def State.sourceElem (s : State) (w : Nat) (src : Sys2Proof.RegMem Sys2Proof.VReg) (j : Nat) : BitVec w :=
  match src with
  | .reg r => elem w (s.readV r) j
  | .mem m => (s.readLE (s.ea m + w / 8 * j) (w / 8)).setWidth w

/-- Element `j` of the data source of an FVI form: a broadcast source has the same element everywhere (20_memory.md R38). -/
def State.fvElem (s : State) (w : Nat) (src : Sys2Proof.FvSource) (j : Nat) : BitVec w :=
  match src with
  | .reg r => elem w (s.readV r) j
  | .mem m => (s.readLE (s.ea m + w / 8 * j) (w / 8)).setWidth w
  | .bcst m => (s.readLE (s.ea m) (w / 8)).setWidth w

/-- Whether the masking selects element `j` (40_shift_primitives.md R100). -/
def State.selects (s : State) (m : Sys2Proof.Masking) (j : Nat) : Bool :=
  match m with
  | .unmasked => true
  | .merging k => (s.readK k).getLsbD j
  | .zeroing k => (s.readK k).getLsbD j

/-- Completion as every form has it: a next state with `pc` moved past the instruction, of which `P` holds. -/
def Completes (i : Sys2Proof.Instr) (s : State) (P : State → Prop) : Prop :=
  ∃ t, exec i s = .next t ∧ t.pc = s.pc + BitVec.ofNat 64 s.ilen ∧ P t

/-- The frame of a form with an MMX destination: every other MMX register, every vector register, opmask register and
general register, the parameters, the latched length and every byte of memory are as before. -/
def OnlyMm (d : Sys2Proof.MmReg) (s t : State) : Prop :=
  (∀ r, r ≠ d → t.readMm r = s.readMm r) ∧ (∀ r, t.readV r = s.readV r) ∧ (∀ r, t.k.get r = s.k.get r) ∧
  (∀ r, t.readGpr r = s.readGpr r) ∧ t.launch = s.launch ∧ t.ilen = s.ilen ∧ ∀ a, t.mem.read a = s.mem.read a

/-- The frame of a form with a vector destination. -/
def OnlyVec (d : Sys2Proof.VReg) (s t : State) : Prop :=
  (∀ r, r ≠ d → t.readV r = s.readV r) ∧ (∀ r, t.readMm r = s.readMm r) ∧ (∀ r, t.k.get r = s.k.get r) ∧
  (∀ r, t.readGpr r = s.readGpr r) ∧ t.launch = s.launch ∧ t.ilen = s.ilen ∧ ∀ a, t.mem.read a = s.mem.read a

/-- An MMX form's result: every element of width `w` of `MM[d]` shifted by the clamped count. -/
def MmShifted (w : Nat) (d : Sys2Proof.MmReg) (c : Nat) (s t : State) : Prop :=
  ∀ j, j < 64 / w → elem w (t.readMm d) j = sra (elem w (s.readMm d) j) (min c w)

/-- A legacy SSE2 form's result: every element of bits 127:0 shifted, the bits above unmodified. -/
def XmmShifted (w : Nat) (d : Sys2Proof.VReg) (c : Nat) (s t : State) : Prop :=
  (∀ j, j < 128 / w → elem w (t.readV d) j = sra (elem w (s.readV d) j) (min c w)) ∧
  t.readV d >>> 128 = s.readV d >>> 128

/-- A VEX form's result: every element of bits `n-1:0` is the source's, shifted; the bits above are zero. -/
def VexShifted (w n : Nat) (d s1 : Sys2Proof.VReg) (c : Nat) (s t : State) : Prop :=
  (∀ j, j < n / w → elem w (t.readV d) j = sra (elem w (s.readV s1) j) (min c w)) ∧ t.readV d >>> n = 0

/-- An EVEX form's result, `x j` being element `j` of its source: a selected element is the source's, shifted; one not
selected is zero under zeroing-masking and the old one under merging-masking; the bits above `n` are zero. -/
def EvexShifted (w n : Nat) (d : Sys2Proof.VReg) (m : Sys2Proof.Masking) (x : Nat → BitVec w) (c : Nat) (s t : State) :
    Prop :=
  (∀ j, j < n / w → elem w (t.readV d) j =
    if s.selects m j then sra (x j) (min c w) else if m.z then 0 else elem w (s.readV d) j) ∧ t.readV d >>> n = 0

/-- The `pc` a fault records. -/
def Fault.pc : Fault → BitVec 64
  | .invalidOpcode pc => pc
  | .generalProtection _ pc => pc
  | .memory _ pc => pc

/-- Decision D13: `enabled` of an EVEX form implies `enabled` of every VEX form, which implies `enabled` of every legacy
SSE form. -/
def enabledNested (l : Sys2Proof.Launch) : Bool :=
  let on (c : Sys2Proof.EncClass) (all : Bool) : Bool :=
    let fs := Sys2Proof.opcodeTable.filter fun r => r.form.info.cls == c
    if all then fs.all (fun r => l.enabled.get r.form.info.row) else fs.any (fun r => l.enabled.get r.form.info.row)
  (!on .evex false || on .vex true) && (!on .vex false || on .sse true)

/-- The invariant: the parameters agree with each other (decisions D2, D13), memory has its canonical form, `pc` is an
address, and no vector register has a bit at or above `MAX_VL` (10_state.md R16, R24). -/
structure State.Inv (s : State) : Prop where
  features : s.launch.featuresConsistent = true
  enabled : enabledNested s.launch = true
  memory : s.mem.wf = true
  pc : s.pc.toNat < s.addrLimit
  vectors : ∀ r, s.readV r >>> s.launch.maxVl.bits = 0

/-- What a launch gave and no form writes is as in the launch state `c`: the parameters, memory, the opmask and the general
registers (00_scope.md R6, 20_memory.md R40, 10_state.md R20, R22). -/
structure State.AsLaunched (c s : State) : Prop where
  launch : s.launch = c.launch
  memory : s.mem = c.mem
  masks : s.k = c.k
  generals : s.gpr = c.gpr

end Sys2Proof.Machine
end

