-- ==== Sys2Proof/Certificates/Slice0/Obligations.lean ====
section
/-! DEFINITION. The statements about this machine for the provers, in the terms of Safety.lean. None is about a program. -/

open Sys2Proof Sys2Proof.Machine

/-- The element shift sra_w: its three cases, and floor(signed(e) / 2^c) (R85). -/
def Obligations.ElementShiftIsFloorDivision : Prop :=
  ∀ w, w = 16 ∨ w = 32 ∨ w = 64 → ∀ (e : BitVec w) (c : Nat),
    (w ≤ c → ∀ i, i < w → (sra e c).getLsbD i = e.getLsbD (w - 1)) ∧
    (0 < c → c < w → ∀ i, i < w → (sra e c).getLsbD i = if i < w - c then e.getLsbD (i + c) else e.getLsbD (w - 1)) ∧
    (c = 0 → sra e c = e) ∧
    (sra e c).toInt = e.toInt / 2 ^ c

/-- A count above w - 1 makes each element all zeros or all ones by its sign (R86).
That SignBit fills the element is the spec's decision D27 (log entry 15). -/
def Obligations.LargeCountFillsWithTheSign : Prop :=
  ∀ w, w = 16 ∨ w = 32 ∨ w = 64 → ∀ n, n = 64 ∨ n = 128 ∨ n = 256 ∨ n = 512 →
    ∀ (s : BitVec n) (c : BitVec 64) (j : Nat), j < n / w → w - 1 < c.toNat →
      elem w (shiftVec w n s c) j = if (elem w s j).toInt < 0 then BitVec.allOnes w else 0

/-- The immediate count is imm8 zero-extended, and sign-extending it would give the same result (R87).
That the immediate is zero-extended is the spec's decision D7 (log entry 14). -/
def Obligations.ImmediateWideningCannotMatter : Prop :=
  ∀ imm : BitVec 8, (immCount imm).toNat = imm.toNat ∧
    ∀ w, w = 16 ∨ w = 32 ∨ w = 64 → ∀ n, n = 64 ∨ n = 128 ∨ n = 256 ∨ n = 512 → ∀ s : BitVec n,
      shiftVec w n s (immCount imm) = shiftVec w n s (imm.signExtend 64)

/-- A 512-bit word or doubleword shift is two 256-bit shifts by the same count (R99, R92, R94).
That the two halves are one shift_vec is the spec's derivation in R99. -/
def Obligations.WideShiftIsTwoHalves : Prop :=
  ∀ w, w = 16 ∨ w = 32 → ∀ (s : BitVec 512) (c : BitVec 64),
    shiftVec w 512 s c =
      (shiftVec w 256 (s.extractLsb' 256 256) c ++ shiftVec w 256 (s.extractLsb' 0 256) c : BitVec (256 + 256))

/-- mask_apply: selected elements from the result, the others old or zero, high mask bits ignored (R100). -/
def Obligations.MaskApplySelectsPerElement : Prop :=
  ∀ w, w = 16 ∨ w = 32 ∨ w = 64 → ∀ n, n = 128 ∨ n = 256 ∨ n = 512 → ∀ (r old : BitVec n) (m : BitVec 64) (z : Bool),
    (∀ j, j < n / w →
      (m.getLsbD j = true → elem w (maskApply w n r old m z) j = elem w r j) ∧
      (m.getLsbD j = false → z = false → elem w (maskApply w n r old m z) j = elem w old j) ∧
      (m.getLsbD j = false → z = true → elem w (maskApply w n r old m z) j = 0)) ∧
    ∀ m' : BitVec 64, (∀ j, j < n / w → m'.getLsbD j = m.getLsbD j) → maskApply w n r old m' z = maskApply w n r old m z

/-- MemRead assembles its bytes with the lowest address least significant (R34).
The byte order is the spec's decision D8, from general knowledge (log entry 12). -/
def Obligations.MemReadIsLittleEndian : Prop :=
  ∀ (s : State) (a n : Nat), s.RangeReadable a n →
    ∃ v, s.memRead a n = .ok v ∧ ∀ k, k < n → v.extractLsb' (8 * k) 8 = s.mem.read (a + k)

/-- MemRead of a run with an unreadable byte is the memory fault at the lowest one (R47, R145).
The fault kinds are the spec's decision D17 (log entry 18); a byte past the top counts as unreadable, the model's choice (log entry 9). -/
def Obligations.MemReadFaultsAtTheLowestUnreadableByte : Prop :=
  ∀ (s : State) (a n : Nat), ¬ s.RangeReadable a n →
    ∃ u, s.memRead a n = .error (.memory u) ∧ a ≤ u ∧ u < a + n ∧ s.readable u = false ∧
      ∀ b, a ≤ b → b < u → s.readable b = true

/-- The effective address is base + index * scale + disp, or pc + len + disp32, truncated (R46).
The formula is the spec's decision D10, from general knowledge (log entry 21). -/
def Obligations.EffectiveAddressIsTruncatedSum : Prop :=
  ∀ (s : State) (base : Option GReg) (index : Option GReg) (sc : Scale) (disp : BitVec 32),
    let b : Int := match base with | none => 0 | some r => ((s.readGpr r).toNat : Int)
    let x : Int := match index with | none => 0 | some r => ((s.readGpr r).toNat : Int)
    let f : Int := match sc with | .s1 => 1 | .s2 => 2 | .s4 => 4 | .s8 => 8
    (s.ea (.sum base (index.map fun r => (r, sc)) disp) : Int) = (b + x * f + disp.toInt) % 2 ^ s.addrBits ∧
    (s.ea (.ripRel disp) : Int) = ((s.pc.toNat : Int) + s.ilen + disp.toInt) % 2 ^ s.addrBits

/-- PSRAW and PSRAD mm, mm/m64 complete with every element of MM[d] shifted, and nothing else changed (R103, R105, R98, R102, R25). -/
def Obligations.MmxVariableCountShifts : Prop :=
  ∀ (s : State) (d : MmReg) (c : RegMem MmReg), s.OperandReadable 8 c →
    (s.Ready .psrawMm → Completes (.psrawMm d c) s fun t => MmShifted 16 d (s.mmCount c) s t ∧ OnlyMm d s t) ∧
    (s.Ready .psradMm → Completes (.psradMm d c) s fun t => MmShifted 32 d (s.mmCount c) s t ∧ OnlyMm d s t)

/-- PSRAW and PSRAD mm, imm8 complete with every element of MM[d] shifted, and nothing else changed (R104, R106, R98, R25). -/
def Obligations.MmxImmediateCountShifts : Prop :=
  ∀ (s : State) (d : MmReg) (imm : Byte),
    (s.Ready .psrawMmImm → Completes (.psrawMmImm d imm) s fun t => MmShifted 16 d imm.toNat s t ∧ OnlyMm d s t) ∧
    (s.Ready .psradMmImm → Completes (.psradMmImm d imm) s fun t => MmShifted 32 d imm.toNat s t ∧ OnlyMm d s t)

/-- PSRAW and PSRAD xmm1, xmm2/m128 complete: low 128 bits shifted, bits above 127 unmodified (R107, R109, R88, R101, R25). -/
def Obligations.Sse2VariableCountShifts : Prop :=
  ∀ (s : State) (d : VReg) (c : RegMem VReg), s.OperandReadable 16 c → s.OperandAligned c →
    (s.Ready .psrawXmm → Completes (.psrawXmm d c) s fun t => XmmShifted 16 d (s.xmmCount c) s t ∧ OnlyVec d s t) ∧
    (s.Ready .psradXmm → Completes (.psradXmm d c) s fun t => XmmShifted 32 d (s.xmmCount c) s t ∧ OnlyVec d s t)

/-- PSRAW and PSRAD xmm1, imm8 complete: low 128 bits shifted, bits above 127 unmodified (R108, R110, R101, R25). -/
def Obligations.Sse2ImmediateCountShifts : Prop :=
  ∀ (s : State) (d : VReg) (imm : Byte),
    (s.Ready .psrawXmmImm → Completes (.psrawXmmImm d imm) s fun t => XmmShifted 16 d imm.toNat s t ∧ OnlyVec d s t) ∧
    (s.Ready .psradXmmImm → Completes (.psradXmmImm d imm) s fun t => XmmShifted 32 d imm.toNat s t ∧ OnlyVec d s t)

/-- The four VEX variable-count forms complete: V[d] is V[s1] shifted, zero above VL (R111, R113, R115, R117, R101, R25). -/
def Obligations.VexVariableCountShifts : Prop :=
  ∀ (s : State) (d s1 : VReg) (c : RegMem VReg), s.OperandReadable 16 c →
    (s.Ready .vpsrawXmm → Completes (.vpsrawXmm d s1 c) s fun t => VexShifted 16 128 d s1 (s.xmmCount c) s t ∧ OnlyVec d s t) ∧
    (s.Ready .vpsradXmm → Completes (.vpsradXmm d s1 c) s fun t => VexShifted 32 128 d s1 (s.xmmCount c) s t ∧ OnlyVec d s t) ∧
    (s.Ready .vpsrawYmm → Completes (.vpsrawYmm d s1 c) s fun t => VexShifted 16 256 d s1 (s.xmmCount c) s t ∧ OnlyVec d s t) ∧
    (s.Ready .vpsradYmm → Completes (.vpsradYmm d s1 c) s fun t => VexShifted 32 256 d s1 (s.xmmCount c) s t ∧ OnlyVec d s t)

/-- The four VEX immediate-count forms complete: V[d] is V[s1] shifted, zero above VL (R112, R114, R116, R118, R101, R25). -/
def Obligations.VexImmediateCountShifts : Prop :=
  ∀ (s : State) (d s1 : VReg) (imm : Byte),
    (s.Ready .vpsrawXmmImm → Completes (.vpsrawXmmImm d s1 imm) s fun t => VexShifted 16 128 d s1 imm.toNat s t ∧ OnlyVec d s t) ∧
    (s.Ready .vpsradXmmImm → Completes (.vpsradXmmImm d s1 imm) s fun t => VexShifted 32 128 d s1 imm.toNat s t ∧ OnlyVec d s t) ∧
    (s.Ready .vpsrawYmmImm → Completes (.vpsrawYmmImm d s1 imm) s fun t => VexShifted 16 256 d s1 imm.toNat s t ∧ OnlyVec d s t) ∧
    (s.Ready .vpsradYmmImm → Completes (.vpsradYmmImm d s1 imm) s fun t => VexShifted 32 256 d s1 imm.toNat s t ∧ OnlyVec d s t)

/-- EVEX VPSRAW with a variable count completes at 128, 256 and 512 bits under its mask (R119, R120, R121, R100, R101, R88, R25). -/
def Obligations.EvexVpsrawVariableCountShifts : Prop :=
  ∀ (s : State) (d s1 : VReg) (c : RegMem VReg) (m : Masking), s.OperandReadable 16 c →
    (s.Ready .evexVpsraw128 → Completes (.evexVpsraw128 d s1 c m) s fun t =>
      EvexShifted 16 128 d m (elem 16 (s.readV s1)) (s.xmmCount c) s t ∧ OnlyVec d s t) ∧
    (s.Ready .evexVpsraw256 → Completes (.evexVpsraw256 d s1 c m) s fun t =>
      EvexShifted 16 256 d m (elem 16 (s.readV s1)) (s.xmmCount c) s t ∧ OnlyVec d s t) ∧
    (s.Ready .evexVpsraw512 → Completes (.evexVpsraw512 d s1 c m) s fun t =>
      EvexShifted 16 512 d m (elem 16 (s.readV s1)) (s.xmmCount c) s t ∧ OnlyVec d s t)

/-- EVEX VPSRAD with a variable count completes at 128, 256 and 512 bits under its mask (R125, R126, R127, R100, R101, R88, R25). -/
def Obligations.EvexVpsradVariableCountShifts : Prop :=
  ∀ (s : State) (d s1 : VReg) (c : RegMem VReg) (m : Masking), s.OperandReadable 16 c →
    (s.Ready .evexVpsrad128 → Completes (.evexVpsrad128 d s1 c m) s fun t =>
      EvexShifted 32 128 d m (elem 32 (s.readV s1)) (s.xmmCount c) s t ∧ OnlyVec d s t) ∧
    (s.Ready .evexVpsrad256 → Completes (.evexVpsrad256 d s1 c m) s fun t =>
      EvexShifted 32 256 d m (elem 32 (s.readV s1)) (s.xmmCount c) s t ∧ OnlyVec d s t) ∧
    (s.Ready .evexVpsrad512 → Completes (.evexVpsrad512 d s1 c m) s fun t =>
      EvexShifted 32 512 d m (elem 32 (s.readV s1)) (s.xmmCount c) s t ∧ OnlyVec d s t)

/-- EVEX VPSRAQ with a variable count completes at 128, 256 and 512 bits under its mask (R131, R132, R133, R100, R101, R88, R25). -/
def Obligations.EvexVpsraqVariableCountShifts : Prop :=
  ∀ (s : State) (d s1 : VReg) (c : RegMem VReg) (m : Masking), s.OperandReadable 16 c →
    (s.Ready .evexVpsraq128 → Completes (.evexVpsraq128 d s1 c m) s fun t =>
      EvexShifted 64 128 d m (elem 64 (s.readV s1)) (s.xmmCount c) s t ∧ OnlyVec d s t) ∧
    (s.Ready .evexVpsraq256 → Completes (.evexVpsraq256 d s1 c m) s fun t =>
      EvexShifted 64 256 d m (elem 64 (s.readV s1)) (s.xmmCount c) s t ∧ OnlyVec d s t) ∧
    (s.Ready .evexVpsraq512 → Completes (.evexVpsraq512 d s1 c m) s fun t =>
      EvexShifted 64 512 d m (elem 64 (s.readV s1)) (s.xmmCount c) s t ∧ OnlyVec d s t)

/-- EVEX VPSRAW with an immediate completes from a register or a full memory vector under its mask (R122, R123, R124, R100, R101, R36, R25). -/
def Obligations.EvexVpsrawImmediateCountShifts : Prop :=
  ∀ (s : State) (d : VReg) (src : RegMem VReg) (imm : Byte) (m : Masking),
    (s.OperandReadable (128 / 8) src → s.Ready .evexVpsraw128Imm → Completes (.evexVpsraw128Imm d src imm m) s fun t =>
      EvexShifted 16 128 d m (s.sourceElem 16 src) imm.toNat s t ∧ OnlyVec d s t) ∧
    (s.OperandReadable (256 / 8) src → s.Ready .evexVpsraw256Imm → Completes (.evexVpsraw256Imm d src imm m) s fun t =>
      EvexShifted 16 256 d m (s.sourceElem 16 src) imm.toNat s t ∧ OnlyVec d s t) ∧
    (s.OperandReadable (512 / 8) src → s.Ready .evexVpsraw512Imm → Completes (.evexVpsraw512Imm d src imm m) s fun t =>
      EvexShifted 16 512 d m (s.sourceElem 16 src) imm.toNat s t ∧ OnlyVec d s t)

/-- EVEX VPSRAD with an immediate completes from register, full memory vector or broadcast element (R128, R129, R130, R38, R100, R101, R25). -/
def Obligations.EvexVpsradImmediateCountShifts : Prop :=
  ∀ (s : State) (d : VReg) (src : FvSource) (imm : Byte) (m : Masking),
    (s.FvReadable 32 128 src → s.Ready .evexVpsrad128Imm → Completes (.evexVpsrad128Imm d src imm m) s fun t =>
      EvexShifted 32 128 d m (s.fvElem 32 src) imm.toNat s t ∧ OnlyVec d s t) ∧
    (s.FvReadable 32 256 src → s.Ready .evexVpsrad256Imm → Completes (.evexVpsrad256Imm d src imm m) s fun t =>
      EvexShifted 32 256 d m (s.fvElem 32 src) imm.toNat s t ∧ OnlyVec d s t) ∧
    (s.FvReadable 32 512 src → s.Ready .evexVpsrad512Imm → Completes (.evexVpsrad512Imm d src imm m) s fun t =>
      EvexShifted 32 512 d m (s.fvElem 32 src) imm.toNat s t ∧ OnlyVec d s t)

/-- EVEX VPSRAQ with an immediate completes from register, full memory vector or broadcast element (R134, R135, R136, R38, R100, R101, R25). -/
def Obligations.EvexVpsraqImmediateCountShifts : Prop :=
  ∀ (s : State) (d : VReg) (src : FvSource) (imm : Byte) (m : Masking),
    (s.FvReadable 64 128 src → s.Ready .evexVpsraq128Imm → Completes (.evexVpsraq128Imm d src imm m) s fun t =>
      EvexShifted 64 128 d m (s.fvElem 64 src) imm.toNat s t ∧ OnlyVec d s t) ∧
    (s.FvReadable 64 256 src → s.Ready .evexVpsraq256Imm → Completes (.evexVpsraq256Imm d src imm m) s fun t =>
      EvexShifted 64 256 d m (s.fvElem 64 src) imm.toNat s t ∧ OnlyVec d s t) ∧
    (s.FvReadable 64 512 src → s.Ready .evexVpsraq512Imm → Completes (.evexVpsraq512Imm d src imm m) s fun t =>
      EvexShifted 64 512 d m (s.fvElem 64 src) imm.toNat s t ∧ OnlyVec d s t)

/-- A form whose row names a CPUID flag the processor lacks raises the invalid-opcode fault (R76, R145, R147).
That the fault follows is general knowledge in R76 (log entry 16); so are the flags of rows 20, 21 and 23 to 33 (log entry 17). -/
def Obligations.MissingFeatureRaisesInvalidOpcode : Prop :=
  ∀ (i : Instr) (s : State), (∃ f ∈ i.form.needs, s.launch.features.has f = false) →
    exec i s = .fault (.invalidOpcode s.pc)

/-- A form for which enabled(form) is false raises the invalid-opcode fault (R143).
The parameter is the spec's decision D13 (log entry 16). -/
def Obligations.DisabledFormRaisesInvalidOpcode : Prop :=
  ∀ (i : Instr) (s : State), s.launch.enabled.get i.form.info.row = false → exec i s = .fault (.invalidOpcode s.pc)

/-- A form whose VL is above MAX_VL raises the invalid-opcode fault (R145, 92_eei_decisions.md D2).
The spec's decision D2 (log entry 16). -/
def Obligations.LengthBeyondMaxVlRaisesInvalidOpcode : Prop :=
  ∀ (i : Instr) (s : State), s.launch.maxVl.bits < i.form.vl → exec i s = .fault (.invalidOpcode s.pc)

/-- A legacy SSE2 form whose m128 count is not 16-byte aligned raises general protection (R41, R107, R109, R145, R147).
The alignment rule is the spec's decision D9, from general knowledge (log entry 13). -/
def Obligations.MisalignedSse2CountRaisesGeneralProtection : Prop :=
  ∀ (s : State) (d : VReg) (m : MemRef), s.ea m % 16 ≠ 0 →
    (s.canExecute .psrawXmm = true → exec (.psrawXmm d (.mem m)) s = .fault (.generalProtection 0 s.pc)) ∧
    (s.canExecute .psradXmm = true → exec (.psradXmm d (.mem m)) s = .fault (.generalProtection 0 s.pc))

/-- A count in memory is read whole, whatever the mask: an unreadable byte of it is the memory fault at the lowest one, once the
legacy SSE2 alignment is met (R37, R39, R41, R47, R145, R147).
That all 16 bytes are read is the spec's derivation in R37 (log entry 12), the alignment rule its decision D9 (log entry 13),
the fault its decisions D12, D17 and D18 (log entries 18 and 26), that no mask suppresses it D24 (log entry 19); that a byte past
the top counts as unreadable is the model's choice (log entry 9). -/
def Obligations.UnreadableCountRaisesMemoryFault : Prop :=
  ∀ (s : State) (m : MemRef) (u : Nat), s.ea m ≤ u → s.readable u = false →
    (∀ b, s.ea m ≤ b → b < u → s.readable b = true) →
    (u < s.ea m + 8 → ∀ d : MmReg,
      (s.canExecute .psrawMm = true → exec (.psrawMm d (.mem m)) s = .fault (.memory u s.pc)) ∧
      (s.canExecute .psradMm = true → exec (.psradMm d (.mem m)) s = .fault (.memory u s.pc))) ∧
    (u < s.ea m + 16 → ∀ (d s1 : VReg) (k : Masking),
      (s.ea m % 16 = 0 → s.canExecute .psrawXmm = true → exec (.psrawXmm d (.mem m)) s = .fault (.memory u s.pc)) ∧
      (s.ea m % 16 = 0 → s.canExecute .psradXmm = true → exec (.psradXmm d (.mem m)) s = .fault (.memory u s.pc)) ∧
      (s.canExecute .vpsrawXmm = true → exec (.vpsrawXmm d s1 (.mem m)) s = .fault (.memory u s.pc)) ∧
      (s.canExecute .vpsradXmm = true → exec (.vpsradXmm d s1 (.mem m)) s = .fault (.memory u s.pc)) ∧
      (s.canExecute .vpsrawYmm = true → exec (.vpsrawYmm d s1 (.mem m)) s = .fault (.memory u s.pc)) ∧
      (s.canExecute .vpsradYmm = true → exec (.vpsradYmm d s1 (.mem m)) s = .fault (.memory u s.pc)) ∧
      (s.canExecute .evexVpsraw128 = true → exec (.evexVpsraw128 d s1 (.mem m) k) s = .fault (.memory u s.pc)) ∧
      (s.canExecute .evexVpsraw256 = true → exec (.evexVpsraw256 d s1 (.mem m) k) s = .fault (.memory u s.pc)) ∧
      (s.canExecute .evexVpsraw512 = true → exec (.evexVpsraw512 d s1 (.mem m) k) s = .fault (.memory u s.pc)) ∧
      (s.canExecute .evexVpsrad128 = true → exec (.evexVpsrad128 d s1 (.mem m) k) s = .fault (.memory u s.pc)) ∧
      (s.canExecute .evexVpsrad256 = true → exec (.evexVpsrad256 d s1 (.mem m) k) s = .fault (.memory u s.pc)) ∧
      (s.canExecute .evexVpsrad512 = true → exec (.evexVpsrad512 d s1 (.mem m) k) s = .fault (.memory u s.pc)) ∧
      (s.canExecute .evexVpsraq128 = true → exec (.evexVpsraq128 d s1 (.mem m) k) s = .fault (.memory u s.pc)) ∧
      (s.canExecute .evexVpsraq256 = true → exec (.evexVpsraq256 d s1 (.mem m) k) s = .fault (.memory u s.pc)) ∧
      (s.canExecute .evexVpsraq512 = true → exec (.evexVpsraq512 d s1 (.mem m) k) s = .fault (.memory u s.pc)))

/-- An EVEX immediate form reads its whole memory source whatever the mask: an unreadable byte is the memory fault at the lowest
one (R39, R36, R47, R148, R145).
The fault kinds are the spec's decision D17 (log entry 18), that a masked-off element's fault is not suppressed its decision D24
(log entry 19); that a byte past the top counts as unreadable is the model's choice (log entry 9). -/
def Obligations.UnreadableSourceRaisesMemoryFault : Prop :=
  ∀ (s : State) (m : MemRef) (u : Nat), s.ea m ≤ u → s.readable u = false →
    (∀ b, s.ea m ≤ b → b < u → s.readable b = true) → ∀ (d : VReg) (imm : Byte) (k : Masking),
      (u < s.ea m + 16 → s.canExecute .evexVpsraw128Imm = true → exec (.evexVpsraw128Imm d (.mem m) imm k) s = .fault (.memory u s.pc)) ∧
      (u < s.ea m + 32 → s.canExecute .evexVpsraw256Imm = true → exec (.evexVpsraw256Imm d (.mem m) imm k) s = .fault (.memory u s.pc)) ∧
      (u < s.ea m + 64 → s.canExecute .evexVpsraw512Imm = true → exec (.evexVpsraw512Imm d (.mem m) imm k) s = .fault (.memory u s.pc)) ∧
      (u < s.ea m + 16 → s.canExecute .evexVpsrad128Imm = true → exec (.evexVpsrad128Imm d (.mem m) imm k) s = .fault (.memory u s.pc)) ∧
      (u < s.ea m + 4 → s.canExecute .evexVpsrad128Imm = true → exec (.evexVpsrad128Imm d (.bcst m) imm k) s = .fault (.memory u s.pc)) ∧
      (u < s.ea m + 32 → s.canExecute .evexVpsrad256Imm = true → exec (.evexVpsrad256Imm d (.mem m) imm k) s = .fault (.memory u s.pc)) ∧
      (u < s.ea m + 4 → s.canExecute .evexVpsrad256Imm = true → exec (.evexVpsrad256Imm d (.bcst m) imm k) s = .fault (.memory u s.pc)) ∧
      (u < s.ea m + 64 → s.canExecute .evexVpsrad512Imm = true → exec (.evexVpsrad512Imm d (.mem m) imm k) s = .fault (.memory u s.pc)) ∧
      (u < s.ea m + 4 → s.canExecute .evexVpsrad512Imm = true → exec (.evexVpsrad512Imm d (.bcst m) imm k) s = .fault (.memory u s.pc)) ∧
      (u < s.ea m + 16 → s.canExecute .evexVpsraq128Imm = true → exec (.evexVpsraq128Imm d (.mem m) imm k) s = .fault (.memory u s.pc)) ∧
      (u < s.ea m + 8 → s.canExecute .evexVpsraq128Imm = true → exec (.evexVpsraq128Imm d (.bcst m) imm k) s = .fault (.memory u s.pc)) ∧
      (u < s.ea m + 32 → s.canExecute .evexVpsraq256Imm = true → exec (.evexVpsraq256Imm d (.mem m) imm k) s = .fault (.memory u s.pc)) ∧
      (u < s.ea m + 8 → s.canExecute .evexVpsraq256Imm = true → exec (.evexVpsraq256Imm d (.bcst m) imm k) s = .fault (.memory u s.pc)) ∧
      (u < s.ea m + 64 → s.canExecute .evexVpsraq512Imm = true → exec (.evexVpsraq512Imm d (.mem m) imm k) s = .fault (.memory u s.pc)) ∧
      (u < s.ea m + 8 → s.canExecute .evexVpsraq512Imm = true → exec (.evexVpsraq512Imm d (.bcst m) imm k) s = .fault (.memory u s.pc))

/-- Every fault of a step records the pc the step began at (R146, R25).
The terminal fault is the spec's decision D17 (log entry 18). -/
def Obligations.FaultsRecordTheInstructionsPc : Prop :=
  ∀ (s : State) (f : Fault), step s = .fault f → f.pc = s.pc

/-- An instruction that would leave pc at or beyond the top of the address space is refused (R25, 92_eei_decisions.md D11).
The refusal is the spec's decision D11 as the model reads it, an end exactly at the top included: the model's choice (log
entry 8). Faults of the form and of its operands come first. -/
def Obligations.PastTheTopIsRefused : Prop :=
  ∀ (i : Instr) (s : State), s.canExecute i.form = true → s.OperandsReady i → s.addrLimit ≤ s.pc.toNat + s.ilen →
    exec i s = .refused .pcPastTop

/-- A step is exec of the instruction decoded at pc, with its length latched (R24, R35, R48, 00_scope.md R10).
The window of 15 bytes and the latched length are the model's (log entries 7 and 20). -/
def Obligations.StepRunsTheDecodedInstruction : Prop :=
  ∀ (s : State) (i : Instr) (n : Nat), decode s.launch.mode64 (s.fetchBytes s.pc.toNat 15) = .ok i n →
    step s = exec i { s with ilen := n }

/-- The fetch fault comes before the length fault: where the readable bytes from pc, however many, do not end the instruction
and the next one is not readable, the step is the memory fault there; where they end an over-long one, it is the
general-protection fault (R147, R74, R145, 92_eei_decisions.md D18).
The 15-byte limit and the fault it raises are general knowledge in R51 and R74; that every byte of an over-long instruction
counts for the fetch fault is the model's reading of R147 (log entry 7). The fault kinds are decision D17 (log entry 18). -/
def Obligations.FetchFaultComesBeforeTheLengthFault : Prop :=
  ∀ (s : State) (n : Nat), s.RangeReadable s.pc.toNat n →
    (decode s.launch.mode64 (s.fetchBytes s.pc.toNat n) = .truncated → s.readable (s.pc.toNat + n) = false →
      s.pc.toNat + n < s.addrLimit → step s = .fault (.memory (s.pc.toNat + n) s.pc)) ∧
    (decode s.launch.mode64 (s.fetchBytes s.pc.toNat n) = .tooLong → step s = .fault (.generalProtection 0 s.pc))

/-- A step runs the well-formed instruction whose encoding stands, readable, at pc (R24, R35, R42, R51).
The bytes rest on the layouts of log entry 5. -/
def Obligations.StepRunsAnEncodedInstruction : Prop :=
  ∀ (s : State) (i : Instr), i.wf s.launch.mode64 = true → s.RangeReadable s.pc.toNat (encode i).length →
    (∀ k (h : k < (encode i).length), s.mem.read (s.pc.toNat + k) = (encode i)[k]) →
    step s = exec i { s with ilen := (encode i).length }

/-- Every completed step moves pc forward by the instruction's length, 3 to 15 bytes, and nothing jumps (R25, R74, R51).
The 15-byte limit is general knowledge in R51 and R74 (log entry 7). That the sum does not wrap and is an address of the mode is
the model's choice: it refuses an instruction that ends at or beyond the top (92_eei_decisions.md D11, log entry 8). -/
def Obligations.StepMovesPcPastTheInstruction : Prop :=
  ∀ s t : State, step s = .next t →
    t.pc.toNat = s.pc.toNat + t.ilen ∧ 3 ≤ t.ilen ∧ t.ilen ≤ 15 ∧ t.pc.toNat < t.addrLimit

/-- Every step keeps the invariant, from every state that has it (R16, R24, R101, R145).
The relations between the parameters are the spec's decisions D2 and D13; holding registers 512 bits wide is the model's choice (log entries 10 and 11). -/
def Obligations.StepKeepsTheInvariant : Prop :=
  ∀ s t : State, s.Inv → step s = .next t → t.Inv

/-- The reset state has the invariant (R31, R159).
The values of the reset state are the model's choice (log entries 1 to 3). -/
def Obligations.ResetHasTheInvariant : Prop :=
  State.reset.Inv

/-- Over any run memory is constant, and so are the opmask and general registers and the parameters (R40, R20, R22, R6, R48).
No other agent writes memory in the model (decision D20, log entry 23); that opmask registers are never written is decision D6
(log entry 11), that general registers are not D10 (log entry 21), and the parameters are held in State by the model's choice
(log entry 10). Its step is LaunchContentsAreKept. -/
def Obligations.RunsNeverWriteMemory : Prop :=
  ∀ (n : Nat) (s t : State), core.run n s = .next t →
    t.mem = s.mem ∧ (∀ a, t.mem.read a = s.mem.read a) ∧ t.k = s.k ∧ t.gpr = s.gpr ∧ t.launch = s.launch

/-- A run of n completed steps moves pc forward by at least 3n and at most 15n bytes (R25, R168, R74).
The 15-byte limit is general knowledge in R51 and R74 (log entry 7). That pc never wraps is the model's choice: it refuses an
instruction that ends at or beyond the top (92_eei_decisions.md D11, log entry 8). Its step is StepMovesPcPastTheInstruction. -/
def Obligations.RunsMoveForward : Prop :=
  ∀ (n : Nat) (s t : State), core.run n s = .next t →
    s.pc.toNat + 3 * n ≤ t.pc.toNat ∧ t.pc.toNat ≤ s.pc.toNat + 15 * n

/-- MMX forms change no vector register, the other forms no MMX register, and each no register of its file but its destination
operand (R15, R21, R70). -/
def Obligations.ClassesKeepToTheirRegisters : Prop :=
  ∀ (i : Instr) (s t : State), exec i s = .next t →
    (∀ d, i.dest = .mm d →
      i.form.info.cls = .mmx ∧ (∀ r, t.readV r = s.readV r) ∧ ∀ r, r ≠ d → t.readMm r = s.readMm r) ∧
    (∀ d, i.dest = .vec d →
      i.form.info.cls ≠ .mmx ∧ (∀ r, t.readMm r = s.readMm r) ∧ ∀ r, r ≠ d → t.readV r = s.readV r)

/-- Upper bits of the destination: legacy SSE keeps bits from 128 up, VEX and EVEX zero those from VL up, whatever the mask; the
other registers stay whole, and the MMX forms leave every vector register (R17, R101). -/
def Obligations.UpperBitsFollowTheClass : Prop :=
  ∀ (i : Instr) (s t : State), exec i s = .next t →
    (∀ d, i.dest = .vec d →
      (i.form.info.cls = .sse → t.readV d >>> 128 = s.readV d >>> 128) ∧
      (i.form.info.cls = .vex ∨ i.form.info.cls = .evex → t.readV d >>> i.form.vl = 0) ∧
      ∀ r, r ≠ d → t.readV r = s.readV r) ∧
    (i.form.info.cls = .mmx → ∀ r, t.readV r = s.readV r)

/-- Only the low 64 bits of a vector register that is a count matter, in every form that has one (R88, R36): of another register
than the ones the form reads as data (its own destination in the legacy SSE2 forms and under merging-masking). -/
def Obligations.CountRegistersHighBitsAreIgnored : Prop :=
  ∀ (s : State) (d s1 r : VReg) (x : BitVec 512) (m : Masking), x.setWidth 64 = (s.readV r).setWidth 64 →
    (r ≠ d → ∀ t, exec (.psrawXmm d (.reg r)) s = .next t →
      ∃ t', exec (.psrawXmm d (.reg r)) (s.writeV r x) = .next t' ∧ t'.readV d = t.readV d) ∧
    (r ≠ d → ∀ t, exec (.psradXmm d (.reg r)) s = .next t →
      ∃ t', exec (.psradXmm d (.reg r)) (s.writeV r x) = .next t' ∧ t'.readV d = t.readV d) ∧
    (r ≠ s1 → ∀ t, exec (.vpsrawXmm d s1 (.reg r)) s = .next t →
      ∃ t', exec (.vpsrawXmm d s1 (.reg r)) (s.writeV r x) = .next t' ∧ t'.readV d = t.readV d) ∧
    (r ≠ s1 → ∀ t, exec (.vpsradXmm d s1 (.reg r)) s = .next t →
      ∃ t', exec (.vpsradXmm d s1 (.reg r)) (s.writeV r x) = .next t' ∧ t'.readV d = t.readV d) ∧
    (r ≠ s1 → ∀ t, exec (.vpsrawYmm d s1 (.reg r)) s = .next t →
      ∃ t', exec (.vpsrawYmm d s1 (.reg r)) (s.writeV r x) = .next t' ∧ t'.readV d = t.readV d) ∧
    (r ≠ s1 → ∀ t, exec (.vpsradYmm d s1 (.reg r)) s = .next t →
      ∃ t', exec (.vpsradYmm d s1 (.reg r)) (s.writeV r x) = .next t' ∧ t'.readV d = t.readV d) ∧
    (r ≠ s1 → (r = d → ∀ k, m ≠ .merging k) → ∀ t, exec (.evexVpsraw128 d s1 (.reg r) m) s = .next t →
      ∃ t', exec (.evexVpsraw128 d s1 (.reg r) m) (s.writeV r x) = .next t' ∧ t'.readV d = t.readV d) ∧
    (r ≠ s1 → (r = d → ∀ k, m ≠ .merging k) → ∀ t, exec (.evexVpsraw256 d s1 (.reg r) m) s = .next t →
      ∃ t', exec (.evexVpsraw256 d s1 (.reg r) m) (s.writeV r x) = .next t' ∧ t'.readV d = t.readV d) ∧
    (r ≠ s1 → (r = d → ∀ k, m ≠ .merging k) → ∀ t, exec (.evexVpsraw512 d s1 (.reg r) m) s = .next t →
      ∃ t', exec (.evexVpsraw512 d s1 (.reg r) m) (s.writeV r x) = .next t' ∧ t'.readV d = t.readV d) ∧
    (r ≠ s1 → (r = d → ∀ k, m ≠ .merging k) → ∀ t, exec (.evexVpsrad128 d s1 (.reg r) m) s = .next t →
      ∃ t', exec (.evexVpsrad128 d s1 (.reg r) m) (s.writeV r x) = .next t' ∧ t'.readV d = t.readV d) ∧
    (r ≠ s1 → (r = d → ∀ k, m ≠ .merging k) → ∀ t, exec (.evexVpsrad256 d s1 (.reg r) m) s = .next t →
      ∃ t', exec (.evexVpsrad256 d s1 (.reg r) m) (s.writeV r x) = .next t' ∧ t'.readV d = t.readV d) ∧
    (r ≠ s1 → (r = d → ∀ k, m ≠ .merging k) → ∀ t, exec (.evexVpsrad512 d s1 (.reg r) m) s = .next t →
      ∃ t', exec (.evexVpsrad512 d s1 (.reg r) m) (s.writeV r x) = .next t' ∧ t'.readV d = t.readV d) ∧
    (r ≠ s1 → (r = d → ∀ k, m ≠ .merging k) → ∀ t, exec (.evexVpsraq128 d s1 (.reg r) m) s = .next t →
      ∃ t', exec (.evexVpsraq128 d s1 (.reg r) m) (s.writeV r x) = .next t' ∧ t'.readV d = t.readV d) ∧
    (r ≠ s1 → (r = d → ∀ k, m ≠ .merging k) → ∀ t, exec (.evexVpsraq256 d s1 (.reg r) m) s = .next t →
      ∃ t', exec (.evexVpsraq256 d s1 (.reg r) m) (s.writeV r x) = .next t' ∧ t'.readV d = t.readV d) ∧
    (r ≠ s1 → (r = d → ∀ k, m ≠ .merging k) → ∀ t, exec (.evexVpsraq512 d s1 (.reg r) m) s = .next t →
      ∃ t', exec (.evexVpsraq512 d s1 (.reg r) m) (s.writeV r x) = .next t' ∧ t'.readV d = t.readV d)

/-- Bits of the opmask register at KL and above do not matter, KL being VL / w of the form, in each of the 18 EVEX forms (R20,
R100). -/
def Obligations.HighMaskBitsAreIgnored : Prop :=
  ∀ (i : Instr) (s t : State) (k : OpMask) (x : BitVec 64), (i.masking = .merging k ∨ i.masking = .zeroing k) →
    (∀ j, j < i.form.elements → x.getLsbD j = (s.readK k).getLsbD j) → exec i s = .next t →
      exec i { s with k := s.k.set (maskNumber k).val x (maskNumber k).isLt } =
        .next { t with k := s.k.set (maskNumber k).val x (maskNumber k).isLt }

/-- An unmasked EVEX form at 128 or 256 bits does exactly what the VEX form does (R111, R119, R113, R125, R100, R101). -/
def Obligations.UnmaskedEvexEqualsVex : Prop :=
  ∀ (s : State) (d s1 : VReg) (c : RegMem VReg) (imm : Byte),
    (s.canExecute .evexVpsraw128 = true → s.canExecute .vpsrawXmm = true → exec (.evexVpsraw128 d s1 c .unmasked) s = exec (.vpsrawXmm d s1 c) s) ∧
    (s.canExecute .evexVpsraw128Imm = true → s.canExecute .vpsrawXmmImm = true →
      exec (.evexVpsraw128Imm d (.reg s1) imm .unmasked) s = exec (.vpsrawXmmImm d s1 imm) s) ∧
    (s.canExecute .evexVpsrad128 = true → s.canExecute .vpsradXmm = true → exec (.evexVpsrad128 d s1 c .unmasked) s = exec (.vpsradXmm d s1 c) s) ∧
    (s.canExecute .evexVpsrad128Imm = true → s.canExecute .vpsradXmmImm = true →
      exec (.evexVpsrad128Imm d (.reg s1) imm .unmasked) s = exec (.vpsradXmmImm d s1 imm) s) ∧
    (s.canExecute .evexVpsraw256 = true → s.canExecute .vpsrawYmm = true → exec (.evexVpsraw256 d s1 c .unmasked) s = exec (.vpsrawYmm d s1 c) s) ∧
    (s.canExecute .evexVpsraw256Imm = true → s.canExecute .vpsrawYmmImm = true →
      exec (.evexVpsraw256Imm d (.reg s1) imm .unmasked) s = exec (.vpsrawYmmImm d s1 imm) s) ∧
    (s.canExecute .evexVpsrad256 = true → s.canExecute .vpsradYmm = true → exec (.evexVpsrad256 d s1 c .unmasked) s = exec (.vpsradYmm d s1 c) s) ∧
    (s.canExecute .evexVpsrad256Imm = true → s.canExecute .vpsradYmmImm = true →
      exec (.evexVpsrad256Imm d (.reg s1) imm .unmasked) s = exec (.vpsradYmmImm d s1 imm) s)

/-- Decoding the encoding of any well-formed instruction gives it back, with its length, whatever follows (R56, R57, R59, R61, R62, R63, R68, R70, R73, R75).
The layouts are the spec's general knowledge (D1, log entry 5). -/
def Obligations.DecodeInvertsEncode : Prop :=
  ∀ (m64 : Bool) (i : Instr) (rest : List Byte), i.wf m64 = true →
    decode m64 (encode i ++ rest) = .ok i (encode i).length

/-- Every decoded instruction is well formed, at least 3 and at most 15 bytes long (R18, R19, R22, R51, R74).
The register counts are the spec's decision D5, the layouts its general knowledge (log entries 5 and 11). -/
def Obligations.DecodedInstructionsAreWellFormed : Prop :=
  ∀ (m64 : Bool) (bs : List Byte) (i : Instr) (n : Nat), decode m64 bs = .ok i n →
    i.wf m64 = true ∧ 3 ≤ n ∧ n ≤ 15 ∧ n ≤ bs.length

/-- No decode key matches two rows of the opcode table (R73, R75). -/
def Obligations.OpcodeRowsAreDisjoint : Prop :=
  ∀ (k : BitVec 32) (r r' : OpcodeRow), r ∈ opcodeTable → r' ∈ opcodeTable →
    k &&& r.mask = r.pat → k &&& r'.mask = r'.pat → r = r'

/-- A word of each encoding class, written out from the spec, decodes to its instruction (R107, R106, R111, R130, R133).
The layouts are the spec's general knowledge (D1, log entry 5). -/
def Obligations.WordsOfTheSpecDecode : Prop :=
  decode true [0x66, 0x0F, 0xE1, 0xCA] = .ok (.psrawXmm 1 (.reg 2)) 4 ∧
  decode false [0x0F, 0x72, 0xE3, 0x08] = .ok (.psradMmImm 3 8) 4 ∧
  decode true [0xC4, 0xC1, 0x69, 0xE1, 0xCB] = .ok (.vpsrawXmm 1 2 (.reg 11)) 5 ∧
  decode true [0x62, 0xF1, 0x5D, 0x5A, 0x72, 0x20, 0x04] =
    .ok (.evexVpsrad512Imm 4 (.bcst (.sum (some 0) none 0)) 4 (.merging .k2)) 7 ∧
  decode true [0x62, 0xA1, 0xED, 0x40, 0xE2, 0xCB] = .ok (.evexVpsraq512 17 18 (.reg 19) .unmasked) 6

/-- A lock prefix on any form in scope is an invalid opcode (R81, R49, R58).
General knowledge in R49 and R81 (log entry 24). -/
def Obligations.LockPrefixIsInvalidOpcode : Prop :=
  ∀ (m64 : Bool) (i : Instr) (rest : List Byte), i.wf m64 = true →
    decode m64 (0xF0 :: encode i ++ rest) = .invalidOpcode

/-- A segment-override prefix changes nothing but the length (R58, 92_eei_decisions.md D10).
The spec's decision D10 (log entry 21). -/
def Obligations.SegmentOverrideHasNoEffect : Prop :=
  ∀ (m64 : Bool) (i : Instr) (rest : List Byte) (p : Byte), i.wf m64 = true →
    p ∈ ([0x26, 0x2E, 0x36, 0x3E, 0x64, 0x65] : List Byte) →
    decode m64 (p :: encode i ++ rest) = .ok i ((encode i).length + 1)

/-- 0x66, 0xF2, 0xF3 or REX before a VEX or EVEX prefix is an invalid opcode (R81, R58).
General knowledge in R81 (log entry 24). -/
def Obligations.PrefixBeforeVexOrEvexIsInvalidOpcode : Prop :=
  ∀ (m64 : Bool) (i : Instr) (rest : List Byte) (p : Byte), i.wf m64 = true →
    (i.form.info.cls = .vex ∨ i.form.info.cls = .evex) →
    (p = 0x66 ∨ p = 0xF2 ∨ p = 0xF3 ∨ (m64 = true ∧ p.extractLsb' 4 4 = 4)) →
    decode m64 (p :: encode i ++ rest) = .invalidOpcode

/-- 0xF2 or 0xF3 before a legacy form is refused by name (R58, 92_eei_decisions.md D19).
The spec's decision D19 (log entry 6). -/
def Obligations.RepeatPrefixOnLegacyIsRefused : Prop :=
  ∀ (m64 : Bool) (i : Instr) (rest : List Byte) (p : Byte), i.wf m64 = true →
    (i.form.info.cls = .mmx ∨ i.form.info.cls = .sse) → (p = 0xF2 ∨ p = 0xF3) →
    decode m64 (p :: encode i ++ rest) = .refused .repOnLegacy

/-- Any bytes with 0x67 among their legacy prefixes are refused by name (R58, 92_eei_decisions.md D10).
The spec's decision D10; that it comes before every other condition is the model's choice (log entry 6). -/
def Obligations.AddressSizePrefixIsRefused : Prop :=
  ∀ (m64 : Bool) (before rest : List Byte),
    (∀ b ∈ before, b ∈ ([0x26, 0x2E, 0x36, 0x3E, 0x64, 0x65, 0x66, 0xF0, 0xF2, 0xF3] : List Byte)) →
    decode m64 (before ++ 0x67 :: rest) = .refused .addressSize

/-- mod other than 11 on an immediate form that lists no memory operand is an invalid opcode, under every prefix form and in both
modes (R78, R60, R61).
The spec's decision D14, from general knowledge (log entry 24); the layouts are its general knowledge (log entry 5). Outside
64-bit mode the VEX prefixes are those that D31 does not refuse (log entry 25). -/
def Obligations.RegisterOnlyFormsRejectMemory : Prop :=
  ∀ (op modrm rex b1 b2 : Byte) (rest : List Byte), (op = 0x71 ∨ op = 0x72) → modrm.extractLsb' 3 3 = 4 →
    modrm.extractLsb' 6 2 ≠ 3 → 6 ≤ rest.length →
    (∀ m64, decode m64 (0x0F :: op :: modrm :: rest) = .invalidOpcode ∧
      decode m64 (0x66 :: 0x0F :: op :: modrm :: rest) = .invalidOpcode) ∧
    (rex.extractLsb' 4 4 = 4 → decode true (rex :: 0x0F :: op :: modrm :: rest) = .invalidOpcode ∧
      decode true (0x66 :: rex :: 0x0F :: op :: modrm :: rest) = .invalidOpcode) ∧
    (∀ m64, (m64 = true ∨ b1.extractLsb' 6 2 = 3) → b1.extractLsb' 0 2 = 1 →
      decode m64 (0xC5 :: b1 :: op :: modrm :: rest) = .invalidOpcode) ∧
    (∀ m64, (m64 = true ∨ b1.extractLsb' 5 3 = 7 ∧ b2.getLsbD 6 = true) → b1.extractLsb' 0 5 = 1 → b2.extractLsb' 0 2 = 1 →
      decode m64 (0xC4 :: b1 :: b2 :: op :: modrm :: rest) = .invalidOpcode)

/-- The reserved EVEX combinations are invalid opcodes, in 64-bit mode and, for the bytes that are an EVEX prefix D31 does not
refuse, outside it (R80, R62).
The spec's decision D16, from general knowledge (log entry 24); the layouts are its general knowledge (log entry 5), and what is
refused outside 64-bit mode its decision D31 (log entry 25). -/
def Obligations.ReservedEvexCombinationsAreInvalid : Prop :=
  ∀ (m64 : Bool) (p0 p1 p2 op modrm : Byte) (rest : List Byte),
    (m64 = true ∨ p0.extractLsb' 4 4 = 15 ∧ p1.getLsbD 6 = true ∧ p2.getLsbD 3 = true) →
    p0.extractLsb' 0 2 = 1 → p1.extractLsb' 0 2 = 1 →
    (op = 0xE1 ∨ op = 0xE2 ∨ ((op = 0x71 ∨ op = 0x72) ∧ modrm.extractLsb' 3 3 = 4)) → 6 ≤ rest.length →
    ((p2.getLsbD 4 = true ∧ op ≠ 0x72) ∨ (p2.getLsbD 4 = true ∧ op = 0x72 ∧ modrm.extractLsb' 6 2 = 3) ∨
      (p2.getLsbD 7 = true ∧ p2.extractLsb' 0 3 = 0) ∨ p2.extractLsb' 5 2 = 3 ∨
      p0.extractLsb' 2 2 ≠ 0 ∨ p1.getLsbD 2 = false) →
    decode m64 (0x62 :: p0 :: p1 :: p2 :: op :: modrm :: rest) = .invalidOpcode

/-- Outside 64-bit mode REX bytes, and VEX or EVEX bytes without bits 7:6 set, are other instructions (R59, R61, R62, R79).
General knowledge in R59, R61 and R62 (log entry 5). -/
def Obligations.OutsideSixtyFourBitModeOtherInstructions : Prop :=
  ∀ (b b1 : Byte) (rest : List Byte),
    (b.extractLsb' 4 4 = 4 → decode false (b :: rest) = .refused .notInScope) ∧
    (b = 0xC5 ∨ b = 0xC4 ∨ b = 0x62 → b1.extractLsb' 6 2 ≠ 3 →
      decode false (b :: b1 :: rest) = .refused .notInScope)

/-- Every step keeps what the launch gave and no form writes: memory, the opmask and general registers, the parameters; and so every
byte of memory reads as before (R40, R20, R22, R6, R48).
No other agent writes memory in the model (decision D20, log entry 23); decisions D6 and D10 and the model's choice to hold the
parameters in State give the rest (log entries 10, 11 and 21). -/
def Obligations.LaunchContentsAreKept : Prop :=
  ∀ c s t : State, s.AsLaunched c → step s = .next t → t.AsLaunched c ∧ ∀ a, t.mem.read a = c.mem.read a

/-- An instruction completes exactly when its form may execute, its operands can be read and it ends inside the address space: no
ordinary data, no masking and no register number stops it (R76, R143, R145, R47, R41, R25).
The conditions are the spec's decisions D2, D9, D12, D13 and D24 (log entries 13, 16, 18, 19 and 21); the end at or beyond the
top is the model's choice (log entry 8, D11), and so is the operand past the top (log entry 9). -/
def Obligations.InstructionsCompleteExactlyWhenReady : Prop :=
  ∀ (i : Instr) (s : State), (∃ t, exec i s = .next t) ↔ s.Ready i.form ∧ s.OperandsReady i
end

