-- ==== Sys2Proof/Laws/Shift.lean ====
section
/-! SUPPORT. What the shift primitives compute, bit by bit and element by element: cite these instead of unfolding `pack`. -/

namespace Sys2Proof.Machine

theorem rep_getLsbD (b : Bool) (w i : Nat) : (rep b w).getLsbD i = (decide (i < w) && b) := by
  cases b <;> simp [rep]

theorem elem_getLsbD {n : Nat} (w : Nat) (s : BitVec n) (j i : Nat) :
    (elem w s j).getLsbD i = (decide (i < w) && s.getLsbD (w * j + i)) := by
  simp [elem]

/-- Every bit of a packed vector. -/
theorem pack_getLsbD {n w : Nat} (hw : 0 < w) (f : Nat → BitVec w) (k i : Nat) :
    (pack n w f k).getLsbD i = (decide (i < n) && decide (i < w * k) && (f (i / w)).getLsbD (i % w)) := by
  induction k with
  | zero => simp [pack]
  | succ k ih =>
    have hdiv : i / w * w + i % w = i := Nat.div_add_mod' i w
    have hmod : i % w < w := Nat.mod_lt i hw
    simp only [pack, BitVec.getLsbD_or, ih, BitVec.getLsbD_shiftLeft, BitVec.getLsbD_setWidth, Nat.mul_succ]
    by_cases hn : i < n
    · by_cases h1 : i < w * k
      · simp [hn, h1]; omega
      · by_cases h2 : i < w * k + w
        · have hq : i / w = k := by
            apply Nat.div_eq_of_lt_le <;> [rw [Nat.mul_comm]; rw [Nat.mul_comm, Nat.mul_succ]] <;> omega
          have hr : i % w = i - w * k := by rw [hq, Nat.mul_comm] at hdiv; omega
          have h3 : i - w * k < n := by omega
          simp [hn, h1, h2, hq, hr, h3]
        · have h4 : w ≤ i - w * k := by omega
          simp [hn, h1, h2, BitVec.getLsbD_of_ge _ _ h4]
    · simp [hn]

/-- An element of a packed vector is the element it was packed from. -/
theorem elem_pack {n w : Nat} (f : Nat → BitVec w) {k j : Nat} (hj : j < k) (hn : w * k ≤ n) :
    elem w (pack n w f k) j = f j := by
  apply BitVec.eq_of_getLsbD_eq
  intro i hi
  have hw : 0 < w := by omega
  have h1 : w * j + i < w * k := by
    calc w * j + i < w * j + w := by omega
      _ = w * (j + 1) := by rw [Nat.mul_succ]
      _ ≤ w * k := Nat.mul_le_mul_left w hj
  have h2 : (w * j + i) / w = j := by rw [Nat.mul_add_div hw, Nat.div_eq_of_lt hi, Nat.add_zero]
  have h3 : (w * j + i) % w = i := by rw [Nat.mul_add_mod, Nat.mod_eq_of_lt hi]
  rw [elem_getLsbD, pack_getLsbD hw, h2, h3]
  simp [hi, h1]; omega

/-- Two vectors of whole elements are equal when their elements are. -/
theorem eq_of_elem_eq {n w : Nat} (hw : 0 < w) (hd : w ∣ n) {x y : BitVec n}
    (h : ∀ j, j < n / w → elem w x j = elem w y j) : x = y := by
  apply BitVec.eq_of_getLsbD_eq
  intro i hi
  obtain ⟨k, rfl⟩ := hd
  have hj : i / w < w * k / w := by rw [Nat.mul_div_cancel_left k hw]; exact Nat.div_lt_of_lt_mul hi
  have hb := congrArg (fun e => e.getLsbD (i % w)) (h (i / w) hj)
  have hm : i % w < w := Nat.mod_lt i hw
  rw [elem_getLsbD, elem_getLsbD, Nat.div_add_mod] at hb
  simpa only [hm, decide_true, Bool.true_and] using hb

/-- R99: the elements of a shifted vector. -/
theorem elem_shiftVec {w n : Nat} (s : BitVec n) (c : BitVec 64) {j : Nat} (hj : j < n / w) :
    elem w (shiftVec w n s c) j = sra (elem w s j) (min c.toNat w) :=
  elem_pack _ hj (Nat.mul_div_le n w)

/-- R100: the elements of a masked vector. -/
theorem elem_maskApply {w n : Nat} (r old : BitVec n) (m : BitVec 64) (z : Bool) {j : Nat} (hj : j < n / w) :
    elem w (maskApply w n r old m z) j = if m.getLsbD j then elem w r j else if z then 0 else elem w old j :=
  elem_pack _ hj (Nat.mul_div_le n w)

/-- R38: the elements of a broadcast. -/
theorem elem_broadcast {w n : Nat} (e : BitVec w) {j : Nat} (hj : j < n / w) : elem w (broadcast w n e) j = e :=
  elem_pack _ hj (Nat.mul_div_le n w)

/-- An element of a vector cut or extended to another length is the vector's, where the new length has it. -/
theorem elem_setWidth {m w : Nat} (n : Nat) (x : BitVec m) {j : Nat} (h : w * (j + 1) ≤ n) :
    elem w (x.setWidth n) j = elem w x j := by
  apply BitVec.eq_of_getLsbD_eq
  intro i hi
  have h1 : w * j + i < n := by rw [Nat.mul_succ] at h; omega
  rw [elem_getLsbD, elem_getLsbD, BitVec.getLsbD_setWidth]
  simp only [h1, decide_true, Bool.true_and]

/-- The elements of the low `n` bits, for an element the length has. -/
theorem elem_setWidth_div {m w : Nat} (n : Nat) (x : BitVec m) {j : Nat} (hj : j < n / w) :
    elem w (x.setWidth n) j = elem w x j :=
  elem_setWidth n x (le_trans (Nat.mul_le_mul_left w hj) (Nat.mul_div_le n w))

/-- Nothing of an `n`-bit value lies at or above bit `n`. -/
theorem setWidth_shiftRight_eq_zero {n : Nat} (m : Nat) (x : BitVec n) {k : Nat} (h : n ≤ k) :
    x.setWidth m >>> k = 0 := by
  apply BitVec.eq_of_getLsbD_eq
  intro i _
  have : n ≤ k + i := by omega
  simp [BitVec.getLsbD_of_ge x (k + i) this]

/-- R85: no shift for a count of 0. -/
theorem sra_zero {w : Nat} (hw : 0 < w) (e : BitVec w) : sra e 0 = e := by
  simp [sra, Nat.not_le.mpr hw]

/-- R85, R86: a count of the width or more fills the element with its sign bit. -/
theorem sra_of_le {w c : Nat} (e : BitVec w) (h : w ≤ c) : sra e c = rep e.msb w := by
  simp [sra, h]

/-- R85: every bit of a shifted element. -/
theorem sra_getLsbD {w : Nat} (e : BitVec w) (c i : Nat) :
    (sra e c).getLsbD i = (decide (i < w) && if i + c < w then e.getLsbD (i + c) else e.msb) := by
  unfold sra
  split
  · rename_i h
    have : ¬ i + c < w := by omega
    simp [rep_getLsbD, this]
  · rename_i h
    split
    · rename_i h0
      subst h0
      by_cases hi : i < w
      · simp [hi]
      · simp [hi, BitVec.getLsbD_of_ge e i (by omega)]
    · rw [BitVec.getLsbD_or, BitVec.getLsbD_shiftLeft, BitVec.getLsbD_ushiftRight, rep_getLsbD, Nat.add_comm c i]
      by_cases hi : i < w
      · by_cases hc : i + c < w
        · have : i < w - c := by omega
          simp [hi, hc, this]
        · have h1 : ¬ i < w - c := by omega
          have h2 : i - (w - c) < w := by omega
          simp [hi, hc, h1, h2, BitVec.getLsbD_of_ge e (i + c) (by omega)]
      · simp [hi, BitVec.getLsbD_of_ge e (i + c) (by omega)]

/-- The element shift is the library's arithmetic shift. -/
theorem sra_eq_sshiftRight {w : Nat} (e : BitVec w) (c : Nat) : sra e c = e.sshiftRight c := by
  apply BitVec.eq_of_getLsbD_eq
  intro i hi
  rw [sra_getLsbD, BitVec.getLsbD_sshiftRight, Nat.add_comm c i]
  have : ¬ w ≤ i := by omega
  simp [hi, this]

end Sys2Proof.Machine
end

