-- ==== Sys2Proof/Laws/Memory.lean ====
section
/-! SUPPORT. Memory: reading after writing, the canonical form, and what a multi-byte read answers. -/

namespace Sys2Proof.Machine

theorem cellAt_putCell_same (l : List Host.Cell) (lo a : Nat) (b : BitVec 8) (h : cellsWf lo l = true) :
    cellAt (putCell l a b) a = b := by
  induction l generalizing lo with
  | nil =>
    by_cases hb : b = unlistedByte <;> simp [putCell, cellAt, hb]
  | cons c rest ih =>
    obtain ⟨k, x⟩ := c
    simp only [cellsWf, Bool.and_eq_true, decide_eq_true_eq] at h
    obtain ⟨⟨⟨_, _⟩, _⟩, hr⟩ := h
    have absent : ∀ (l : List Host.Cell) (lo : Nat), cellsWf lo l = true → a < lo → cellAt l a = unlistedByte := by
      intro l
      induction l with
      | nil => intros; rfl
      | cons c rest ih =>
        obtain ⟨k, x⟩ := c
        intro lo h hlt
        simp only [cellsWf, Bool.and_eq_true, decide_eq_true_eq] at h
        have hne : k ≠ a := by omega
        simp [cellAt, hne, ih (k + 1) h.2 (by omega)]
    simp only [putCell]
    split
    · split
      · rename_i h1 h2
        have hne : k ≠ a := by omega
        simp [cellAt, hne, absent rest (k + 1) hr (by omega), h2]
      · simp [cellAt]
    · split
      · rename_i h1 h2
        subst h2
        split
        · rename_i h3
          rw [absent rest (a + 1) hr (by omega), h3]
        · simp [cellAt]
      · rename_i h1 h2
        have hne : k ≠ a := fun h' => h2 h'.symm
        simp [cellAt, hne, ih (k + 1) hr]

theorem cellAt_putCell_ne (l : List Host.Cell) (a a' : Nat) (b : BitVec 8) (h : a' ≠ a) :
    cellAt (putCell l a b) a' = cellAt l a' := by
  have h' : a ≠ a' := fun h0 => h h0.symm
  induction l with
  | nil => by_cases hb : b = unlistedByte <;> simp [putCell, cellAt, hb, h']
  | cons c rest ih =>
    obtain ⟨k, x⟩ := c
    simp only [putCell]
    split
    · split <;> simp [cellAt, h']
    · split
      · rename_i h1 h2
        subst h2
        split <;> simp [cellAt, h']
      · simp only [cellAt, ih]

/-- An address that reads as anything but an unlisted byte is listed. -/
theorem mem_keys_of_cellAt_ne (l : List Host.Cell) (a : Nat) (h : cellAt l a ≠ unlistedByte) : a ∈ l.map Prod.fst := by
  induction l with
  | nil => exact absurd rfl h
  | cons c rest ih =>
    obtain ⟨k, x⟩ := c
    by_cases hk : k = a
    · simp [hk]
    · simp only [cellAt, hk, if_false] at h
      exact List.mem_cons_of_mem _ (ih h)

/-- A run of listed bytes is no longer than the list, in canonical form or not. -/
theorem run_le_length_cells (l : List Host.Cell) (a n : Nat) (h : ∀ k, k < n → cellAt l (a + k) ≠ unlistedByte) :
    n ≤ l.length := by
  have hd : ((List.range n).map (a + ·)).Nodup := List.nodup_range.map fun x y hxy => by simpa using hxy
  have hs : (List.range n).map (a + ·) ⊆ l.map Prod.fst := by
    intro x hx
    obtain ⟨k, hk, rfl⟩ := List.mem_map.1 hx
    exact mem_keys_of_cellAt_ne l _ (h k (List.mem_range.1 hk))
  simpa using (hd.subperm hs).length_le

theorem cellsWf_mono {l : List Host.Cell} {lo lo' : Nat} (hle : lo ≤ lo') (h : cellsWf lo' l = true) :
    cellsWf lo l = true := by
  cases l with
  | nil => rfl
  | cons c rest =>
    obtain ⟨k, x⟩ := c
    simp only [cellsWf, Bool.and_eq_true, decide_eq_true_eq] at h ⊢
    exact ⟨⟨⟨by omega, h.1.1.2⟩, h.1.2⟩, h.2⟩

theorem cellsWf_putCell (l : List Host.Cell) (lo a : Nat) (b : BitVec 8) (h : cellsWf lo l = true) (hlo : lo ≤ a)
    (ha : a < 2 ^ 64) : cellsWf lo (putCell l a b) = true := by
  induction l generalizing lo with
  | nil =>
    by_cases hb : b = unlistedByte
    · simp [putCell, hb, cellsWf]
    · simp only [putCell, hb, if_false, cellsWf, Bool.and_eq_true, decide_eq_true_eq, bne_iff_ne, ne_eq]
      exact ⟨⟨⟨hlo, ha⟩, not_false⟩, trivial⟩
  | cons c rest ih =>
    obtain ⟨k, x⟩ := c
    simp only [cellsWf, Bool.and_eq_true, decide_eq_true_eq, bne_iff_ne, ne_eq] at h
    obtain ⟨⟨⟨hk, hk2⟩, hx⟩, hr⟩ := h
    simp only [putCell]
    split
    · split
      · simp only [cellsWf, Bool.and_eq_true, decide_eq_true_eq, bne_iff_ne, ne_eq]
        exact ⟨⟨⟨hk, hk2⟩, hx⟩, hr⟩
      · rename_i h1 hb
        simp only [cellsWf, Bool.and_eq_true, decide_eq_true_eq, bne_iff_ne, ne_eq]
        exact ⟨⟨⟨hlo, ha⟩, hb⟩, ⟨⟨by omega, hk2⟩, hx⟩, hr⟩
    · split
      · rename_i h1 h2
        subst h2
        split
        · exact cellsWf_mono (by omega) hr
        · rename_i hb
          simp only [cellsWf, Bool.and_eq_true, decide_eq_true_eq, bne_iff_ne, ne_eq]
          exact ⟨⟨⟨hlo, ha⟩, hb⟩, hr⟩
      · simp only [cellsWf, Bool.and_eq_true, decide_eq_true_eq, bne_iff_ne, ne_eq]
        exact ⟨⟨⟨hk, hk2⟩, hx⟩, ih (k + 1) hr (by omega)⟩

/-- Every write keeps the canonical form. -/
theorem Memory.wf_write {m : Memory} (h : m.wf = true) (a : Nat) (b : BitVec 8) : (m.write a b).wf = true := by
  unfold Memory.write
  split
  · rename_i ha
    exact cellsWf_putCell m.cells 0 a b h (Nat.zero_le a) ha
  · exact h

/-- So does storing a run of bytes. -/
theorem Memory.wf_writeBytes {m : Memory} (h : m.wf = true) (a : Nat) (bs : List (BitVec 8)) :
    (m.writeBytes a bs).wf = true := by
  induction bs generalizing m a with
  | nil => exact h
  | cons b bs ih => exact ih (Memory.wf_write h a b) (a + 1)

/-- A byte reads as it was last written. -/
theorem Memory.read_write_same {m : Memory} (h : m.wf = true) {a : Nat} (ha : a < 2 ^ 64) (b : BitVec 8) :
    (m.write a b).read a = b := by
  simp only [Memory.write, ha, if_true, Memory.read]
  exact cellAt_putCell_same m.cells 0 a b h

/-- A write leaves every other address alone. -/
theorem Memory.read_write_ne (m : Memory) {a a' : Nat} (b : BitVec 8) (h : a' ≠ a) :
    (m.write a b).read a' = m.read a' := by
  unfold Memory.write
  split
  · exact cellAt_putCell_ne m.cells a a' b h
  · rfl

/-- Storing a run of bytes leaves every address outside it alone. -/
theorem Memory.read_writeBytes_ne (m : Memory) (a a' : Nat) (bs : List (BitVec 8))
    (h : a' < a ∨ a + bs.length ≤ a') : (m.writeBytes a bs).read a' = m.read a' := by
  induction bs generalizing m a with
  | nil => rfl
  | cons b bs ih =>
    simp only [List.length_cons] at h
    rw [Memory.writeBytes, ih (m.write a b) (a + 1) (by omega), Memory.read_write_ne m b (by omega)]

/-! ## Multi-byte reads -/

/-- No byte of a run is unreadable exactly when all are readable. -/
theorem firstUnreadable_eq_none (s : State) (a n : Nat) :
    s.firstUnreadable a n = none ↔ ∀ k, k < n → s.readable (a + k) = true := by
  induction n generalizing a with
  | zero => simp [State.firstUnreadable]
  | succ n ih =>
    simp only [State.firstUnreadable]
    split
    · rename_i h
      rw [ih]
      constructor
      · intro h' k hk
        cases k with
        | zero => exact h
        | succ k => rw [← Nat.succ_add_eq_add_succ]; exact h' k (by omega)
      · intro h' k hk
        rw [Nat.succ_add_eq_add_succ]
        exact h' (k + 1) (by omega)
    · rename_i h
      simp only [reduceCtorEq, false_iff]
      intro h'
      exact h (h' 0 (by omega))

/-- The address a memory fault names is the lowest unreadable one of the run. -/
theorem firstUnreadable_eq_some (s : State) (a n u : Nat) :
    s.firstUnreadable a n = some u ↔
      a ≤ u ∧ u < a + n ∧ s.readable u = false ∧ ∀ b, a ≤ b → b < u → s.readable b = true := by
  induction n generalizing a with
  | zero =>
    simp only [State.firstUnreadable, reduceCtorEq, false_iff]
    omega
  | succ n ih =>
    simp only [State.firstUnreadable]
    split
    · rename_i h
      rw [ih]
      constructor
      · rintro ⟨h1, h2, h3, h4⟩
        refine ⟨by omega, by omega, h3, fun b hb hu => ?_⟩
        rcases Nat.eq_or_lt_of_le hb with rfl | hlt
        · exact h
        · exact h4 b (by omega) hu
      · rintro ⟨h1, h2, h3, h4⟩
        have : a ≠ u := by rintro rfl; simp [h] at h3
        exact ⟨by omega, by omega, h3, fun b hb hu => h4 b (by omega) hu⟩
    · rename_i h
      simp only [Option.some.injEq]
      constructor
      · rintro rfl
        exact ⟨Nat.le_refl _, by omega, by simpa using h, fun b hb hu => by omega⟩
      · rintro ⟨h1, h2, h3, h4⟩
        by_contra hne
        exact h (h4 a (Nat.le_refl _) (by omega))

/-- A read of readable bytes answers their value. -/
theorem memRead_of_readable {s : State} {a n : Nat} (h : ∀ k, k < n → s.readable (a + k) = true) :
    s.memRead a n = .ok (s.readLE a n) := by
  simp [State.memRead, (firstUnreadable_eq_none s a n).mpr h]

/-- A read with an unreadable byte answers the fault at the lowest one. -/
theorem memRead_of_unreadable {s : State} {a n u : Nat} (h : s.firstUnreadable a n = some u) :
    s.memRead a n = .error (.memory u) := by
  simp [State.memRead, h]

/-- R34: byte `j` of a multi-byte value is the byte at `a + j`. -/
theorem elem_readLE (s : State) (a : Nat) {n j : Nat} (hj : j < n) : elem 8 (s.readLE a n) j = s.mem.read (a + j) :=
  elem_pack _ hj (Nat.le_refl _)

/-- Every bit of a multi-byte value. -/
theorem readLE_getLsbD (s : State) (a n i : Nat) :
    (s.readLE a n).getLsbD i = (decide (i < 8 * n) && (s.mem.read (a + i / 8)).getLsbD (i % 8)) := by
  rw [State.readLE, pack_getLsbD (by omega)]
  by_cases h : i < 8 * n <;> simp [h]

/-- The low bytes of a multi-byte value are the bytes at the low addresses. -/
theorem readLE_setWidth (s : State) (a : Nat) {n k m : Nat} (h1 : m = 8 * k) (h2 : k ≤ n) :
    (s.readLE a n).setWidth m = (s.readLE a k).setWidth m := by
  apply BitVec.eq_of_getLsbD_eq
  intro i hi
  have h3 : i < 8 * n := by omega
  have h4 : i < 8 * k := by omega
  rw [BitVec.getLsbD_setWidth, BitVec.getLsbD_setWidth, readLE_getLsbD, readLE_getLsbD]
  simp [h3, h4]

/-- Element `j` of a memory vector is the value of its own bytes. -/
theorem elem_readLE_setWidth (s : State) (a : Nat) {w n m j : Nat} (hw : w % 8 = 0) (hj : w * (j + 1) ≤ m)
    (hm : m ≤ 8 * n) :
    elem w ((s.readLE a n).setWidth m) j = (s.readLE (a + w / 8 * j) (w / 8)).setWidth w := by
  apply BitVec.eq_of_getLsbD_eq
  intro i hi
  obtain ⟨q, rfl⟩ : ∃ q, w = 8 * q := ⟨w / 8, by omega⟩
  have hq : 8 * q / 8 = q := by omega
  have e0 : 8 * q * (j + 1) = 8 * (q * j) + 8 * q := by rw [Nat.mul_succ, Nat.mul_assoc]
  have e1 : 8 * q * j = 8 * (q * j) := Nat.mul_assoc 8 q j
  have h1 : 8 * (q * j) + i < m := by omega
  have h2 : 8 * (q * j) + i < 8 * n := by omega
  have h3 : (8 * (q * j) + i) / 8 = q * j + i / 8 := by omega
  have h4 : (8 * (q * j) + i) % 8 = i % 8 := by omega
  rw [elem_getLsbD, BitVec.getLsbD_setWidth, BitVec.getLsbD_setWidth, readLE_getLsbD, readLE_getLsbD, hq, e1, h3, h4]
  simp [hi, h1, h2, Nat.add_assoc]

end Sys2Proof.Machine
end

