-- ==== Sys2Proof/Laws/Decode.lean ====
section
/-! SUPPORT. The decoder's parts, one lemma each: the prefixes, the row of a decode key, the ModRM operand, and the fetched
bytes. Claims about decoding cite these. -/

namespace Sys2Proof

/-! ## Prefixes -/

/-- A byte that is no legacy prefix (R58). -/
def isLegacyPrefix (b : Byte) : Bool := isSegment b || b == 0x66 || b == 0x67 || b == 0xF0 || b == 0xF2 || b == 0xF3

@[simp] theorem takePrefixes_nil (p : LegacyPrefixes) : takePrefixes p [] = (p, []) := rfl

/-- The run of prefixes ends at the first byte that is none. -/
theorem takePrefixes_stop (p : LegacyPrefixes) {b : Byte} (bs : List Byte) (h : isLegacyPrefix b = false) :
    takePrefixes p (b :: bs) = (p, b :: bs) := by
  simp only [isLegacyPrefix, Bool.or_eq_false_iff, beq_eq_false_iff_ne] at h
  obtain ⟨⟨⟨⟨⟨h1, h2⟩, h3⟩, h4⟩, h5⟩, h6⟩ := h
  rw [takePrefixes, if_neg (by simp [h1]), if_neg h2, if_neg h3, if_neg h4, if_neg (by simp only [h5, h6, or_self, not_false_eq_true])]

/-- A segment override leaves no trace (decision D10). -/
theorem takePrefixes_segment (p : LegacyPrefixes) {b : Byte} (bs : List Byte) (h : isSegment b = true) :
    takePrefixes p (b :: bs) = takePrefixes p bs := by
  simp [takePrefixes, h]

@[simp] theorem takePrefixes_opSize (p : LegacyPrefixes) (bs : List Byte) :
    takePrefixes p (0x66#8 :: bs) = takePrefixes { p with opSize := true } bs := by
  simp [takePrefixes, isSegment]

@[simp] theorem takePrefixes_addrSize (p : LegacyPrefixes) (bs : List Byte) :
    takePrefixes p (0x67#8 :: bs) = takePrefixes { p with addrSize := true } bs := by
  simp [takePrefixes, isSegment]

@[simp] theorem takePrefixes_lock (p : LegacyPrefixes) (bs : List Byte) :
    takePrefixes p (0xF0#8 :: bs) = takePrefixes { p with lock := true } bs := by
  simp [takePrefixes, isSegment]

@[simp] theorem takePrefixes_repne (p : LegacyPrefixes) (bs : List Byte) :
    takePrefixes p (0xF2#8 :: bs) = takePrefixes { p with rep := true } bs := by
  simp [takePrefixes, isSegment]

@[simp] theorem takePrefixes_rep (p : LegacyPrefixes) (bs : List Byte) :
    takePrefixes p (0xF3#8 :: bs) = takePrefixes { p with rep := true } bs := by
  simp [takePrefixes, isSegment]

/-- A prefix byte, once seen, stays seen. -/
theorem takePrefixes_mono (p : LegacyPrefixes) (bs : List Byte) :
    (p.opSize = true → (takePrefixes p bs).1.opSize = true) ∧ (p.rep = true → (takePrefixes p bs).1.rep = true) ∧
    (p.lock = true → (takePrefixes p bs).1.lock = true) ∧ (p.addrSize = true → (takePrefixes p bs).1.addrSize = true) := by
  induction bs generalizing p with
  | nil => simp
  | cons b bs ih =>
    simp only [takePrefixes]
    split
    · exact ih p
    · repeat' split
      · exact ⟨fun _ => (ih _).1 rfl, (ih { p with opSize := true }).2⟩
      · exact ⟨(ih { p with addrSize := true }).1, (ih { p with addrSize := true }).2.1,
          (ih { p with addrSize := true }).2.2.1, fun _ => (ih { p with addrSize := true }).2.2.2 rfl⟩
      · exact ⟨(ih { p with lock := true }).1, (ih { p with lock := true }).2.1,
          fun _ => (ih { p with lock := true }).2.2.1 rfl, (ih { p with lock := true }).2.2.2⟩
      · exact ⟨(ih { p with rep := true }).1, fun _ => (ih { p with rep := true }).2.1 rfl,
          (ih { p with rep := true }).2.2⟩
      · exact ⟨id, id, id, id⟩

/-- The bytes after the prefixes are a tail of the bytes, and what is before them is prefixes only. -/
theorem takePrefixes_append (p : LegacyPrefixes) (bs : List Byte) :
    ∃ before, bs = before ++ (takePrefixes p bs).2 ∧ ∀ b ∈ before, isLegacyPrefix b = true := by
  induction bs generalizing p with
  | nil => exact ⟨[], rfl, by simp⟩
  | cons b bs ih =>
    by_cases hb : isLegacyPrefix b = true
    · have key : ∃ q, takePrefixes p (b :: bs) = takePrefixes q bs := by
        simp only [isLegacyPrefix, Bool.or_eq_true, beq_iff_eq] at hb
        simp only [takePrefixes]
        repeat' split
        all_goals first | exact ⟨_, rfl⟩ | (exfalso; simp_all)
      obtain ⟨q, hq⟩ := key
      obtain ⟨before, h1, h2⟩ := ih q
      refine ⟨b :: before, by rw [hq, List.cons_append, ← h1], ?_⟩
      intro c hc
      rcases List.mem_cons.1 hc with rfl | hc
      · exact hb
      · exact h2 c hc
    · rw [takePrefixes_stop p bs (by simpa using hb)]
      exact ⟨[], rfl, by simp⟩

/-! ## Rows -/

/-- Any two rows differ in a key bit that both masks look at. -/
theorem opcodeTable_differ :
    opcodeTable.Pairwise fun r r' => (r.pat ^^^ r'.pat) &&& r.mask &&& r'.mask ≠ 0 := by
  decide +kernel

/-- The row a key matches is the one that is found. -/
theorem findRow_of_match {k : BitVec 32} {r : OpcodeRow} (hr : r ∈ opcodeTable) (h : k &&& r.mask = r.pat) :
    findRow k = some r.form := by
  have apart {a b : OpcodeRow} (hd : (a.pat ^^^ b.pat) &&& a.mask &&& b.mask ≠ 0) (ha : k &&& a.mask = a.pat)
      (hb : k &&& b.mask = b.pat) : False := by
    apply hd
    rw [← ha, ← hb]
    apply BitVec.eq_of_getLsbD_eq
    intro i _
    simp only [BitVec.getLsbD_and, BitVec.getLsbD_xor]
    cases k.getLsbD i <;> cases a.mask.getLsbD i <;> cases b.mask.getLsbD i <;> simp
  have go : ∀ l : List OpcodeRow, l.Pairwise (fun r r' => (r.pat ^^^ r'.pat) &&& r.mask &&& r'.mask ≠ 0) → r ∈ l →
      (l.find? fun r => k &&& r.mask == r.pat) = some r := by
    intro l
    induction l with
    | nil => simp
    | cons a l ih =>
      intro hp hm
      rw [List.pairwise_cons] at hp
      rcases List.mem_cons.1 hm with rfl | hm
      · simp [h]
      · rw [List.find?_cons_of_neg, ih hp.2 hm]
        intro ha
        exact apart (hp.1 r hm) (by simpa using ha) h
  simp [findRow, go _ opcodeTable_differ hr]

theorem rowMatch_of_match {h : Head} {opcode modrm : Byte} {r : OpcodeRow} (hr : r ∈ opcodeTable)
    (hk : h.key opcode modrm &&& r.mask = r.pat) : h.rowMatch opcode modrm = .row r.form := by
  simp [Head.rowMatch, findRow_of_match hr hk]

/-- A key that matches no row, but would with another length code or `mod = 11`, is a reserved encoding. -/
theorem rowMatch_reserved {h : Head} {opcode modrm : Byte} {r : OpcodeRow} (hr : r ∈ opcodeTable)
    (hn : findRow (h.key opcode modrm) = none)
    (hk : ({ h with ll := if h.ll = 3 then 0 else h.ll } : Head).key opcode (modrm ||| 0xC0) &&& r.mask = r.pat) :
    h.rowMatch opcode modrm = .reserved r.form := by
  simp only [Head.rowMatch, hn, findRow_of_match hr hk]

/-! ## The ModRM operand -/

@[simp] theorem modrmByte_mod (mod : BitVec 2) (reg rm : BitVec 3) : (modrmByte mod reg rm).extractLsb' 6 2 = mod := by
  revert mod reg rm; decide

@[simp] theorem modrmByte_reg (mod : BitVec 2) (reg rm : BitVec 3) : (modrmByte mod reg rm).extractLsb' 3 3 = reg := by
  revert mod reg rm; decide

@[simp] theorem modrmByte_rm (mod : BitVec 2) (reg rm : BitVec 3) : (modrmByte mod reg rm).extractLsb' 0 3 = rm := by
  revert mod reg rm; decide

/-- The displacement's bytes give it back. -/
@[simp] theorem takeDisp32_bytes (d : BitVec 32) (rest : List Byte) :
    takeDisp32 (le32Bytes d ++ rest) = .ok d rest := by
  have h : le32Value (d.extractLsb' 0 8) (d.extractLsb' 8 8) (d.extractLsb' 16 8) (d.extractLsb' 24 8) = d := by
    apply BitVec.eq_of_getLsbD_eq
    intro i hi
    simp only [le32Value, BitVec.getLsbD_append, BitVec.getLsbD_extractLsb']
    by_cases h1 : i < 8
    · simp [h1]
    by_cases h2 : i < 16
    · have e1 : i - 8 < 8 := by omega
      have e2 : 8 + (i - 8) = i := by omega
      simp [h1, e1, e2]
    by_cases h3 : i < 24
    · have e0 : ¬ i - 8 < 8 := by omega
      have e1 : i - 8 - 8 < 8 := by omega
      have e2 : 16 + (i - 8 - 8) = i := by omega
      simp [h1, e0, e1, e2]
    · have e0 : ¬ i - 8 < 8 := by omega
      have e1 : ¬ i - 8 - 8 < 8 := by omega
      have e2 : i - 8 - 8 - 8 < 8 := by omega
      have e3 : 24 + (i - 8 - 8 - 8) = i := by omega
      simp [h1, e0, e1, e2, e3]
  simp [takeDisp32, le32Bytes, h]

/-- A register operand's encoding gives its number back. -/
theorem parseRm_encReg (m64 : Bool) (h : Head) (n : Nat) (reg : BitVec 3) (r : BitVec 5) (rest : List Byte) :
    parseRm m64 h n (modrmByte (encReg r).mod reg (encReg r).rm) ((encReg r).tail ++ rest) =
      .ok (.reg (BitVec.ofBool h.xReg ++ BitVec.ofBool h.b ++ r.extractLsb' 0 3)) rest := by
  simp [parseRm, encReg]

/-- A 4-bit number from its high bit and its low three. -/
@[simp] theorem ofBool_append_low (n : BitVec 4) : (BitVec.ofBool (n.getLsbD 3) ++ n.extractLsb' 0 3 : BitVec 4) = n := by
  revert n; decide

@[simp] theorem scale_ofBits_bits (sc : Scale) : Scale.ofBits sc.bits = sc := by
  cases sc <;> rfl

/-- The index of a SIB byte is the one it was made for. -/
theorem sibIndex_enc {m64 : Bool} {index : Option (GReg × Scale)} (b : BitVec 3)
    (hw : (match index with | none => true | some (x, _) => gprWf m64 x && decide (x.val ≠ 4)) = true) :
    sibIndex ((encIndex index).1.getLsbD 3)
      (modrmByte (encIndex index).2 ((encIndex index).1.extractLsb' 0 3) b) = index := by
  unfold sibIndex
  simp only [modrmByte_reg, modrmByte_mod, ofBool_append_low]
  cases index with
  | none => rfl
  | some p =>
    obtain ⟨r, sc⟩ := p
    simp only [Bool.and_eq_true, decide_eq_true_eq] at hw
    have h4 : (BitVec.ofFin r : BitVec 4) ≠ 4 := fun h => hw.2 (by simpa using congrArg BitVec.toNat h)
    simp only [encIndex, if_neg h4, scale_ofBits_bits]

/-- A memory operand's encoding gives it back, under a head with its extension bits. -/
theorem parseRm_enc {m64 : Bool} {h : Head} (n : Nat) (reg : BitVec 3) {m : MemRef} (rest : List Byte)
    (hw : m.wf m64 = true) (hx : h.x = m.enc.x) (hb : h.b = m.enc.b) :
    parseRm m64 h n (modrmByte m.enc.mod reg m.enc.rm) (m.enc.tail ++ rest) = .ok (.mem m) rest := by
  cases m with
  | ripRel d =>
    have hm : m64 = true := hw
    simp [parseRm, MemRef.enc, Parse.toMem, hm]
  | sum base index d =>
    simp only [MemRef.wf, Bool.and_eq_true] at hw
    cases base with
    | none =>
      have hx' : h.x = (encIndex index).1.getLsbD 3 := hx
      show parseRm m64 h n (modrmByte 0 reg 4)
        (modrmByte (encIndex index).2 ((encIndex index).1.extractLsb' 0 3) 5 :: (le32Bytes d ++ rest)) = _
      simp only [parseRm, parseSib, modrmByte_mod, modrmByte_rm, hx', sibIndex_enc _ hw.2]
      simp [Parse.toMem]
    | some r =>
      have hx' : h.x = (encIndex index).1.getLsbD 3 := hx
      have hb' : h.b = (BitVec.ofFin r : BitVec 4).getLsbD 3 := hb
      show parseRm m64 h n (modrmByte 2 reg 4)
        (modrmByte (encIndex index).2 ((encIndex index).1.extractLsb' 0 3) ((BitVec.ofFin r : BitVec 4).extractLsb' 0 3)
          :: (le32Bytes d ++ rest)) = _
      simp only [parseRm, parseSib, modrmByte_mod, modrmByte_rm, hx', hb', sibIndex_enc _ hw.2, ofBool_append_low, takeDisp]
      simp [Parse.toMem]

/-! ## Heads -/

/-- No legacy prefix, and no REX byte that would be one in the mode: decoding starts at the byte itself. -/
theorem parseHead_cons {m64 : Bool} {b : Byte} (bs : List Byte) (h : isLegacyPrefix b = false) (hr : isRex m64 b = false) :
    parseHead m64 (b :: bs) = parseEscape m64 ⟨false, false, false, false⟩ none b bs := by
  simp [parseHead, takePrefixes_stop _ _ h, hr]

theorem parseHead_legacy (m64 : Bool) (bs : List Byte) :
    parseHead m64 (0x0F :: bs) = .ok (legacyHead ⟨false, false, false, false⟩ 0x40) bs := by
  rw [parseHead_cons bs (by decide) (by cases m64 <;> decide)]
  rfl

theorem parseHead_legacy66 (m64 : Bool) (bs : List Byte) :
    parseHead m64 (0x66 :: 0x0F :: bs) = .ok (legacyHead ⟨true, false, false, false⟩ 0x40) bs := by
  have h : isRex m64 15#8 = false := by cases m64 <;> decide
  simp [parseHead, takePrefixes_stop _ _ (show isLegacyPrefix 15#8 = false by decide), h, parseEscape]

theorem isRex_not_prefix {b : Byte} (h : b.extractLsb' 4 4 = 4) : isLegacyPrefix b = false := by
  revert b; decide

theorem parseHead_rex {rex : Byte} (bs : List Byte) (h : rex.extractLsb' 4 4 = 4) :
    parseHead true (rex :: 0x0F :: bs) = .ok (legacyHead ⟨false, false, false, false⟩ rex) bs := by
  simp [parseHead, takePrefixes_stop _ _ (isRex_not_prefix h), isRex, h, parseEscape]

theorem parseHead_rex66 {rex : Byte} (bs : List Byte) (h : rex.extractLsb' 4 4 = 4) :
    parseHead true (0x66 :: rex :: 0x0F :: bs) = .ok (legacyHead ⟨true, false, false, false⟩ rex) bs := by
  simp [parseHead, takePrefixes_stop _ _ (isRex_not_prefix h), isRex, h, parseEscape]

theorem parseHead_vex {m64 : Bool} {b1 b2 : Byte} (bs : List Byte) (h : isLongPrefix m64 b1 = true)
    (hx : extensionsOk m64 (vexHead false b1 b2) = true) :
    parseHead m64 (0xC4 :: b1 :: b2 :: bs) = .ok (vexHead false b1 b2) bs := by
  rw [parseHead_cons _ (by decide) (by cases m64 <;> decide)]
  simp [parseEscape, h, acceptHead, hx]

theorem parseHead_vex2 {m64 : Bool} {b1 : Byte} (bs : List Byte) (h : isLongPrefix m64 b1 = true)
    (hx : extensionsOk m64 (vex2Head false b1) = true) :
    parseHead m64 (0xC5 :: b1 :: bs) = .ok (vex2Head false b1) bs := by
  rw [parseHead_cons _ (by decide) (by cases m64 <;> decide)]
  simp [parseEscape, h, acceptHead, hx]

theorem parseHead_evex {m64 : Bool} {p0 p1 p2 : Byte} (bs : List Byte) (h : isLongPrefix m64 p0 = true)
    (hx : extensionsOk m64 (evexHead false p0 p1 p2) = true) :
    parseHead m64 (0x62 :: p0 :: p1 :: p2 :: bs) = .ok (evexHead false p0 p1 p2) bs := by
  rw [parseHead_cons _ (by decide) (by cases m64 <;> decide)]
  simp [parseEscape, h, acceptHead, hx]

/-! ## The whole decoder, once its parts are known -/

/-- A form without an immediate. -/
theorem decode_of_row {m64 : Bool} {bs rest rest' : List Byte} {h : Head} {op modrm : Byte} {f : Form} {rm : RmField}
    (hh : parseHead m64 bs = .ok h (op :: modrm :: rest)) (hm : h.map = 1) (ho : opcodeInScope op = true)
    (hr : h.rowMatch op modrm = .row f) (hi : f.hasImm = false)
    (hp : parseRm m64 h (f.disp8Scale h.bc) modrm rest = .ok rm rest') :
    decode m64 bs = finishDecode (.row f) h (modrm.extractLsb' 3 3) rm 0 (bs.length - rest'.length) := by
  simp [decode, hh, hm, ho, hr, decodeOperands, hp, hi]

/-- A form with an immediate. -/
theorem decode_of_row_imm {m64 : Bool} {bs rest rest' : List Byte} {h : Head} {op modrm imm : Byte} {f : Form} {rm : RmField}
    (hh : parseHead m64 bs = .ok h (op :: modrm :: rest)) (hm : h.map = 1) (ho : opcodeInScope op = true)
    (hr : h.rowMatch op modrm = .row f) (hi : f.hasImm = true)
    (hp : parseRm m64 h (f.disp8Scale h.bc) modrm rest = .ok rm (imm :: rest')) :
    decode m64 bs = finishDecode (.row f) h (modrm.extractLsb' 3 3) rm imm (bs.length - rest'.length) := by
  simp [decode, hh, hm, ho, hr, decodeOperands, hp, hi]

/-! ## More bytes

Bytes after the ones decoding needs change nothing, and the bytes that follow the prefixes are at most 13. -/

/-- What a part of the decoder leaves when `r` follows its bytes. -/
def Parse.appendRest {α : Type} (r : List Byte) : Parse α → Parse α
  | .ok a rest => .ok a (rest ++ r)
  | .truncated => .truncated
  | .refused why => .refused why

/-- A part of the decoder that reads at most `n` bytes off the front: fewer bytes may be too few, and more change nothing. -/
structure ReadsFront {α : Type} (n : Nat) (f : List Byte → Parse α) : Prop where
  short : ∀ bs, f bs = .truncated → bs.length < n
  used : ∀ bs a rest, f bs = .ok a rest → bs.length ≤ rest.length + n
  append : ∀ bs r, f bs ≠ .truncated → f (bs ++ r) = (f bs).appendRest r

theorem takeDisp32_reads : ReadsFront 4 takeDisp32 where
  short bs h := by
    match bs with
    | [] | [_] | [_, _] | [_, _, _] => simp
    | _ :: _ :: _ :: _ :: _ => simp [takeDisp32] at h
  used bs a rest h := by
    match bs with
    | [] | [_] | [_, _] | [_, _, _] => simp
    | _ :: _ :: _ :: _ :: _ => simp [takeDisp32] at h; simp [h]
  append bs r h := by
    match bs with
    | [] | [_] | [_, _] | [_, _, _] => simp [takeDisp32] at h
    | _ :: _ :: _ :: _ :: _ => rfl

theorem takeDisp_reads (mod : BitVec 2) (n : Nat) : ReadsFront 4 (takeDisp mod n) := by
  by_cases h0 : mod = 0
  · subst h0; exact ⟨fun _ h => by simp [takeDisp] at h, fun _ _ _ h => by simp [takeDisp] at h; simp [h], fun _ _ _ => rfl⟩
  by_cases h1 : mod = 1
  · subst h1
    refine ⟨fun bs h => ?_, fun bs _ _ h => ?_, fun bs _ h => ?_⟩ <;> cases bs <;> simp_all [takeDisp, takeDisp8, Parse.appendRest]
  · have h : takeDisp mod n = takeDisp32 := by funext bs; rw [takeDisp, if_neg h0, if_neg h1]
    exact h ▸ takeDisp32_reads

theorem ReadsFront.toMem {n : Nat} {f : List Byte → Parse (BitVec 32)} (h : ReadsFront n f) (g : BitVec 32 → MemRef) :
    ReadsFront n fun bs => (f bs).toMem g where
  short bs hb := h.short bs (by cases hf : f bs <;> simp_all [Parse.toMem])
  used bs a rest hb := by
    cases hf : f bs <;> simp only [hf, Parse.toMem, reduceCtorEq, Parse.ok.injEq] at hb
    exact hb.2 ▸ h.used bs _ _ hf
  append bs r hb := by
    have := h.append bs r (by intro hf; simp [hf, Parse.toMem] at hb)
    cases hf : f bs <;> simp_all [Parse.toMem, Parse.appendRest]

theorem ReadsFront.mono {α : Type} {m n : Nat} {f : List Byte → Parse α} (h : ReadsFront m f) (hmn : m ≤ n) : ReadsFront n f :=
  ⟨fun bs hb => (h.short bs hb).trans_le hmn, fun bs a rest hb => (h.used bs a rest hb).trans (by omega), h.append⟩

/-- A byte, then what depends on it. -/
theorem ReadsFront.cons {α : Type} {n : Nat} {f : List Byte → Parse α} (h0 : f [] = .truncated)
    (h : ∀ b, ReadsFront n fun bs => f (b :: bs)) : ReadsFront (n + 1) f where
  short bs hb := by
    cases bs with
    | nil => simp
    | cons b bs => simpa using (h b).short bs hb
  used bs a rest hb := by
    cases bs with
    | nil => simp
    | cons b bs => have := (h b).used bs a rest hb; simp only [List.length_cons]; omega
  append bs r hb := by
    cases bs with
    | nil => exact absurd h0 hb
    | cons b bs => exact (h b).append bs r hb

theorem readsFront_ok {α : Type} (a : α) : ReadsFront 0 fun bs => .ok a bs :=
  ⟨fun _ h => by simp at h, fun _ _ _ h => by simp at h; simp [h], fun _ _ _ => rfl⟩

theorem readsFront_refused {α : Type} (why : DecodeRefusal) : ReadsFront 0 fun _ => (.refused why : Parse α) :=
  ⟨fun _ h => by simp at h, fun _ _ _ h => by simp at h, fun _ _ _ => rfl⟩

theorem parseSib_reads (h : Head) (mod : BitVec 2) (n : Nat) : ReadsFront 5 (parseSib h mod n) := by
  refine ReadsFront.cons rfl fun sib => ?_
  simp only [parseSib]
  split
  · exact takeDisp32_reads.toMem _
  · exact (takeDisp_reads mod n).toMem _

theorem parseRm_reads (m64 : Bool) (h : Head) (n : Nat) (modrm : Byte) : ReadsFront 5 (parseRm m64 h n modrm) := by
  unfold parseRm
  dsimp only
  split
  · exact (readsFront_ok _).mono (by omega)
  split
  · exact parseSib_reads h _ n
  split
  · exact (takeDisp32_reads.toMem _).mono (by omega)
  · exact ((takeDisp_reads _ n).toMem _).mono (by omega)

theorem acceptHead_reads (m64 : Bool) (h : Head) : ReadsFront 0 (acceptHead m64 h) := by
  unfold acceptHead
  split
  · exact readsFront_ok h
  · exact readsFront_refused _

theorem parseEscape_reads (m64 : Bool) (p : LegacyPrefixes) (rex : Option Byte) (c : Byte) :
    ReadsFront 3 (parseEscape m64 p rex c) := by
  unfold parseEscape
  dsimp only
  split
  · split
    · exact (readsFront_refused _).mono (by omega)
    · exact (readsFront_ok _).mono (by omega)
  split
  · refine (ReadsFront.cons (n := 0) rfl fun b1 => ?_).mono (by omega)
    dsimp only
    split
    · exact acceptHead_reads m64 _
    · exact readsFront_refused _
  split
  · refine (ReadsFront.cons (n := 1) rfl fun b1 => ?_).mono (by omega)
    dsimp only
    split
    · exact ReadsFront.cons rfl fun b2 => acceptHead_reads m64 _
    · exact (readsFront_refused _).mono (by omega)
  split
  · refine ReadsFront.cons rfl fun p0 => ?_
    dsimp only
    split
    · exact ReadsFront.cons rfl fun p1 => ReadsFront.cons rfl fun p2 => acceptHead_reads m64 _
    · exact (readsFront_refused _).mono (by omega)
  · exact (readsFront_refused _).mono (by omega)

/-- What follows the legacy prefixes, up to the opcode byte. -/
def afterPrefixes (m64 : Bool) (p : LegacyPrefixes) : List Byte → Parse Head
  | [] => .truncated
  | b :: bs =>
    if isRex m64 b then
      match bs with
      | [] => .truncated
      | c :: bs => parseEscape m64 p (some b) c bs
    else parseEscape m64 p none b bs

theorem afterPrefixes_reads (m64 : Bool) (p : LegacyPrefixes) : ReadsFront 5 (afterPrefixes m64 p) := by
  refine ReadsFront.cons rfl fun b => ?_
  simp only [afterPrefixes]
  split
  · exact ReadsFront.cons rfl fun c => parseEscape_reads m64 p _ c
  · exact (parseEscape_reads m64 p _ b).mono (by omega)

theorem parseHead_eq (m64 : Bool) (bs : List Byte) :
    parseHead m64 bs = if (takePrefixes ⟨false, false, false, false⟩ bs).1.addrSize then .refused .addressSize
      else afterPrefixes m64 (takePrefixes ⟨false, false, false, false⟩ bs).1
        (takePrefixes ⟨false, false, false, false⟩ bs).2 := by
  unfold parseHead afterPrefixes
  rfl

theorem takePrefixes_append_right (p : LegacyPrefixes) (bs r : List Byte) (h : (takePrefixes p bs).2 ≠ []) :
    takePrefixes p (bs ++ r) = ((takePrefixes p bs).1, (takePrefixes p bs).2 ++ r) := by
  induction bs generalizing p with
  | nil => exact absurd rfl h
  | cons b bs ih =>
    simp only [List.cons_append, takePrefixes] at h ⊢
    repeat' split
    all_goals first | rfl | (apply ih; simp_all)

/-- Prefixes to the end of the bytes: the rest of them go on from there. -/
theorem takePrefixes_append_nil (p : LegacyPrefixes) (bs r : List Byte) (h : (takePrefixes p bs).2 = []) :
    takePrefixes p (bs ++ r) = takePrefixes (takePrefixes p bs).1 r := by
  induction bs generalizing p with
  | nil => rfl
  | cons b bs ih =>
    simp only [List.cons_append, takePrefixes] at h ⊢
    repeat' split
    all_goals first | (apply ih; simp_all) | (exfalso; simp_all)

/-- Everything before the opcode byte is at most 5 bytes after the legacy prefixes. -/
theorem parseHead_short {m64 : Bool} {bs : List Byte} (h : parseHead m64 bs = .truncated) :
    (takePrefixes ⟨false, false, false, false⟩ bs).2.length < 5 := by
  rw [parseHead_eq] at h
  split at h
  · cases h
  · exact (afterPrefixes_reads m64 _).short _ h

theorem parseHead_used {m64 : Bool} {bs rest : List Byte} {h : Head} (hh : parseHead m64 bs = .ok h rest) :
    (takePrefixes ⟨false, false, false, false⟩ bs).2.length ≤ rest.length + 5 := by
  rw [parseHead_eq] at hh
  split at hh
  · cases hh
  · exact (afterPrefixes_reads m64 _).used _ _ _ hh

theorem parseHead_append {m64 : Bool} {bs : List Byte} (r : List Byte) (h : parseHead m64 bs ≠ .truncated) :
    parseHead m64 (bs ++ r) = (parseHead m64 bs).appendRest r := by
  rw [parseHead_eq] at h ⊢
  rw [parseHead_eq m64 bs]
  by_cases hn : (takePrefixes ⟨false, false, false, false⟩ bs).2 = []
  · rw [takePrefixes_append_nil _ _ _ hn]
    by_cases ha : (takePrefixes ⟨false, false, false, false⟩ bs).1.addrSize = true
    · rw [if_pos ((takePrefixes_mono _ r).2.2.2 ha), if_pos ha]; rfl
    · rw [if_neg ha, hn] at h; exact absurd rfl h
  · rw [takePrefixes_append_right _ _ _ hn]
    dsimp only
    split
    · rfl
    · rename_i ha
      rw [if_neg ha] at h
      exact (afterPrefixes_reads m64 _).append _ r h

theorem decodeOperands_short {m64 : Bool} {total : Nat} {row : RowMatch} {f : Form} {h : Head} {modrm : Byte}
    {bs : List Byte} (hd : decodeOperands m64 total row f h modrm bs = .truncated) : bs.length < 6 := by
  have fin {rm : RmField} {imm : Byte} {len : Nat} : finishDecode row h (modrm.extractLsb' 3 3) rm imm len ≠ .truncated := by
    unfold finishDecode
    repeat' split
    all_goals simp
  have reads := parseRm_reads m64 h (f.disp8Scale h.bc) modrm
  unfold decodeOperands at hd
  cases hp : parseRm m64 h (f.disp8Scale h.bc) modrm bs with
  | truncated => have := reads.short _ hp; omega
  | refused why => simp [hp] at hd
  | ok rm rest =>
    simp only [hp] at hd
    have hu := reads.used _ _ _ hp
    split at hd
    · split at hd
      · simp only [List.length_nil] at hu; omega
      · exact absurd hd fin
    · exact absurd hd fin

theorem decodeOperands_append {m64 : Bool} {total : Nat} {row : RowMatch} {f : Form} {h : Head} {modrm : Byte}
    {bs : List Byte} (r : List Byte) (hd : decodeOperands m64 total row f h modrm bs ≠ .truncated) :
    decodeOperands m64 (total + r.length) row f h modrm (bs ++ r) = decodeOperands m64 total row f h modrm bs := by
  unfold decodeOperands at hd ⊢
  have hp := (parseRm_reads m64 h (f.disp8Scale h.bc) modrm).append bs r (by intro hp; simp [hp] at hd)
  rw [hp]
  cases hq : parseRm m64 h (f.disp8Scale h.bc) modrm bs with
  | truncated => simp [hq] at hd
  | refused why => rfl
  | ok rm rest =>
    simp only [hq, Parse.appendRest] at hd ⊢
    split
    · rename_i hi
      cases rest with
      | nil => simp [hi] at hd
      | cons imm rest => simp [Nat.add_sub_add_right]
    · simp [Nat.add_sub_add_right]

/-- An instruction not ended by its bytes has at most 12 of them after its legacy prefixes. -/
theorem decode_short {m64 : Bool} {bs : List Byte} (h : decode m64 bs = .truncated) :
    (takePrefixes ⟨false, false, false, false⟩ bs).2.length < 13 := by
  unfold decode at h
  cases hp : parseHead m64 bs with
  | truncated => have := parseHead_short hp; omega
  | refused why => simp [hp] at h
  | ok hd rest =>
    have hu := parseHead_used hp
    simp only [hp] at h
    cases rest with
    | nil => simp only [List.length_nil] at hu; omega
    | cons opcode rest =>
      simp only at h
      split at h
      · cases rest with
        | nil => simp only [List.length_cons, List.length_nil] at hu; omega
        | cons modrm rest =>
          simp only [List.length_cons] at hu
          simp only at h
          split at h
          · cases h
          · have := decodeOperands_short h; omega
          · have := decodeOperands_short h; omega
      · cases h

/-- Bytes after an instruction do not change how it decodes. -/
theorem decode_append {m64 : Bool} {bs : List Byte} (r : List Byte) (h : decode m64 bs ≠ .truncated) :
    decode m64 (bs ++ r) = decode m64 bs := by
  unfold decode at h ⊢
  have hp := parseHead_append (m64 := m64) r (bs := bs) (by intro hp; simp [hp] at h)
  rw [hp]
  cases hq : parseHead m64 bs with
  | truncated => simp [hq] at h
  | refused why => rfl
  | ok hd rest =>
    simp only [hq, Parse.appendRest] at h ⊢
    cases rest with
    | nil => simp at h
    | cons opcode rest =>
      simp only [List.cons_append] at h ⊢
      split
      · rename_i ho
        rw [if_pos ho] at h
        cases rest with
        | nil => simp at h
        | cons modrm rest =>
          simp only [List.cons_append, List.length_append] at h ⊢
          split
          · rfl
          · rename_i hm; rw [hm] at h; exact decodeOperands_append r h
          · rename_i hm; rw [hm] at h; exact decodeOperands_append r h
      · rfl

end Sys2Proof

namespace Sys2Proof.Machine

/-! ## Fetched bytes -/

theorem fetchBytes_length_le (s : State) (a n : Nat) : (s.fetchBytes a n).length ≤ n := by
  induction n generalizing a with
  | zero => simp [State.fetchBytes]
  | succ n ih =>
    unfold State.fetchBytes
    split
    · simpa using ih (a + 1)
    · simp

/-- Readable bytes that stand at `a` are the front of what a fetch reads there. -/
theorem fetchBytes_eq_append (s : State) (a n : Nat) (bs : List Sys2Proof.Byte) (hn : bs.length ≤ n)
    (hr : ∀ k, k < bs.length → s.readable (a + k) = true)
    (hb : ∀ k (h : k < bs.length), s.mem.read (a + k) = bs[k]) : ∃ rest, s.fetchBytes a n = bs ++ rest := by
  induction bs generalizing a n with
  | nil => exact ⟨_, rfl⟩
  | cons b bs ih =>
    cases n with
    | zero => simp at hn
    | succ n =>
      have h0 := hr 0 (by simp)
      have hb0 := hb 0 (by simp)
      rw [Nat.add_zero] at h0 hb0
      obtain ⟨rest, h⟩ := ih (a + 1) n (by simpa using hn)
        (fun k hk => by have := hr (k + 1) (by simpa using hk); rwa [Nat.add_right_comm, Nat.add_assoc])
        (fun k hk => by
          have := hb (k + 1) (by simpa using hk)
          rw [Nat.add_right_comm, Nat.add_assoc, this]
          simp)
      refine ⟨rest, ?_⟩
      simp only [State.fetchBytes, h0, if_true, h, hb0, List.getElem_cons_zero, List.cons_append]

/-- A fetch reads all it asks for, or ends before an unreadable byte. -/
theorem fetchBytes_length_or (s : State) (a n : Nat) :
    (s.fetchBytes a n).length = n ∨ s.readable (a + (s.fetchBytes a n).length) = false := by
  induction n generalizing a with
  | zero => exact .inl rfl
  | succ n ih =>
    unfold State.fetchBytes
    split
    · rw [List.length_cons, Nat.add_comm _ 1, ← Nat.add_assoc]
      exact (ih (a + 1)).imp (by omega) id
    · rename_i h
      exact .inr (by simpa using h)

theorem getElem_fetchBytes (s : State) (a n k : Nat) (h : k < (s.fetchBytes a n).length) :
    (s.fetchBytes a n)[k] = s.mem.read (a + k) := by
  induction n generalizing a k with
  | zero => simp [State.fetchBytes] at h
  | succ n ih =>
    by_cases hr : s.readable a = true
    · cases k with
      | zero => simp [State.fetchBytes, hr]
      | succ k =>
        have e : s.fetchBytes a (n + 1) = s.mem.read a :: s.fetchBytes (a + 1) n := by simp [State.fetchBytes, hr]
        simp only [e, List.getElem_cons_succ]
        rw [ih, Nat.add_right_comm, Nat.add_assoc]
    · simp [State.fetchBytes, hr] at h

/-- A longer fetch goes on where a whole shorter one ended. -/
theorem fetchBytes_add (s : State) (a m n : Nat) (h : (s.fetchBytes a m).length = m) :
    s.fetchBytes a (m + n) = s.fetchBytes a m ++ s.fetchBytes (a + m) n := by
  induction m generalizing a with
  | zero => simp [State.fetchBytes]
  | succ m ih =>
    by_cases hr : s.readable a = true
    · simp only [State.fetchBytes, hr, if_true, List.length_cons, Nat.add_right_cancel_iff] at h
      rw [Nat.add_right_comm]
      simp only [State.fetchBytes, hr, if_true, ih _ h, List.cons_append]
      rw [Nat.add_right_comm, Nat.add_assoc a m 1]
    · simp [State.fetchBytes, hr] at h

/-- A fetch that ended before an unreadable byte reads no more when it asks for more. -/
theorem fetchBytes_stop (s : State) (a m n : Nat) (h : (s.fetchBytes a m).length < m) (hmn : m ≤ n) :
    s.fetchBytes a n = s.fetchBytes a m := by
  induction m generalizing a n with
  | zero => simp [State.fetchBytes] at h
  | succ m ih =>
    obtain ⟨n, rfl⟩ : ∃ k, n = k + 1 := ⟨n - 1, by omega⟩
    by_cases hr : s.readable a = true
    · simp only [State.fetchBytes, hr, if_true, List.length_cons, Nat.add_lt_add_iff_right] at h
      simp only [State.fetchBytes, hr, if_true, ih _ n h (by omega)]
    · simp [State.fetchBytes, hr]

/-- Every instruction ends within as many bytes as the cells of memory and 13 more, if they are readable: its prefixes are
listed bytes. -/
theorem decode_window {s : State} {m64 : Bool} {a n : Nat} (hn : s.mem.cells.length + 13 ≤ n)
    (h : (s.fetchBytes a n).length = n) : Sys2Proof.decode m64 (s.fetchBytes a n) ≠ .truncated := by
  intro hd
  have hs := Sys2Proof.decode_short hd
  obtain ⟨before, hb, hp⟩ := Sys2Proof.takePrefixes_append ⟨false, false, false, false⟩ (s.fetchBytes a n)
  have hl := congrArg List.length hb
  rw [List.length_append, h] at hl
  have : before.length ≤ s.mem.cells.length := by
    refine run_le_length_cells _ a _ fun k hk h0 => ?_
    have hk' : k < (s.fetchBytes a n).length := by omega
    have e := getElem_fetchBytes s a n k hk'
    have e' : (s.fetchBytes a n)[k] = before[k] := (List.getElem_of_eq hb hk').trans (List.getElem_append_left hk)
    have hz : before[k] = unlistedByte := by rw [← e', e]; exact h0
    exact absurd (hp _ (List.getElem_mem hk)) (by rw [hz]; decide)
  omega

end Sys2Proof.Machine
end

