-- ==== Sys2Proof/Laws/State.lean ====
section
/-! SUPPORT. The fields of a state after each update, all true by unfolding: cite these instead of unfolding a record
update. -/

namespace Sys2Proof.Machine

open Sys2Proof (MmReg VReg OpMask GReg)

variable (s : State) (d : MmReg) (x : BitVec 64) (e : VReg) (y : BitVec 512)

/-! ## Writing an MMX register -/

@[simp] theorem writeMm_launch : (s.writeMm d x).launch = s.launch := rfl
@[simp] theorem writeMm_v : (s.writeMm d x).v = s.v := rfl
@[simp] theorem writeMm_k : (s.writeMm d x).k = s.k := rfl
@[simp] theorem writeMm_gpr : (s.writeMm d x).gpr = s.gpr := rfl
@[simp] theorem writeMm_pc : (s.writeMm d x).pc = s.pc := rfl
@[simp] theorem writeMm_ilen : (s.writeMm d x).ilen = s.ilen := rfl
@[simp] theorem writeMm_mem : (s.writeMm d x).mem = s.mem := rfl

/-- A register reads as it was last written. -/
@[simp] theorem readMm_writeMm_same : (s.writeMm d x).readMm d = x := by
  simp [State.readMm, State.writeMm, Vector.get_eq_getElem]

/-- A write leaves every other register alone. -/
theorem readMm_writeMm_ne {r : MmReg} (h : r ≠ d) : (s.writeMm d x).readMm r = s.readMm r := by
  have : (d : Nat) ≠ r := fun h' => h (Fin.ext h'.symm)
  simp [State.readMm, State.writeMm, Vector.get_eq_getElem, this]

@[simp] theorem readV_writeMm (r : VReg) : (s.writeMm d x).readV r = s.readV r := rfl

/-! ## Writing a vector register -/

@[simp] theorem writeV_launch : (s.writeV e y).launch = s.launch := rfl
@[simp] theorem writeV_mm : (s.writeV e y).mm = s.mm := rfl
@[simp] theorem writeV_k : (s.writeV e y).k = s.k := rfl
@[simp] theorem writeV_gpr : (s.writeV e y).gpr = s.gpr := rfl
@[simp] theorem writeV_pc : (s.writeV e y).pc = s.pc := rfl
@[simp] theorem writeV_ilen : (s.writeV e y).ilen = s.ilen := rfl
@[simp] theorem writeV_mem : (s.writeV e y).mem = s.mem := rfl

/-- A register reads as it was last written. -/
@[simp] theorem readV_writeV_same : (s.writeV e y).readV e = y := by
  simp [State.readV, State.writeV, Vector.get_eq_getElem]

/-- A write leaves every other register alone. -/
theorem readV_writeV_ne {r : VReg} (h : r ≠ e) : (s.writeV e y).readV r = s.readV r := by
  have : (e : Nat) ≠ r := fun h' => h (Fin.ext h'.symm)
  simp [State.readV, State.writeV, Vector.get_eq_getElem, this]

@[simp] theorem readMm_writeV (r : MmReg) : (s.writeV e y).readMm r = s.readMm r := rfl

/-! ## The two vector writes as a whole-register write -/

theorem writeXmmKeep_eq (z : BitVec 128) : s.writeXmmKeep e z = s.writeV e ((s.readV e).extractLsb' 128 384 ++ z) := rfl

theorem writeLowZero_eq {n : Nat} (z : BitVec n) : s.writeLowZero e z = s.writeV e (z.setWidth 512) := rfl

/-! ## The latched length and the program counter -/

variable (n : Nat) (p : BitVec 64)

@[simp] theorem setLen_launch : ({ s with ilen := n } : State).launch = s.launch := rfl
@[simp] theorem setLen_mm : ({ s with ilen := n } : State).mm = s.mm := rfl
@[simp] theorem setLen_v : ({ s with ilen := n } : State).v = s.v := rfl
@[simp] theorem setLen_k : ({ s with ilen := n } : State).k = s.k := rfl
@[simp] theorem setLen_gpr : ({ s with ilen := n } : State).gpr = s.gpr := rfl
@[simp] theorem setLen_pc : ({ s with ilen := n } : State).pc = s.pc := rfl
@[simp] theorem setLen_mem : ({ s with ilen := n } : State).mem = s.mem := rfl
@[simp] theorem setLen_readMm (r : MmReg) : ({ s with ilen := n } : State).readMm r = s.readMm r := rfl
@[simp] theorem setLen_readV (r : VReg) : ({ s with ilen := n } : State).readV r = s.readV r := rfl
@[simp] theorem setLen_addrLimit : ({ s with ilen := n } : State).addrLimit = s.addrLimit := rfl

@[simp] theorem setPc_launch : ({ s with pc := p } : State).launch = s.launch := rfl
@[simp] theorem setPc_mm : ({ s with pc := p } : State).mm = s.mm := rfl
@[simp] theorem setPc_v : ({ s with pc := p } : State).v = s.v := rfl
@[simp] theorem setPc_k : ({ s with pc := p } : State).k = s.k := rfl
@[simp] theorem setPc_gpr : ({ s with pc := p } : State).gpr = s.gpr := rfl
@[simp] theorem setPc_ilen : ({ s with pc := p } : State).ilen = s.ilen := rfl
@[simp] theorem setPc_mem : ({ s with pc := p } : State).mem = s.mem := rfl
@[simp] theorem setPc_readMm (r : MmReg) : ({ s with pc := p } : State).readMm r = s.readMm r := rfl
@[simp] theorem setPc_readV (r : VReg) : ({ s with pc := p } : State).readV r = s.readV r := rfl
@[simp] theorem setPc_readGpr (r : GReg) : ({ s with pc := p } : State).readGpr r = s.readGpr r := rfl
@[simp] theorem setPc_readK (k : OpMask) : ({ s with pc := p } : State).readK k = s.readK k := rfl
@[simp] theorem setPc_addrLimit : ({ s with pc := p } : State).addrLimit = s.addrLimit := rfl

/-! ## What depends on the parameters alone -/

@[simp] theorem writeMm_addrLimit : (s.writeMm d x).addrLimit = s.addrLimit := rfl
@[simp] theorem writeV_addrLimit : (s.writeV e y).addrLimit = s.addrLimit := rfl
@[simp] theorem writeMm_readGpr (r : GReg) : (s.writeMm d x).readGpr r = s.readGpr r := rfl
@[simp] theorem writeV_readGpr (r : GReg) : (s.writeV e y).readGpr r = s.readGpr r := rfl
@[simp] theorem writeV_readK (k : OpMask) : (s.writeV e y).readK k = s.readK k := rfl

end Sys2Proof.Machine
end

