-- ==== Sys2Proof/Laws/Ops.lean ====
section
/-! SUPPORT. One lemma for each shared operation that says all it can do, when it completes, and when it does not: cite
these instead of unfolding the operation. -/

namespace Sys2Proof.Machine

open Sys2Proof (Form MmReg VReg RegMem FvSource Masking)

/-! ## Completion, operands, forms -/

/-- Completion answers a next state exactly when `pc + len` is an address, and then only `pc` has changed. -/
theorem complete_eq_next {s t : State} :
    s.complete = .next t ↔ s.pc.toNat + s.ilen < s.addrLimit ∧ t = { s with pc := s.pc + BitVec.ofNat 64 s.ilen } := by
  unfold State.complete
  split
  · rename_i h
    simp [h, eq_comm]
  · rename_i h
    simp [h]

theorem complete_of_lt {s : State} (h : s.pc.toNat + s.ilen < s.addrLimit) :
    s.complete = .next { s with pc := s.pc + BitVec.ofNat 64 s.ilen } := by
  simp [State.complete, h]

theorem complete_of_ge {s : State} (h : s.addrLimit ≤ s.pc.toNat + s.ilen) : s.complete = .refused .pcPastTop := by
  simp [State.complete, Nat.not_lt.mpr h]

theorem complete_ne_fault {s : State} {f : Fault} : s.complete ≠ .fault f := by
  unfold State.complete
  split <;> simp

/-- Raising a fault answers a fault, with the `pc` of the faulting instruction. -/
theorem raise_eq_fault (s : State) (k : FaultKind) : ∃ f, s.raise k = .fault f ∧ f.pc = s.pc := by
  cases k <;> exact ⟨_, rfl, rfl⟩

theorem raise_ne_next {s t : State} {k : FaultKind} : s.raise k ≠ .next t := by
  cases k <;> simp [State.raise]

@[simp] theorem withOperand_ok {α : Type} (s : State) (a : α) (k : α → Result) : s.withOperand (.ok a) k = k a := rfl

@[simp] theorem withOperand_error {α : Type} (s : State) (e : FaultKind) (k : α → Result) :
    s.withOperand (.error e) k = s.raise e := rfl

/-- Going on with an operand answers a next state only where the operand was read. -/
theorem withOperand_eq_next {α : Type} {s t : State} {x : Except FaultKind α} {k : α → Result} :
    s.withOperand x k = .next t ↔ ∃ a, x = .ok a ∧ k a = .next t := by
  cases x with
  | error e => simp [raise_ne_next]
  | ok a => simp

/-- A form answers a next state only where it may execute. -/
theorem withForm_eq_next {s t : State} {f : Form} {k : Result} :
    s.withForm f k = .next t ↔ s.canExecute f = true ∧ k = .next t := by
  unfold State.withForm
  split
  · rename_i h; simp [h]
  · rename_i h; simp [h, raise_ne_next]

theorem withForm_of_can {s : State} {f : Form} (h : s.canExecute f = true) (k : Result) : s.withForm f k = k := by
  simp [State.withForm, h]

/-- A form that may not execute raises the invalid-opcode fault whatever its operands are. -/
theorem withForm_of_cannot {s : State} {f : Form} (h : s.canExecute f = false) (k : Result) :
    s.withForm f k = .fault (.invalidOpcode s.pc) := by
  simp [State.withForm, h, State.raise]

/-! ## The four shared operations -/

/-- All a completed MMX form does. -/
theorem mmxShift_eq_next {f : Form} {w : Nat} {d : MmReg} {cnt : Except FaultKind (BitVec 64)} {s t : State} :
    mmxShift f w d cnt s = .next t ↔
      s.canExecute f = true ∧ s.pc.toNat + s.ilen < s.addrLimit ∧ ∃ c, cnt = .ok c ∧
        t = { s.writeMm d (shiftVec w 64 (s.readMm d) c) with pc := s.pc + BitVec.ofNat 64 s.ilen } := by
  unfold mmxShift
  rw [withForm_eq_next, withOperand_eq_next]
  simp only [complete_eq_next, writeMm_pc, writeMm_ilen, writeMm_addrLimit]
  constructor
  · rintro ⟨h1, c, h2, h3, h4⟩
    exact ⟨h1, h3, c, h2, h4⟩
  · rintro ⟨h1, h3, c, h2, h4⟩
    exact ⟨h1, c, h2, h3, h4⟩

/-- All a completed legacy SSE2 form does. -/
theorem sseShift_eq_next {f : Form} {w : Nat} {d : VReg} {cnt : Except FaultKind (BitVec 64)} {s t : State} :
    sseShift f w d cnt s = .next t ↔
      s.canExecute f = true ∧ s.pc.toNat + s.ilen < s.addrLimit ∧ ∃ c, cnt = .ok c ∧
        t = { s.writeXmmKeep d (shiftVec w 128 (s.readLow d 128) c) with pc := s.pc + BitVec.ofNat 64 s.ilen } := by
  unfold sseShift
  rw [withForm_eq_next, withOperand_eq_next]
  simp only [complete_eq_next, writeXmmKeep_eq, writeV_pc, writeV_ilen, writeV_addrLimit]
  constructor
  · rintro ⟨h1, c, h2, h3, h4⟩
    exact ⟨h1, h3, c, h2, h4⟩
  · rintro ⟨h1, h3, c, h2, h4⟩
    exact ⟨h1, c, h2, h3, h4⟩

/-- All a completed VEX form does. -/
theorem vexShift_eq_next {f : Form} {w n : Nat} {d s1 : VReg} {cnt : Except FaultKind (BitVec 64)} {s t : State} :
    vexShift f w n d s1 cnt s = .next t ↔
      s.canExecute f = true ∧ s.pc.toNat + s.ilen < s.addrLimit ∧ ∃ c, cnt = .ok c ∧
        t = { s.writeLowZero d (shiftVec w n (s.readLow s1 n) c) with pc := s.pc + BitVec.ofNat 64 s.ilen } := by
  unfold vexShift
  rw [withForm_eq_next, withOperand_eq_next]
  simp only [complete_eq_next, writeLowZero_eq, writeV_pc, writeV_ilen, writeV_addrLimit]
  constructor
  · rintro ⟨h1, c, h2, h3, h4⟩
    exact ⟨h1, h3, c, h2, h4⟩
  · rintro ⟨h1, h3, c, h2, h4⟩
    exact ⟨h1, c, h2, h3, h4⟩

/-- All a completed EVEX form does. -/
theorem evexShift_eq_next {f : Form} {w n : Nat} {d : VReg} {m : Masking} {src : Except FaultKind (BitVec n)}
    {cnt : Except FaultKind (BitVec 64)} {s t : State} :
    evexShift f w n d m src cnt s = .next t ↔
      s.canExecute f = true ∧ s.pc.toNat + s.ilen < s.addrLimit ∧ ∃ x, src = .ok x ∧ ∃ c, cnt = .ok c ∧
        t = { s.writeLowZero d (maskApply w n (shiftVec w n x c) (s.readLow d n) (s.maskBits m) m.z) with
              pc := s.pc + BitVec.ofNat 64 s.ilen } := by
  unfold evexShift
  rw [withForm_eq_next, withOperand_eq_next]
  simp only [withOperand_eq_next, complete_eq_next, writeLowZero_eq, writeV_pc, writeV_ilen, writeV_addrLimit]
  constructor
  · rintro ⟨h1, x, h2, c, h3, h4, h5⟩
    exact ⟨h1, h4, x, h2, c, h3, h5⟩
  · rintro ⟨h1, h4, x, h2, c, h3, h5⟩
    exact ⟨h1, x, h2, c, h3, h4, h5⟩

/-! ## Operands that are there -/

theorem countMm_ok {s : State} {c : RegMem MmReg} (h : s.OperandReadable 8 c) :
    ∃ x, s.countMm c = .ok x ∧ x.toNat = s.mmCount c := by
  cases c with
  | reg r => exact ⟨_, rfl, rfl⟩
  | mem m => exact ⟨_, memRead_of_readable h, rfl⟩

theorem countM128_ok {s : State} {a : Nat} (h : s.RangeReadable a 16) :
    ∃ x, s.countM128 a = .ok x ∧ x.toNat = (s.readLE a 8).toNat := by
  refine ⟨(s.readLE a 16).setWidth 64, by simp only [State.countM128, memRead_of_readable h], ?_⟩
  rw [readLE_setWidth s a (k := 8) (by omega) (by omega)]
  exact congrArg BitVec.toNat (BitVec.setWidth_eq (s.readLE a 8))

theorem countXmm_ok {s : State} {c : RegMem VReg} (h : s.OperandReadable 16 c) :
    ∃ x, s.countXmm c = .ok x ∧ x.toNat = s.xmmCount c := by
  cases c with
  | reg r =>
    refine ⟨_, rfl, ?_⟩
    simp [State.readLow, State.xmmCount]
  | mem m => exact countM128_ok h

theorem countXmmAligned_ok {s : State} {c : RegMem VReg} (h : s.OperandReadable 16 c) (ha : s.OperandAligned c) :
    ∃ x, s.countXmmAligned c = .ok x ∧ x.toNat = s.xmmCount c := by
  cases c with
  | reg r =>
    refine ⟨_, rfl, ?_⟩
    simp [State.readLow, State.xmmCount]
  | mem m =>
    have ha' : s.ea m % 16 = 0 := ha
    simp only [State.countXmmAligned, ha', if_true]
    exact countM128_ok h

theorem loadVec_of_readable {s : State} {n a : Nat} (h : s.RangeReadable a (n / 8)) :
    s.loadVec n a = .ok ((s.readLE a (n / 8)).setWidth n) := by
  simp [State.loadVec, memRead_of_readable h]

/-- The data source of an FVMI form, element by element. -/
theorem source_ok {s : State} {w n : Nat} {src : RegMem VReg} (hw : w % 8 = 0) (hn : n % 8 = 0)
    (h : s.OperandReadable (n / 8) src) :
    ∃ x, s.source n src = .ok x ∧ ∀ j, j < n / w → elem w x j = s.sourceElem w src j := by
  cases src with
  | reg r => exact ⟨_, rfl, fun j hj => elem_setWidth_div n _ hj⟩
  | mem m =>
    refine ⟨_, loadVec_of_readable h, fun j hj => ?_⟩
    have hle : w * (j + 1) ≤ n := le_trans (Nat.mul_le_mul_left w hj) (Nat.mul_div_le n w)
    exact elem_readLE_setWidth s _ hw hle (by omega)

/-- The data source of an FVI form, element by element. -/
theorem fvSource_ok {s : State} {w n : Nat} {src : FvSource} (hw : w % 8 = 0) (hn : n % 8 = 0)
    (h : s.FvReadable w n src) :
    ∃ x, s.fvSource w n src = .ok x ∧ ∀ j, j < n / w → elem w x j = s.fvElem w src j := by
  cases src with
  | reg r => exact ⟨_, rfl, fun j hj => elem_setWidth_div n _ hj⟩
  | mem m =>
    refine ⟨_, loadVec_of_readable h, fun j hj => ?_⟩
    have hle : w * (j + 1) ≤ n := le_trans (Nat.mul_le_mul_left w hj) (Nat.mul_div_le n w)
    exact elem_readLE_setWidth s _ hw hle (by omega)
  | bcst m =>
    refine ⟨_, by simp only [State.fvSource, loadVec_of_readable (h : s.RangeReadable (s.ea m) (w / 8))]; rfl, ?_⟩
    intro j hj
    exact elem_broadcast _ hj

/-- What the masking selects, bit by bit of the mask value. -/
theorem maskBits_getLsbD (s : State) (m : Masking) {j : Nat} (hj : j < 64) :
    (s.maskBits m).getLsbD j = s.selects m j := by
  cases m with
  | unmasked =>
    simp only [State.maskBits, State.selects, BitVec.getLsbD_allOnes, hj, decide_true]
  | merging k => rfl
  | zeroing k => rfl

/-! ## A form whose operands are there comes down to completion -/

theorem mmxShift_of_ok {f : Form} {w : Nat} {d : MmReg} {s : State} {c : BitVec 64} (h : s.canExecute f = true) :
    mmxShift f w d (.ok c) s = (s.writeMm d (shiftVec w 64 (s.readMm d) c)).complete := withForm_of_can h _

theorem sseShift_of_ok {f : Form} {w : Nat} {d : VReg} {s : State} {c : BitVec 64} (h : s.canExecute f = true) :
    sseShift f w d (.ok c) s = (s.writeXmmKeep d (shiftVec w 128 (s.readLow d 128) c)).complete := withForm_of_can h _

theorem vexShift_of_ok {f : Form} {w n : Nat} {d s1 : VReg} {s : State} {c : BitVec 64} (h : s.canExecute f = true) :
    vexShift f w n d s1 (.ok c) s = (s.writeLowZero d (shiftVec w n (s.readLow s1 n) c)).complete := withForm_of_can h _

theorem evexShift_of_ok {f : Form} {w n : Nat} {d : VReg} {m : Masking} {s : State} {x : BitVec n} {c : BitVec 64}
    (h : s.canExecute f = true) :
    evexShift f w n d m (.ok x) (.ok c) s =
      (s.writeLowZero d (maskApply w n (shiftVec w n x c) (s.readLow d n) (s.maskBits m) m.z)).complete :=
  withForm_of_can h _

/-! ## An operand that was read was readable -/

theorem readable_of_memRead {s : State} {a n : Nat} {v : BitVec (8 * n)} (h : s.memRead a n = .ok v) :
    s.RangeReadable a n := by
  cases hu : s.firstUnreadable a n with
  | none => exact (firstUnreadable_eq_none s a n).1 hu
  | some u => rw [memRead_of_unreadable hu] at h; cases h

theorem readable_of_countM128 {s : State} {a : Nat} {x : BitVec 64} (h : s.countM128 a = .ok x) : s.RangeReadable a 16 := by
  unfold State.countM128 at h
  split at h
  · rename_i v hv
    exact readable_of_memRead hv
  · cases h

theorem readable_of_loadVec {s : State} {n a : Nat} {x : BitVec n} (h : s.loadVec n a = .ok x) :
    s.RangeReadable a (n / 8) := by
  unfold State.loadVec at h
  split at h
  · rename_i v hv
    exact readable_of_memRead hv
  · cases h

theorem readable_of_countMm {s : State} {c : RegMem MmReg} {x : BitVec 64} (h : s.countMm c = .ok x) :
    s.OperandReadable 8 c := by
  cases c with
  | reg r => trivial
  | mem m => exact readable_of_memRead h

theorem readable_of_countXmm {s : State} {c : RegMem VReg} {x : BitVec 64} (h : s.countXmm c = .ok x) :
    s.OperandReadable 16 c := by
  cases c with
  | reg r => trivial
  | mem m => exact readable_of_countM128 h

theorem readable_of_countXmmAligned {s : State} {c : RegMem VReg} {x : BitVec 64} (h : s.countXmmAligned c = .ok x) :
    s.OperandReadable 16 c ∧ s.OperandAligned c := by
  cases c with
  | reg r => exact ⟨trivial, trivial⟩
  | mem m =>
    simp only [State.countXmmAligned] at h
    split at h
    · exact ⟨readable_of_countM128 h, by assumption⟩
    · cases h

theorem readable_of_source {s : State} {n : Nat} {src : RegMem VReg} {x : BitVec n} (h : s.source n src = .ok x) :
    s.OperandReadable (n / 8) src := by
  cases src with
  | reg r => trivial
  | mem m => exact readable_of_loadVec h

theorem readable_of_fvSource {s : State} {w n : Nat} {src : FvSource} {x : BitVec n} (h : s.fvSource w n src = .ok x) :
    s.FvReadable w n src := by
  cases src with
  | reg r => trivial
  | mem m => exact readable_of_loadVec h
  | bcst m =>
    simp only [State.fvSource] at h
    split at h
    · rename_i e he
      exact readable_of_loadVec he
    · cases h

/-! ## Frames -/

theorem onlyMm_of_write (s : State) (d : MmReg) (x p : BitVec 64) : OnlyMm d s { s.writeMm d x with pc := p } :=
  ⟨fun _ hr => readMm_writeMm_ne s d x hr, fun _ => rfl, fun _ => rfl, fun _ => rfl, rfl, rfl, fun _ => rfl⟩

theorem onlyVec_of_write (s : State) (d : VReg) (x : BitVec 512) (p : BitVec 64) :
    OnlyVec d s { s.writeV d x with pc := p } :=
  ⟨fun _ hr => readV_writeV_ne s d x hr, fun _ => rfl, fun _ => rfl, fun _ => rfl, rfl, rfl, fun _ => rfl⟩

end Sys2Proof.Machine
end

