-- ==== Sys2Proof/Laws/Exec.lean ====
section
/-! SUPPORT. What executing any instruction can do, said once for all 34 arms: claims over every instruction cite these and
never take `exec` apart. -/

namespace Sys2Proof.Machine

open Sys2Proof (Instr Form MmReg VReg Masking)

/-- All that a completed instruction does to its destination, by class: an MMX register, bits 127:0 of a vector register, or
bits `VL - 1:0` of one with the bits above zeroed; and `pc` moves past the instruction. -/
inductive Effect (i : Instr) (s t : State) : Prop where
  | mmx (cls : i.form.info.cls = .mmx) (d : MmReg) (dest : i.dest = .mm d) (x : BitVec 64)
      (eq : t = { s.writeMm d x with pc := s.pc + BitVec.ofNat 64 s.ilen })
  | sse (cls : i.form.info.cls = .sse) (d : VReg) (dest : i.dest = .vec d) (x : BitVec 128)
      (eq : t = { s.writeXmmKeep d x with pc := s.pc + BitVec.ofNat 64 s.ilen })
  | wide (cls : i.form.info.cls = .vex ∨ i.form.info.cls = .evex) (d : VReg) (dest : i.dest = .vec d)
      (x : BitVec i.form.vl)
      (eq : t = { s.writeLowZero d x with pc := s.pc + BitVec.ofNat 64 s.ilen })

/-- What completion gives: the form could execute, the instruction ends inside the address space, and its effect. -/
structure Completed (i : Instr) (s t : State) : Prop where
  can : s.canExecute i.form = true
  room : s.pc.toNat + s.ilen < s.addrLimit
  effect : Effect i s t

theorem mmxShift_completed {i : Instr} {w : Nat} {d : MmReg} {cnt : Except FaultKind (BitVec 64)} {s t : State}
    (hc : i.form.info.cls = .mmx) (hd : i.dest = .mm d)
    (h : mmxShift i.form w d cnt s = .next t) : Completed i s t := by
  obtain ⟨h1, h2, _, -, h3⟩ := mmxShift_eq_next.1 h
  exact ⟨h1, h2, .mmx hc d hd _ h3⟩

theorem sseShift_completed {i : Instr} {w : Nat} {d : VReg} {cnt : Except FaultKind (BitVec 64)} {s t : State}
    (hc : i.form.info.cls = .sse) (hd : i.dest = .vec d)
    (h : sseShift i.form w d cnt s = .next t) : Completed i s t := by
  obtain ⟨h1, h2, _, -, h3⟩ := sseShift_eq_next.1 h
  exact ⟨h1, h2, .sse hc d hd _ h3⟩

theorem vexShift_completed {i : Instr} {w : Nat} {d s1 : VReg} {cnt : Except FaultKind (BitVec 64)} {s t : State}
    (hc : i.form.info.cls = .vex) (hd : i.dest = .vec d)
    (h : vexShift i.form w i.form.vl d s1 cnt s = .next t) : Completed i s t := by
  obtain ⟨h1, h2, _, -, h3⟩ := vexShift_eq_next.1 h
  exact ⟨h1, h2, .wide (.inl hc) d hd _ h3⟩

theorem evexShift_completed {i : Instr} {w : Nat} {d : VReg} {m : Masking} {src : Except FaultKind (BitVec i.form.vl)}
    {cnt : Except FaultKind (BitVec 64)} {s t : State} (hc : i.form.info.cls = .evex)
    (hd : i.dest = .vec d) (h : evexShift i.form w i.form.vl d m src cnt s = .next t) : Completed i s t := by
  obtain ⟨h1, h2, _, -, _, -, h3⟩ := evexShift_eq_next.1 h
  exact ⟨h1, h2, .wide (.inr hc) d hd _ h3⟩

/-- What any instruction that completes has done. -/
theorem exec_completed {i : Instr} {s t : State} (h : exec i s = .next t) : Completed i s t := by
  cases i
  case psrawMm | psrawMmImm | psradMm | psradMmImm => exact mmxShift_completed rfl rfl h
  case psrawXmm | psrawXmmImm | psradXmm | psradXmmImm => exact sseShift_completed rfl rfl h
  case vpsrawXmm | vpsrawXmmImm | vpsradXmm | vpsradXmmImm | vpsrawYmm | vpsrawYmmImm | vpsradYmm | vpsradYmmImm =>
    exact vexShift_completed rfl rfl h
  case evexVpsraw128 | evexVpsraw256 | evexVpsraw512 | evexVpsraw128Imm | evexVpsraw256Imm | evexVpsraw512Imm |
      evexVpsrad128 | evexVpsrad256 | evexVpsrad512 | evexVpsrad128Imm | evexVpsrad256Imm | evexVpsrad512Imm |
      evexVpsraq128 | evexVpsraq256 | evexVpsraq512 | evexVpsraq128Imm | evexVpsraq256Imm | evexVpsraq512Imm =>
    exact evexShift_completed rfl rfl h

/-! ## Stops -/

theorem withOperand_fault_pc {α : Type} {s : State} {x : Except FaultKind α} {k : α → Result} {f : Fault}
    (hk : ∀ a, k a = .fault f → f.pc = s.pc) (h : s.withOperand x k = .fault f) : f.pc = s.pc := by
  cases x with
  | error e =>
    obtain ⟨g, hg, hp⟩ := raise_eq_fault s e
    rw [withOperand_error, hg] at h
    cases h
    exact hp
  | ok a => exact hk a h

theorem withForm_fault_pc {s : State} {f : Form} {k : Result} {e : Fault} (hk : k = .fault e → e.pc = s.pc)
    (h : s.withForm f k = .fault e) : e.pc = s.pc := by
  unfold State.withForm at h
  split at h
  · exact hk h
  · cases h
    rfl

/-- A fault of an instruction records the `pc` it was executed at. -/
theorem exec_fault_pc {i : Instr} {s : State} {f : Fault} (h : exec i s = .fault f) : f.pc = s.pc := by
  have one {s' : State} : s'.complete = .fault f → f.pc = s.pc := fun h => absurd h complete_ne_fault
  have mid {α : Type} {x : Except FaultKind α} {k : α → State} :
      s.withOperand x (fun a => (k a).complete) = .fault f → f.pc = s.pc := withOperand_fault_pc fun _ => one
  cases i <;> exact withForm_fault_pc mid h

/-! ## The step -/

/-- The end of an over-long fetch is a fault of the instruction at `pc`. -/
theorem fetchLong_eq (s : State) : s.fetchLong = s.raise .generalProtection ∨
    ∃ u, s.fetchLong = s.raise (.memory u) ∧ s.pc.toNat ≤ u ∧ u < s.addrLimit := by
  unfold State.fetchLong
  dsimp only
  split
  · split
    · exact .inr ⟨_, rfl, Nat.le_add_right _ _, by assumption⟩
    · exact .inl rfl
  all_goals exact .inl rfl

theorem fetchLong_ne_next {s t : State} : s.fetchLong ≠ .next t := by
  rcases fetchLong_eq s with h | ⟨u, h, -⟩ <;> rw [h] <;> exact raise_ne_next

/-- A completed step fetched an instruction and completed it. -/
theorem step_eq_next {s t : State} (h : step s = .next t) :
    ∃ i n, Sys2Proof.decode s.launch.mode64 (s.fetchBytes s.pc.toNat maxLength) = .ok i n ∧
      exec i { s with ilen := n } = .next t := by
  unfold step at h
  split at h
  · rename_i i s' he
    simp only [State.fetch] at he
    split at he <;> cases he
    exact ⟨_, _, by assumption, h⟩
  · rename_i r he
    subst h
    simp only [State.fetch] at he
    split at he <;> simp only [Fetched.stop.injEq, reduceCtorEq] at he
    · exact absurd he raise_ne_next
    · exact absurd he raise_ne_next
    · unfold State.fetchShort at he
      split at he
      · exact absurd he fetchLong_ne_next
      · split at he
        · cases he
        · exact absurd he raise_ne_next

end Sys2Proof.Machine
end

