-- ==== Sys2Proof/Laws/PerInstr.lean ====
section
/-! SUPPORT. Per-instruction statements, one lemma for each constructor of `Instr`. -/

namespace Sys2Proof.Laws

open Sys2Proof

/-- The encoder writes at most 5 bytes after a ModRM byte that names a memory operand: SIB and a 32-bit displacement. -/
theorem enc_tail_le (m : MemRef) : m.enc.tail.length ≤ 5 := by
  cases m with
  | ripRel d => simp [MemRef.enc, le32Bytes]
  | sum base index d => cases base <;> simp [MemRef.enc, le32Bytes]

theorem encMm_tail_le (c : RegMem MmReg) : c.encMm.tail.length ≤ 5 := by
  cases c with
  | reg r => simp [RegMem.encMm, encReg]
  | mem m => exact enc_tail_le m

theorem encVec_tail_le (c : RegMem VReg) : c.encVec.tail.length ≤ 5 := by
  cases c with
  | reg r => simp [RegMem.encVec, encReg]
  | mem m => exact enc_tail_le m

theorem fvEnc_tail_le (c : FvSource) : c.enc.tail.length ≤ 5 := by
  cases c with
  | reg r => simp [FvSource.enc, encReg]
  | mem m => exact enc_tail_le m
  | bcst m => exact enc_tail_le m

theorem legacyBytes_length (op66 : Bool) (op : Byte) (reg : BitVec 5) (e : RmCode) (imm : List Byte) :
    (legacyBytes op66 op reg e imm).length =
      (if op66 then 1 else 0) + (if reg.getLsbD 3 || e.x || e.b then 1 else 0) + 3 + e.tail.length + imm.length := by
  unfold legacyBytes rexBytes opcodeBytes
  split <;> split <;> simp <;> omega

theorem vexBytes_length (l : Bool) (op : Byte) (reg vvvv : BitVec 5) (e : RmCode) (imm : List Byte) :
    (vexBytes l op reg vvvv e imm).length = 5 + e.tail.length + imm.length := by
  simp [vexBytes, opcodeBytes]
  omega

theorem evexBytes_length (w : Bool) (ll : BitVec 2) (bc : Bool) (m : Masking) (op : Byte) (reg vvvv : BitVec 5)
    (e : RmCode) (imm : List Byte) :
    (evexBytes w ll bc m op reg vvvv e imm).length = 6 + e.tail.length + imm.length := by
  simp [evexBytes, opcodeBytes]
  omega

/-- `encode` writes 3 to 12 bytes, fewer than the 15 an instruction may have (30_encoding.md R51). -/
def EncodeLength.Statement (i : Instr) : Prop := 3 ≤ (encode i).length ∧ (encode i).length ≤ 12

theorem legacy_bound {op66 : Bool} {op : Byte} {reg : BitVec 5} {e : RmCode} {imm : List Byte} (ht : e.tail.length ≤ 5)
    (hi : imm.length ≤ 1) : 3 ≤ (legacyBytes op66 op reg e imm).length ∧ (legacyBytes op66 op reg e imm).length ≤ 12 := by
  rw [legacyBytes_length]
  split <;> split <;> omega

theorem vex_bound {l : Bool} {op : Byte} {reg vvvv : BitVec 5} {e : RmCode} {imm : List Byte} (ht : e.tail.length ≤ 5)
    (hi : imm.length ≤ 1) : 3 ≤ (vexBytes l op reg vvvv e imm).length ∧ (vexBytes l op reg vvvv e imm).length ≤ 12 := by
  rw [vexBytes_length]
  omega

theorem evex_bound {w : Bool} {ll : BitVec 2} {bc : Bool} {m : Masking} {op : Byte} {reg vvvv : BitVec 5} {e : RmCode}
    {imm : List Byte} (ht : e.tail.length ≤ 5) (hi : imm.length ≤ 1) :
    3 ≤ (evexBytes w ll bc m op reg vvvv e imm).length ∧ (evexBytes w ll bc m op reg vvvv e imm).length ≤ 12 := by
  rw [evexBytes_length]
  omega

theorem reg_tail_le (r : BitVec 5) : (encReg r).tail.length ≤ 5 := by simp [encReg]

theorem EncodeLength.psrawMm d c : EncodeLength.Statement (.psrawMm d c) :=
  legacy_bound (encMm_tail_le _) (by simp)

theorem EncodeLength.psrawXmm d c : EncodeLength.Statement (.psrawXmm d c) :=
  legacy_bound (encVec_tail_le _) (by simp)

theorem EncodeLength.psrawMmImm d imm : EncodeLength.Statement (.psrawMmImm d imm) :=
  legacy_bound (reg_tail_le _) (by simp)

theorem EncodeLength.psrawXmmImm d imm : EncodeLength.Statement (.psrawXmmImm d imm) :=
  legacy_bound (reg_tail_le _) (by simp)

theorem EncodeLength.psradMm d c : EncodeLength.Statement (.psradMm d c) :=
  legacy_bound (encMm_tail_le _) (by simp)

theorem EncodeLength.psradXmm d c : EncodeLength.Statement (.psradXmm d c) :=
  legacy_bound (encVec_tail_le _) (by simp)

theorem EncodeLength.psradMmImm d imm : EncodeLength.Statement (.psradMmImm d imm) :=
  legacy_bound (reg_tail_le _) (by simp)

theorem EncodeLength.psradXmmImm d imm : EncodeLength.Statement (.psradXmmImm d imm) :=
  legacy_bound (reg_tail_le _) (by simp)

theorem EncodeLength.vpsrawXmm d s1 c : EncodeLength.Statement (.vpsrawXmm d s1 c) :=
  vex_bound (encVec_tail_le _) (by simp)

theorem EncodeLength.vpsrawXmmImm d s1 imm : EncodeLength.Statement (.vpsrawXmmImm d s1 imm) :=
  vex_bound (reg_tail_le _) (by simp)

theorem EncodeLength.vpsradXmm d s1 c : EncodeLength.Statement (.vpsradXmm d s1 c) :=
  vex_bound (encVec_tail_le _) (by simp)

theorem EncodeLength.vpsradXmmImm d s1 imm : EncodeLength.Statement (.vpsradXmmImm d s1 imm) :=
  vex_bound (reg_tail_le _) (by simp)

theorem EncodeLength.vpsrawYmm d s1 c : EncodeLength.Statement (.vpsrawYmm d s1 c) :=
  vex_bound (encVec_tail_le _) (by simp)

theorem EncodeLength.vpsrawYmmImm d s1 imm : EncodeLength.Statement (.vpsrawYmmImm d s1 imm) :=
  vex_bound (reg_tail_le _) (by simp)

theorem EncodeLength.vpsradYmm d s1 c : EncodeLength.Statement (.vpsradYmm d s1 c) :=
  vex_bound (encVec_tail_le _) (by simp)

theorem EncodeLength.vpsradYmmImm d s1 imm : EncodeLength.Statement (.vpsradYmmImm d s1 imm) :=
  vex_bound (reg_tail_le _) (by simp)

theorem EncodeLength.evexVpsraw128 d s1 c m : EncodeLength.Statement (.evexVpsraw128 d s1 c m) :=
  evex_bound (encVec_tail_le _) (by simp)

theorem EncodeLength.evexVpsraw256 d s1 c m : EncodeLength.Statement (.evexVpsraw256 d s1 c m) :=
  evex_bound (encVec_tail_le _) (by simp)

theorem EncodeLength.evexVpsraw512 d s1 c m : EncodeLength.Statement (.evexVpsraw512 d s1 c m) :=
  evex_bound (encVec_tail_le _) (by simp)

theorem EncodeLength.evexVpsraw128Imm d src imm m : EncodeLength.Statement (.evexVpsraw128Imm d src imm m) :=
  evex_bound (encVec_tail_le _) (by simp)

theorem EncodeLength.evexVpsraw256Imm d src imm m : EncodeLength.Statement (.evexVpsraw256Imm d src imm m) :=
  evex_bound (encVec_tail_le _) (by simp)

theorem EncodeLength.evexVpsraw512Imm d src imm m : EncodeLength.Statement (.evexVpsraw512Imm d src imm m) :=
  evex_bound (encVec_tail_le _) (by simp)

theorem EncodeLength.evexVpsrad128 d s1 c m : EncodeLength.Statement (.evexVpsrad128 d s1 c m) :=
  evex_bound (encVec_tail_le _) (by simp)

theorem EncodeLength.evexVpsrad256 d s1 c m : EncodeLength.Statement (.evexVpsrad256 d s1 c m) :=
  evex_bound (encVec_tail_le _) (by simp)

theorem EncodeLength.evexVpsrad512 d s1 c m : EncodeLength.Statement (.evexVpsrad512 d s1 c m) :=
  evex_bound (encVec_tail_le _) (by simp)

theorem EncodeLength.evexVpsrad128Imm d src imm m : EncodeLength.Statement (.evexVpsrad128Imm d src imm m) :=
  evex_bound (fvEnc_tail_le _) (by simp)

theorem EncodeLength.evexVpsrad256Imm d src imm m : EncodeLength.Statement (.evexVpsrad256Imm d src imm m) :=
  evex_bound (fvEnc_tail_le _) (by simp)

theorem EncodeLength.evexVpsrad512Imm d src imm m : EncodeLength.Statement (.evexVpsrad512Imm d src imm m) :=
  evex_bound (fvEnc_tail_le _) (by simp)

theorem EncodeLength.evexVpsraq128 d s1 c m : EncodeLength.Statement (.evexVpsraq128 d s1 c m) :=
  evex_bound (encVec_tail_le _) (by simp)

theorem EncodeLength.evexVpsraq256 d s1 c m : EncodeLength.Statement (.evexVpsraq256 d s1 c m) :=
  evex_bound (encVec_tail_le _) (by simp)

theorem EncodeLength.evexVpsraq512 d s1 c m : EncodeLength.Statement (.evexVpsraq512 d s1 c m) :=
  evex_bound (encVec_tail_le _) (by simp)

theorem EncodeLength.evexVpsraq128Imm d src imm m : EncodeLength.Statement (.evexVpsraq128Imm d src imm m) :=
  evex_bound (fvEnc_tail_le _) (by simp)

theorem EncodeLength.evexVpsraq256Imm d src imm m : EncodeLength.Statement (.evexVpsraq256Imm d src imm m) :=
  evex_bound (fvEnc_tail_le _) (by simp)

theorem EncodeLength.evexVpsraq512Imm d src imm m : EncodeLength.Statement (.evexVpsraq512Imm d src imm m) :=
  evex_bound (fvEnc_tail_le _) (by simp)

end Sys2Proof.Laws
end

