-- ==== Sys2Proof/Machine/Flags.lean ====
section
/-! DEFINITION. The flags: "Flags Affected: None" (10_state.md R26) and "Numeric Exceptions: None" (R27). No form in scope reads
or writes a status flag, a condition code or a numeric status or control register, and the spec keeps them out of the
model's state, so there is no flag computation to define. Completion is the only change every form makes beside its
destination register. -/
end

