-- ==== Sys2Proof/Tests/Slice0.lean ====
section
/-! SUPPORT. The model's own tests: ill-formed terms the checks refuse, words the decoder reads, one step of every form, the
stops, and for every statement with hypotheses a state and operands that meet them. Expected values are the spec's own:
95_test_vectors.md section 2 (the section is named at each group), or worked from the rule named. -/

namespace Sys2Proof.Tests

-- One theorem after another: their kernel evaluations side by side would need more threads than memory allows.
set_option Elab.async false

open Sys2Proof Sys2Proof.Machine

/-! ## Helpers -/

/-- A running machine: the reset state at `pc = 0x1000` inside a 4-byte instruction. -/
def base : State := { State.reset with pc := 0x1000, ilen := 4 }

/-- The same outside 64-bit mode. -/
def base32 : State := { base with launch := { resetLaunch with mode64 := false } }

/-- The same with some bytes unreadable. -/
def hole (a n : Nat) : State := { base with launch := { resetLaunch with unreadable := [⟨a, n⟩] } }

/-- The same with `n` bytes of the number `x` at `a`, least significant first. -/
def bytesAt (s : State) (a n x : Nat) : State :=
  { s with mem := s.mem.writeBytes a ((List.range n).map fun k => BitVec.ofNat 8 (x / 256 ^ k)) }

/-- The same with an opmask register. -/
def mask (s : State) (k : Fin 8) (x : BitVec 64) : State := { s with k := s.k.set k.val x k.isLt }

def vecAfter (r : Result) (d : VReg) : Option (BitVec 512) :=
  match r with
  | .next t => some (t.readV d)
  | _ => none

def mmAfter (r : Result) (d : MmReg) : Option (BitVec 64) :=
  match r with
  | .next t => some (t.readMm d)
  | _ => none

def pcAfter (r : Result) : Option (BitVec 64) :=
  match r with
  | .next t => some t.pc
  | _ => none

def faultOf (r : Result) : Option Fault :=
  match r with
  | .fault f => some f
  | _ => none

def stopOf (r : Result) : Option Refusal :=
  match r with
  | .refused f => some f
  | _ => none

theorem next_of_pcAfter {r : Result} {p : BitVec 64} (h : pcAfter r = some p) : ∃ t, r = .next t := by
  cases r with
  | next t => exact ⟨t, rfl⟩
  | fault f => cases h
  | refused f => cases h

theorem fault_of_faultOf {r : Result} {f : Fault} (h : faultOf r = some f) : r = .fault f := by
  cases r with
  | next t => cases h
  | fault g => cases h; rfl
  | refused g => cases h

/-- A memory operand at a fixed address. -/
def at_ (a : BitVec 32) : MemRef := .sum none none a

/-- A memory operand at `[rax]`. -/
def rax : MemRef := .sum (some 0) none 0

/-- Every element of a vector the same. -/
def every (w : Nat) (e : BitVec w) : BitVec 512 := broadcast w 512 e

/-! ## Well-formedness: each check refuses an ill-formed term -/

theorem test_wf_legacy_xmm_above_15 : (Instr.psrawXmmImm 16 1).wf true = false := by decide

theorem test_wf_legacy_xmm_above_7_outside_64 : (Instr.psrawXmm 8 (.reg 0)).wf false = false ∧ (Instr.psrawXmm 8 (.reg 0)).wf true = true := by decide

theorem test_wf_legacy_count_register : (Instr.psradXmm 0 (.reg 16)).wf true = false := by decide

theorem test_wf_vex_source_above_15 : (Instr.vpsrawYmm 0 16 (.reg 0)).wf true = false := by decide

theorem test_wf_evex_reaches_31_in_64 : (Instr.evexVpsraq512 31 16 (.reg 31) .unmasked).wf true = true ∧ (Instr.evexVpsraq512 0 8 (.reg 0) .unmasked).wf false = false := by decide

theorem test_wf_base_register_outside_64 : (Instr.psrawMm 0 (.mem (.sum (some 8) none 0))).wf false = false := by decide

theorem test_wf_index_register_outside_64 : (Instr.psrawMm 0 (.mem (.sum none (some (8, .s1)) 0))).wf false = false := by decide

theorem test_wf_index_4_is_no_index : (Instr.psrawMm 0 (.mem (.sum none (some (4, .s1)) 0))).wf true = false := by decide

theorem test_wf_pc_relative_outside_64 : (Instr.psradMm 0 (.mem (.ripRel 0))).wf false = false := by decide

theorem test_wf_fvmi_source : (Instr.evexVpsraw256Imm 0 (.mem (.ripRel 0)) 1 .unmasked).wf false = false := by decide

theorem test_wf_fvi_register : (Instr.evexVpsrad256Imm 0 (.reg 8) 1 .unmasked).wf false = false := by decide

theorem test_wf_fvi_memory : (Instr.evexVpsrad256Imm 0 (.mem (.ripRel 0)) 1 .unmasked).wf false = false := by decide

theorem test_wf_fvi_broadcast : (Instr.evexVpsraq128Imm 0 (.bcst (.ripRel 0)) 1 .unmasked).wf false = false := by decide

/-! ## Decoding: words written out from 95_test_vectors.md section 2.8, every constructor at least once -/

theorem test_decode_mmx :
    decode true [0x0F, 0xE1, 0xC1] = .ok (.psrawMm 0 (.reg 1)) 3 ∧
    decode true [0x0F, 0xE1, 0x00] = .ok (.psrawMm 0 (.mem rax)) 3 ∧
    decode true [0x0F, 0x71, 0xE0, 0x03] = .ok (.psrawMmImm 0 3) 4 ∧
    decode true [0x0F, 0xE2, 0xC1] = .ok (.psradMm 0 (.reg 1)) 3 ∧
    decode true [0x0F, 0x72, 0xE7, 0x1F] = .ok (.psradMmImm 7 31) 4 ∧
    decode true [0x41, 0x0F, 0x71, 0xE0, 0x03] = .ok (.psrawMmImm 0 3) 5 ∧
    decode true [0x48, 0x0F, 0xE1, 0xC1] = .ok (.psrawMm 0 (.reg 1)) 4 ∧
    decode true [0x2E, 0x0F, 0xE1, 0x00] = .ok (.psrawMm 0 (.mem rax)) 4 := by decide +kernel

theorem test_decode_sse2 :
    decode true [0x66, 0x0F, 0xE1, 0x00] = .ok (.psrawXmm 0 (.mem rax)) 4 ∧
    decode true [0x66, 0x0F, 0xE1, 0xC1] = .ok (.psrawXmm 0 (.reg 1)) 4 ∧
    decode true [0x66, 0x0F, 0x71, 0xE0, 0x04] = .ok (.psrawXmmImm 0 4) 5 ∧
    decode true [0x66, 0x41, 0x0F, 0x71, 0xE7, 0x02] = .ok (.psrawXmmImm 15 2) 6 ∧
    decode true [0x66, 0x0F, 0xE2, 0xC1] = .ok (.psradXmm 0 (.reg 1)) 4 ∧
    decode true [0x66, 0x0F, 0x72, 0xE0, 0x1F] = .ok (.psradXmmImm 0 31) 5 ∧
    decode true [0x66, 0x45, 0x0F, 0xE2, 0xC1] = .ok (.psradXmm 8 (.reg 9)) 5 := by decide +kernel

theorem test_decode_vex :
    decode true [0xC5, 0xE9, 0xE1, 0xCB] = .ok (.vpsrawXmm 1 2 (.reg 3)) 4 ∧
    decode true [0xC5, 0xF1, 0x71, 0xE2, 0x08] = .ok (.vpsrawXmmImm 1 2 8) 5 ∧
    decode true [0xC5, 0xE9, 0xE2, 0xCB] = .ok (.vpsradXmm 1 2 (.reg 3)) 4 ∧
    decode true [0xC4, 0xC1, 0x71, 0x72, 0xE0, 0x07] = .ok (.vpsradXmmImm 1 8 7) 6 ∧
    decode true [0xC5, 0xED, 0xE1, 0xCB] = .ok (.vpsrawYmm 1 2 (.reg 3)) 4 ∧
    decode true [0xC5, 0xF5, 0x71, 0xE2, 0x0F] = .ok (.vpsrawYmmImm 1 2 15) 5 ∧
    decode true [0xC5, 0xF5, 0xE2, 0x08] = .ok (.vpsradYmm 1 1 (.mem rax)) 4 ∧
    decode true [0xC5, 0xF5, 0x72, 0xE2, 0x05] = .ok (.vpsradYmmImm 1 2 5) 5 ∧
    decode true [0xC4, 0xE1, 0xF5, 0x72, 0xE2, 0x05] = .ok (.vpsradYmmImm 1 2 5) 6 := by decide +kernel

theorem test_decode_evex_vpsraw :
    decode true [0x62, 0xF1, 0x6D, 0x89, 0xE1, 0xCB] = .ok (.evexVpsraw128 1 2 (.reg 3) (.zeroing .k1)) 6 ∧
    decode true [0x62, 0xF1, 0x6D, 0x2A, 0xE1, 0xCB] = .ok (.evexVpsraw256 1 2 (.reg 3) (.merging .k2)) 6 ∧
    decode true [0x62, 0xF1, 0x6D, 0x48, 0xE1, 0xCB] = .ok (.evexVpsraw512 1 2 (.reg 3) .unmasked) 6 ∧
    decode true [0x62, 0xF1, 0x6D, 0x48, 0xE1, 0x48, 0x01] = .ok (.evexVpsraw512 1 2 (.mem (.sum (some 0) none 16)) .unmasked) 7 ∧
    decode true [0x62, 0xF1, 0x75, 0x89, 0x71, 0xE2, 0x08] = .ok (.evexVpsraw128Imm 1 (.reg 2) 8 (.zeroing .k1)) 7 ∧
    decode true [0x62, 0xF1, 0x75, 0x2A, 0x71, 0x20, 0x10] = .ok (.evexVpsraw256Imm 1 (.mem rax) 16 (.merging .k2)) 7 ∧
    decode true [0x62, 0xF1, 0x75, 0x48, 0x71, 0xE2, 0x0F] = .ok (.evexVpsraw512Imm 1 (.reg 2) 15 .unmasked) 7 ∧
    decode true [0x62, 0xF1, 0xED, 0x89, 0xE1, 0xCB] = .ok (.evexVpsraw128 1 2 (.reg 3) (.zeroing .k1)) 6 := by decide +kernel

theorem test_decode_evex_vpsrad :
    decode true [0x62, 0xF1, 0x6D, 0x89, 0xE2, 0xCB] = .ok (.evexVpsrad128 1 2 (.reg 3) (.zeroing .k1)) 6 ∧
    decode true [0x62, 0xF1, 0x6D, 0x2A, 0xE2, 0xCB] = .ok (.evexVpsrad256 1 2 (.reg 3) (.merging .k2)) 6 ∧
    decode true [0x62, 0xF1, 0x6D, 0x48, 0xE2, 0xCB] = .ok (.evexVpsrad512 1 2 (.reg 3) .unmasked) 6 ∧
    decode true [0x62, 0xF1, 0x75, 0x89, 0x72, 0xE2, 0x01] = .ok (.evexVpsrad128Imm 1 (.reg 2) 1 (.zeroing .k1)) 7 ∧
    decode true [0x62, 0xF1, 0x75, 0x18, 0x72, 0x20, 0x04] = .ok (.evexVpsrad128Imm 1 (.bcst rax) 4 .unmasked) 7 ∧
    decode true [0x62, 0xF1, 0x75, 0x2A, 0x72, 0xE2, 0x20] = .ok (.evexVpsrad256Imm 1 (.reg 2) 32 (.merging .k2)) 7 ∧
    decode true [0x62, 0xF1, 0x5D, 0x5A, 0x72, 0x20, 0x04] = .ok (.evexVpsrad512Imm 4 (.bcst rax) 4 (.merging .k2)) 7 ∧
    decode true [0x62, 0xF1, 0x5D, 0x5A, 0x72, 0x60, 0x02, 0x04] = .ok (.evexVpsrad512Imm 4 (.bcst (.sum (some 0) none 8)) 4 (.merging .k2)) 8 ∧
    decode true [0x62, 0xF1, 0x5D, 0x4A, 0x72, 0x60, 0x02, 0x04] = .ok (.evexVpsrad512Imm 4 (.mem (.sum (some 0) none 128)) 4 (.merging .k2)) 8 := by decide +kernel

theorem test_decode_evex_vpsraq :
    decode true [0x62, 0xF1, 0xED, 0x89, 0xE2, 0xCB] = .ok (.evexVpsraq128 1 2 (.reg 3) (.zeroing .k1)) 6 ∧
    decode true [0x62, 0xF1, 0xED, 0x2A, 0xE2, 0xCB] = .ok (.evexVpsraq256 1 2 (.reg 3) (.merging .k2)) 6 ∧
    decode true [0x62, 0xF1, 0xED, 0xC9, 0xE2, 0xCB] = .ok (.evexVpsraq512 1 2 (.reg 3) (.zeroing .k1)) 6 ∧
    decode true [0x62, 0xA1, 0xED, 0x40, 0xE2, 0xCB] = .ok (.evexVpsraq512 17 18 (.reg 19) .unmasked) 6 ∧
    decode true [0x62, 0xF1, 0xF5, 0x89, 0x72, 0xE2, 0x01] = .ok (.evexVpsraq128Imm 1 (.reg 2) 1 (.zeroing .k1)) 7 ∧
    decode true [0x62, 0xF1, 0xF5, 0x3A, 0x72, 0x20, 0x10] = .ok (.evexVpsraq256Imm 1 (.bcst rax) 16 (.merging .k2)) 7 ∧
    decode true [0x62, 0xF1, 0xFD, 0x48, 0x72, 0xE1, 0x03] = .ok (.evexVpsraq512Imm 0 (.reg 1) 3 .unmasked) 7 ∧
    decode true [0x62, 0x91, 0xFD, 0x40, 0x72, 0xE1, 0x03] = .ok (.evexVpsraq512Imm 16 (.reg 25) 3 .unmasked) 7 := by decide +kernel

theorem test_decode_invalid :
    decode true [0x0F, 0x71, 0x20, 0x03] = .invalidOpcode ∧
    decode true [0x66, 0x0F, 0x72, 0x60, 0x10, 0x05] = .invalidOpcode ∧
    decode true [0xC5, 0xF1, 0x71, 0x22, 0x08] = .invalidOpcode ∧
    decode true [0x62, 0xF1, 0x6D, 0x18, 0xE1, 0xCB] = .invalidOpcode ∧
    decode true [0x62, 0xF1, 0x75, 0x18, 0x72, 0xE2, 0x01] = .invalidOpcode ∧
    decode true [0x62, 0xF1, 0x75, 0x88, 0x72, 0xE2, 0x01] = .invalidOpcode ∧
    decode true [0x62, 0xF1, 0x75, 0x68, 0x72, 0xE2, 0x01] = .invalidOpcode ∧
    decode true [0xF0, 0x66, 0x0F, 0xE1, 0x00] = .invalidOpcode ∧
    decode true [0x66, 0xC5, 0xE9, 0xE1, 0xCB] = .invalidOpcode := by decide +kernel

theorem test_decode_refused :
    decode true [0x0F, 0x71, 0xD0, 0x03] = .refused .notInScope ∧
    decode true [0x66, 0x0F, 0x73, 0xD8, 0x01] = .refused .notInScope ∧
    decode true [0x0F, 0xE0, 0xC1] = .refused .notInScope ∧
    decode true [0xC5, 0xE8, 0xE1, 0xCB] = .refused .notInScope ∧
    decode true [0xF3, 0x0F, 0xE1, 0xC1] = .refused .repOnLegacy ∧
    decode true [0x67, 0x0F, 0xE1, 0x00] = .refused .addressSize := by decide +kernel

/-- Address forms by R56 and R57: `[rbx + rcx*4 + 0x100]`, `[rip + 16]`, `[r13 + 0]`, `[disp32]` outside 64-bit mode. -/
theorem test_decode_addresses :
    decode true [0x0F, 0xE1, 0x84, 0x8B, 0x00, 0x01, 0x00, 0x00] = .ok (.psrawMm 0 (.mem (.sum (some 3) (some (1, .s4)) 256))) 8 ∧
    decode true [0x0F, 0xE1, 0x05, 0x10, 0x00, 0x00, 0x00] = .ok (.psrawMm 0 (.mem (.ripRel 16))) 7 ∧
    decode true [0x41, 0x0F, 0xE1, 0x45, 0xFF] = .ok (.psrawMm 0 (.mem (.sum (some 13) none 0xFFFFFFFF))) 5 ∧
    decode false [0x0F, 0xE1, 0x05, 0x10, 0x00, 0x00, 0x00] = .ok (.psrawMm 0 (.mem (.sum none none 16))) 7 := by
  decide +kernel

/-- Outside 64-bit mode: `vvvv` naming register 8 or above is decision D31's refusal. -/
theorem test_decode_extension_bits : decode false [0xC4, 0xE1, 0x21, 0xE1, 0xCB] = .refused .extensionBits := by decide +kernel

/-- Sixteen bytes of one instruction are over-long, fifteen are not (R74). -/
theorem test_decode_length :
    decode true (List.replicate 12 0x2E ++ [0x0F, 0xE1, 0xC1]) = .ok (.psrawMm 0 (.reg 1)) 15 ∧
    decode true (List.replicate 13 0x2E ++ [0x0F, 0xE1, 0xC1]) = .tooLong := by decide +kernel

/-! ## One step of each form (95_test_vectors.md sections 2.2 to 2.7) -/

theorem test_psrawMm :
    mmAfter (exec (.psrawMm 3 (.reg 4)) ((base.writeMm 3 0x80007FFFFFF00010).writeMm 4 0x8000000000000000)) 3 = some 0xFFFF0000FFFF0000 := by decide +kernel

theorem test_psrawMm_same :
    mmAfter (exec (.psrawMm 0 (.reg 0)) (base.writeMm 0 3)) 0 = some 0 := by decide +kernel

theorem test_psrawMmImm :
    mmAfter (exec (.psrawMmImm 3 8) (base.writeMm 3 0x80007FFFFFF00010)) 3 = some 0xFF80007FFFFF0000 := by decide +kernel

theorem test_psradMm :
    mmAfter (exec (.psradMm 3 (.mem (at_ 0x2001))) (bytesAt (base.writeMm 3 0x80007FFFFFF00010) 0x2001 8 0x100000004)) 3 = some 0xFFFFFFFFFFFFFFFF := by decide +kernel

theorem test_psradMmImm :
    mmAfter (exec (.psradMmImm 3 0x10) (base.writeMm 3 0x80007FFFFFF00010)) 3 = some 0xFFFF8000FFFFFFF0 := by decide +kernel

theorem test_psrawXmm :
    vecAfter (exec (.psrawXmm 3 (.reg 4)) ((base.writeV 3 ((0xABCD <<< 300) + 0x80004000200010000800FFFF00017FFF)).writeV 4 0xDEADBEEFDEADBEEF0000000000000003)) 3 =
      some ((0xABCD <<< 300) + 0xF0000800040002000100FFFF00000FFF) := by decide +kernel

theorem test_psrawXmmImm :
    vecAfter (exec (.psrawXmmImm 3 15) (base.writeV 3 ((0xABCD <<< 300) + 0x80004000200010000800FFFF00017FFF))) 3 = some ((0xABCD <<< 300) + 0xFFFF0000000000000000FFFF00000000) := by decide +kernel

theorem test_psradXmm :
    vecAfter (exec (.psradXmm 3 (.mem (at_ 0x2000))) (bytesAt (base.writeV 3 ((0xABCD <<< 300) + 0x8000000040000000FFFFFFFE00000007)) 0x2000 16 0xFFFFFFFFFFFFFFFF0000000000000014)) 3 =
      some ((0xABCD <<< 300) + 0xFFFFF80000000400FFFFFFFF00000000) := by decide +kernel

theorem test_psradXmmImm :
    vecAfter (exec (.psradXmmImm 3 32) (base.writeV 3 ((0xABCD <<< 300) + 0x8000000040000000FFFFFFFE00000007))) 3 = some ((0xABCD <<< 300) + 0xFFFFFFFF00000000FFFFFFFF00000000) := by decide +kernel

theorem test_vpsrawXmm :
    vecAfter (exec (.vpsrawXmm 1 2 (.reg 3)) (((base.writeV 1 (BitVec.allOnes 512)).writeV 2 ((0xABCD <<< 300) + 0x80004000200010000800FFFF00017FFF)).writeV 3 ((0x7777 <<< 64) + 1))) 1 =
      some 0xC0002000100008000400FFFF00003FFF := by decide +kernel

theorem test_vpsrawXmmImm :
    vecAfter (exec (.vpsrawXmmImm 1 2 8) ((base.writeV 1 (BitVec.allOnes 512)).writeV 2 ((0xABCD <<< 300) + 0x80004000200010000800FFFF00017FFF))) 1 = some 0xFF800040002000100008FFFF0000007F := by decide +kernel

theorem test_vpsradXmm :
    vecAfter (exec (.vpsradXmm 1 2 (.mem (at_ 0x2008))) (bytesAt ((base.writeV 1 (BitVec.allOnes 512)).writeV 2 ((0xABCD <<< 300) + 0x8000000040000000FFFFFFFE00000007)) 0x2008 16 (0x7777 <<< 64 + 4))) 1 =
      some 0xF800000004000000FFFFFFFF00000000 := by decide +kernel

theorem test_vpsradXmmImm :
    vecAfter (exec (.vpsradXmmImm 1 2 0xC8) ((base.writeV 1 (BitVec.allOnes 512)).writeV 2 ((0xABCD <<< 300) + 0x8000000040000000FFFFFFFE00000007))) 1 = some 0xFFFFFFFF00000000FFFFFFFF00000000 := by decide +kernel

theorem test_vpsrawYmm :
    vecAfter (exec (.vpsrawYmm 1 2 (.reg 3)) (((base.writeV 1 (BitVec.allOnes 512)).writeV 2 ((0xABCD <<< 300) + 0xFFFF80017FFE0002000400080010002080004000200010000800FFFF00017FFF)).writeV 3 ((0x7777 <<< 64) + 2))) 1 =
      some 0xFFFFE0001FFF00000001000200040008E0001000080004000200FFFF00001FFF := by decide +kernel

theorem test_vpsrawYmmImm :
    vecAfter (exec (.vpsrawYmmImm 1 2 0xF) ((base.writeV 1 (BitVec.allOnes 512)).writeV 2 ((0xABCD <<< 300) + 0xFFFF80017FFE0002000400080010002080004000200010000800FFFF00017FFF))) 1 = some 0xFFFFFFFF000000000000000000000000FFFF0000000000000000FFFF00000000 := by decide +kernel

theorem test_vpsradYmm :
    vecAfter (exec (.vpsradYmm 1 2 (.reg 3)) (((base.writeV 1 (BitVec.allOnes 512)).writeV 2 ((0xABCD <<< 300) + 0x7FFFFFFF8000000100000100000001008000000040000000FFFFFFFE00000007)).writeV 3 ((0x7777 <<< 64) + 8))) 1 =
      some 0x007FFFFFFF8000000000000100000001FF80000000400000FFFFFFFF00000000 := by decide +kernel

theorem test_vpsradYmmImm :
    vecAfter (exec (.vpsradYmmImm 1 2 0) ((base.writeV 1 (BitVec.allOnes 512)).writeV 2 ((0xABCD <<< 300) + 0x7FFFFFFF8000000100000100000001008000000040000000FFFFFFFE00000007))) 1 = some 0x7FFFFFFF8000000100000100000001008000000040000000FFFFFFFE00000007 := by decide +kernel

theorem test_evexVpsraw128 :
    vecAfter (exec (.evexVpsraw128 1 2 (.reg 3) (.zeroing .k1))
      (((mask (base.writeV 1 ((0xABCD <<< 300) + 0x11112222333344445555666677778888)) 1 0xA5).writeV 2 ((0xABCD <<< 300) + 0x80004000200010000800FFFF00017FFF)).writeV 3 ((0x7777 <<< 64) + 4))) 1 =
      some (0xF8000000020000000000FFFF000007FF) := by decide +kernel

theorem test_evexVpsraw128_merging :
    vecAfter (exec (.evexVpsraw128 1 2 (.reg 3) (.merging .k1))
      (((mask (base.writeV 1 ((0xABCD <<< 300) + 0x11112222333344445555666677778888)) 1 0xFFA5).writeV 2 ((0xABCD <<< 300) + 0x80004000200010000800FFFF00017FFF)).writeV 3 ((0x7777 <<< 64) + 4))) 1 =
      some (0xF8002222020044445555FFFF777707FF) := by decide +kernel

theorem test_evexVpsraw256 :
    vecAfter (exec (.evexVpsraw256 1 2 (.reg 3) (.merging .k1))
      (((mask (base.writeV 1 ((0xABCD <<< 300) + 0xAAAABBBBCCCCDDDDEEEEFFFF0101020211112222333344445555666677778888)) 1 0xFF).writeV 2 ((0xABCD <<< 300) + 0xFFFF80017FFE0002000400080010002080004000200010000800FFFF00017FFF)).writeV 3 ((0x7777 <<< 64) + 2))) 1 =
      some (0xAAAABBBBCCCCDDDDEEEEFFFF01010202E0001000080004000200FFFF00001FFF) := by decide +kernel

theorem test_evexVpsraw512 :
    vecAfter (exec (.evexVpsraw512 1 2 (.reg 3) (.zeroing .k1))
      (((mask (base.writeV 1 ((0xABCD <<< 300) + 0x11112222333344445555666677778888)) 1 0x80000001).writeV 2 (every 16 0xFF00)).writeV 3 ((0x7777 <<< 64) + 4))) 1 =
      some (0xFFF0 <<< 496 + 0xFFF0) := by decide +kernel

theorem test_evexVpsraw128Imm :
    vecAfter (exec (.evexVpsraw128Imm 1 (.reg 2) 4 .unmasked)
      ((base.writeV 1 ((0xABCD <<< 300) + 0x11112222333344445555666677778888)).writeV 2 ((0xABCD <<< 300) + 0x80004000200010000800FFFF00017FFF))) 1 =
      some (0xF8000400020001000080FFFF000007FF) := by decide +kernel

theorem test_evexVpsraw256Imm :
    vecAfter (exec (.evexVpsraw256Imm 1 (.mem (at_ 0x2001)) 0x10 (.zeroing .k1))
      (bytesAt (mask (base.writeV 1 ((0xABCD <<< 300) + 0xAAAABBBBCCCCDDDDEEEEFFFF0101020211112222333344445555666677778888)) 1 0xF00F) 0x2001 32 0xFFFF80017FFE0002000400080010002080004000200010000800FFFF00017FFF)) 1 =
      some (0xFFFFFFFF00000000000000000000000000000000000000000000FFFF00000000) := by decide +kernel

theorem test_evexVpsraw512Imm :
    vecAfter (exec (.evexVpsraw512Imm 1 (.reg 2) 4 (.merging .k1))
      (mask ((base.writeV 1 (every 16 0x1234)).writeV 2 (every 16 0xFF00)) 1 0xFFFF0000)) 1 =
      some ((broadcast 16 256 0xFFF0 ++ broadcast 16 256 0x1234 : BitVec (256 + 256))) := by decide +kernel

theorem test_evexVpsrad128 :
    vecAfter (exec (.evexVpsrad128 1 2 (.reg 3) (.merging .k1))
      (((mask (base.writeV 1 ((0xABCD <<< 300) + 0x11112222333344445555666677778888)) 1 5).writeV 2 ((0xABCD <<< 300) + 0x8000000040000000FFFFFFFE00000007)).writeV 3 ((0x7777 <<< 64) + 4))) 1 =
      some (0x11112222040000005555666600000000) := by decide +kernel

theorem test_evexVpsrad256 :
    vecAfter (exec (.evexVpsrad256 1 2 (.reg 3) (.merging .k1))
      (((mask (base.writeV 1 ((0xABCD <<< 300) + 0xAAAABBBBCCCCDDDDEEEEFFFF0101020211112222333344445555666677778888)) 1 0xF0).writeV 2 ((0xABCD <<< 300) + 0x7FFFFFFF8000000100000100000001008000000040000000FFFFFFFE00000007)).writeV 3 ((0x7777 <<< 64) + 8))) 1 =
      some (0x007FFFFFFF800000000000010000000111112222333344445555666677778888) := by decide +kernel

theorem test_evexVpsrad512 :
    vecAfter (exec (.evexVpsrad512 1 2 (.reg 3) .unmasked) ((base.writeV 2 (every 32 0x80000000)).writeV 3 31)) 1 =
      some (BitVec.allOnes 512) := by decide +kernel

theorem test_evexVpsrad128Imm :
    vecAfter (exec (.evexVpsrad128Imm 1 (.bcst (at_ 0x2001)) 4 (.merging .k1))
      (bytesAt (mask (base.writeV 1 ((0xABCD <<< 300) + 0x11112222333344445555666677778888)) 1 6) 0x2001 4 0xFFFFFF00)) 1 =
      some (0x11112222FFFFFFF0FFFFFFF077778888) := by decide +kernel

theorem test_evexVpsrad256Imm :
    vecAfter (exec (.evexVpsrad256Imm 1 (.mem (at_ 0x2001)) 0x20 (.zeroing .k1))
      (bytesAt (mask (base.writeV 1 ((0xABCD <<< 300) + 0xAAAABBBBCCCCDDDDEEEEFFFF0101020211112222333344445555666677778888)) 1 0xF) 0x2001 32 0x7FFFFFFF8000000100000100000001008000000040000000FFFFFFFE00000007)) 1 =
      some (0xFFFFFFFF00000000FFFFFFFF00000000) := by decide +kernel

theorem test_evexVpsrad256Imm_bcst :
    vecAfter (exec (.evexVpsrad256Imm 1 (.bcst (at_ 0x2001)) 4 .unmasked)
      (bytesAt (base.writeV 1 ((0xABCD <<< 300) + 0xAAAABBBBCCCCDDDDEEEEFFFF0101020211112222333344445555666677778888)) 0x2001 4 0x80000010)) 1 =
      some (0xF8000001F8000001F8000001F8000001F8000001F8000001F8000001F8000001) := by decide +kernel

theorem test_evexVpsrad512Imm :
    vecAfter (exec (.evexVpsrad512Imm 1 (.bcst (at_ 0x2001)) 4 (.merging .k1))
      (bytesAt (mask (base.writeV 1 (every 32 0x11111111)) 1 0xFF) 0x2001 4 0x80000010)) 1 =
      some ((broadcast 32 256 0x11111111 ++ broadcast 32 256 0xF8000001 : BitVec (256 + 256))) := by decide +kernel

theorem test_evexVpsraq128 :
    vecAfter (exec (.evexVpsraq128 1 2 (.reg 3) (.zeroing .k1))
      (((mask (base.writeV 1 ((0xABCD <<< 300) + 0x11112222333344445555666677778888)) 1 2).writeV 2 ((0xABCD <<< 300) + 0x80000000000000007FFFFFFFFFFFFFFF)).writeV 3 ((0x7777 <<< 64) + 3))) 1 =
      some (0xF0000000000000000000000000000000) := by decide +kernel

theorem test_evexVpsraq128_large :
    vecAfter (exec (.evexVpsraq128 1 2 (.reg 3) .unmasked)
      (((base.writeV 1 ((0xABCD <<< 300) + 0x11112222333344445555666677778888)).writeV 2 ((0xABCD <<< 300) + 0x80000000000000007FFFFFFFFFFFFFFF)).writeV 3 ((0x7777 <<< 64) + 0x8000000000000000))) 1 =
      some (0xFFFFFFFFFFFFFFFF0000000000000000) := by decide +kernel

theorem test_evexVpsraq256 :
    vecAfter (exec (.evexVpsraq256 1 2 (.reg 3) (.merging .k1))
      (((mask (base.writeV 1 ((0xABCD <<< 300) + 0xAAAABBBBCCCCDDDDEEEEFFFF0101020211112222333344445555666677778888)) 1 0xFA).writeV 2 ((0xABCD <<< 300) + 0xFFFFFFFFFFFFFF00000000000000010080000000000000007FFFFFFFFFFFFFFF)).writeV 3 ((0x7777 <<< 64) + 8))) 1 =
      some (0xFFFFFFFFFFFFFFFFEEEEFFFF01010202FF800000000000005555666677778888) := by decide +kernel

theorem test_evexVpsraq512 :
    vecAfter (exec (.evexVpsraq512 1 2 (.reg 3) (.zeroing .k1))
      (((mask (base.writeV 1 ((0xABCD <<< 300) + 0x11112222333344445555666677778888)) 1 0x81).writeV 2 (every 64 0x8000000000000000)).writeV 3 ((0x7777 <<< 64) + 60))) 1 =
      some (0xFFFFFFFFFFFFFFF8 <<< 448 + 0xFFFFFFFFFFFFFFF8) := by decide +kernel

theorem test_evexVpsraq128Imm :
    vecAfter (exec (.evexVpsraq128Imm 1 (.bcst (at_ 0x2001)) 0xC .unmasked)
      (bytesAt (base.writeV 1 ((0xABCD <<< 300) + 0x11112222333344445555666677778888)) 0x2001 8 0x0123456789ABCDEF)) 1 =
      some (0x0000123456789ABC0000123456789ABC) := by decide +kernel

theorem test_evexVpsraq256Imm :
    vecAfter (exec (.evexVpsraq256Imm 1 (.bcst (at_ 0x2001)) 0x10 (.merging .k1))
      (bytesAt (mask (base.writeV 1 ((0xABCD <<< 300) + 0xAAAABBBBCCCCDDDDEEEEFFFF0101020211112222333344445555666677778888)) 1 5) 0x2001 8 0x8000000000010000)) 1 =
      some (0xAAAABBBBCCCCDDDDFFFF8000000000011111222233334444FFFF800000000001) := by decide +kernel

theorem test_evexVpsraq512Imm :
    vecAfter (exec (.evexVpsraq512Imm 1 (.reg 2) 200 .unmasked) (base.writeV 2 (every 64 0x8000000000000000))) 1 =
      some (BitVec.allOnes 512) := by decide +kernel

/-! ## Stops (95_test_vectors.md sections 2.3, 2.6, 2.8; 60_exceptions.md R145) -/

/-- `rax = 0x1008`: the count is not 16-byte aligned; no register of the outcome, `pc` recorded. -/
theorem test_misaligned :
    faultOf (exec (.psrawXmm 0 (.mem (at_ 0x1008))) base) = some (.generalProtection 0 0x1000) := by decide +kernel

/-- Byte 0x100F belongs to the ignored half of the count and faults all the same (R37). -/
theorem test_unreadable_upper_half :
    faultOf (exec (.psrawXmm 0 (.mem (at_ 0x1000))) (hole 0x100F 1)) = some (.memory 0x100F 0x1000) := by decide +kernel

/-- A masked-off element's byte faults all the same (R148). -/
theorem test_no_fault_suppression :
    faultOf (exec (.evexVpsrad128Imm 0 (.mem (at_ 0x2000)) 1 (.zeroing .k1)) (hole 0x200F 1)) =
      some (.memory 0x200F 0x1000) := by decide +kernel

/-- Features, `enabled`, `MAX_VL`. -/
theorem test_cannot_execute :
    faultOf (exec (.evexVpsraw512 1 2 (.reg 3) .unmasked)
      { base with launch := { resetLaunch with features := { allFeatures with avx512bw := false } } }) =
      some (.invalidOpcode 0x1000) ∧
    faultOf (exec (.evexVpsrad128 1 2 (.reg 3) (.zeroing .k1))
      { base with launch := { resetLaunch with features := { allFeatures with avx512vl := false } } }) =
      some (.invalidOpcode 0x1000) ∧
    faultOf (exec (.vpsrawYmm 1 2 (.reg 3))
      { base with launch := { resetLaunch with features := { allFeatures with avx2 := false } } }) =
      some (.invalidOpcode 0x1000) ∧
    faultOf (exec (.psrawMmImm 0 1) { base with launch := { resetLaunch with enabled := Vector.replicate 34 false } }) =
      some (.invalidOpcode 0x1000) ∧
    faultOf (exec (.vpsradYmmImm 0 0 1) { base with launch := { resetLaunch with maxVl := .v128 } }) =
      some (.invalidOpcode 0x1000) := by decide +kernel

/-- At reset `pc` reads zeros, which are not one of the 34 forms. -/
theorem test_reset_step : stopOf (step State.reset) = some .notInScope := by decide +kernel

/-- The fetch: an unreadable second byte; a byte past the top of the address space; 15 prefixes. -/
theorem test_fetch_stops :
    faultOf (step (bytesAt (hole 0x1001 1) 0x1000 3 0xC1E10F)) = some (.memory 0x1001 0x1000) ∧
    stopOf (step (bytesAt { base with pc := 0xFFFFFFFFFFFFFFFE } 0xFFFFFFFFFFFFFFFE 2 0xE10F)) = some .pcPastTop ∧
    faultOf (step (bytesAt base 0x1000 15 0x2E2E2E2E2E2E2E2E2E2E2E2E2E2E2E)) = some (.generalProtection 0 0x1000) := by
  decide +kernel

/-- An over-long instruction of 16 bytes, 13 overrides before `0F E1 C1`. -/
def overlong (s : State) : State :=
  { s with mem := s.mem.writeBytes 0x1000 (List.replicate 13 0x2E ++ [0x0F, 0xE1, 0xC1]) }

/-- 60_exceptions.md R147, item 1 before item 2: its last byte unreadable is the fetch fault, and so is an early one; the byte
after it is none of the instruction's. -/
theorem test_overlong_fetch :
    faultOf (step (overlong (hole 0x100F 1))) = some (.memory 0x100F 0x1000) ∧
    faultOf (step (overlong (hole 0x1003 1))) = some (.memory 0x1003 0x1000) ∧
    faultOf (step (overlong (hole 0x1010 1))) = some (.generalProtection 0 0x1000) ∧
    faultOf (step (overlong base)) = some (.generalProtection 0 0x1000) := by decide +kernel

/-- Every row of the opcode table, as a word: its form decodes, and the first step after reset completes it. -/
theorem test_table_words :
    opcodeTable.all (fun r =>
      ((decodeTableWord 32 r.pat.toNat).map Instr.form == some r.form) &&
      (pcAfter (step (State.reset.withFetchWord 32 r.pat.toNat))).isSome) = true := by decide +kernel

/-! ## Addresses (20_memory.md R46) -/

/-- `rbx + rcx*4 - 1` and `pc + len + disp32`, with truncation to 32 bits outside 64-bit mode. -/
theorem test_addresses :
    ({ base with gpr := (base.gpr.set 3 0x5000).set 1 0x10 } : State).ea (.sum (some 3) (some (1, .s4)) 0xFFFFFFFF) = 0x503F ∧
    base.ea (.ripRel 0x10) = 0x1014 ∧
    ({ base32 with gpr := base32.gpr.set 3 0xFFFFFFFF } : State).ea (.sum (some 3) none 2) = 1 ∧
    base.ea (.sum none none 0xFFFFFFF0) = 0xFFFFFFFFFFFFFFF0 := by decide +kernel

/-- Memory: two bytes written, one cleared, the canonical form kept. -/
theorem test_memory :
    (((Memory.mk []).write 7 1).write 3 2).write 7 0 = Memory.mk [(3, 2)] ∧
    ((((Memory.mk []).write 7 1).write 3 2).write 7 0).wf = true := by decide

/-! ## Witnesses: for each statement with hypotheses, a state and operands that meet them -/

/-- Every form. -/
def allForms : List Form := opcodeTable.map fun r => r.form

/-- Every form is ready in `base`: the hypotheses of every completion statement, with the operands below. -/
theorem witness_Ready : ∀ f ∈ allForms, base.Ready f := by decide +kernel

/-- The last address an instruction may end at: one below the top. -/
theorem witness_Ready_at_the_top : ({ base with pc := 0xFFFFFFFFFFFFFFFB } : State).Ready .psrawMm := by decide +kernel

theorem witness_ElementShiftIsFloorDivision : 16 ≤ 16 ∧ (0 < 1 ∧ 1 < 16) ∧ (0 < 15 ∧ 15 < 16) ∧ (0 < 63 ∧ 63 < 64) := by
  decide

theorem witness_LargeCountFillsWithTheSign :
    (0 < 64 / 64 ∧ 63 < 512 / 8 ∧ 31 < 512 / 16) ∧ 16 - 1 < (16 : BitVec 64).toNat ∧
    64 - 1 < (0xFFFFFFFFFFFFFFFF : BitVec 64).toNat := by decide

theorem witness_ImmediateWideningCannotMatter : (16 = 16 ∨ 16 = 32 ∨ 16 = 64) ∧ (64 = 64 ∨ 64 = 128 ∨ 64 = 256 ∨ 64 = 512) := by
  decide

theorem witness_WideShiftIsTwoHalves : (16 = 16 ∨ 16 = 32) ∧ (32 = 16 ∨ 32 = 32) := by decide

/-- Bit 31, the last that governs an element, and a mask that differs above it only. -/
theorem witness_MaskApplySelectsPerElement :
    31 < 512 / 16 ∧ (0x80000000 : BitVec 64).getLsbD 31 = true ∧ (0x80000000 : BitVec 64).getLsbD 30 = false ∧
    ∀ j, j < 512 / 16 → (0xF80000000 : BitVec 64).getLsbD j = (0x80000000 : BitVec 64).getLsbD j := by decide

theorem witness_MemReadIsLittleEndian :
    base.RangeReadable 0x2000 16 ∧ base.RangeReadable 0xFFFFFFFFFFFFFFF0 16 ∧ base.RangeReadable 0 0 := by decide +kernel

theorem witness_MemReadFaultsAtTheLowestUnreadableByte :
    ¬ (hole 0x200F 1).RangeReadable 0x2000 16 ∧ ¬ base.RangeReadable 0xFFFFFFFFFFFFFFF1 16 := by decide +kernel

theorem witness_MmxVariableCountShifts :
    base.OperandReadable 8 (.mem (at_ 0x2001) : RegMem MmReg) ∧ base.OperandReadable 8 (.reg 7 : RegMem MmReg) ∧
    base.Ready .psrawMm ∧ base.Ready .psradMm := by decide +kernel

theorem witness_MmxImmediateCountShifts : base.Ready .psrawMmImm ∧ base.Ready .psradMmImm := by decide +kernel

theorem witness_Sse2VariableCountShifts :
    base.OperandReadable 16 (.mem (at_ 0x2000) : RegMem VReg) ∧ base.OperandAligned (.mem (at_ 0x2000) : RegMem VReg) ∧
    base.Ready .psrawXmm ∧ base.Ready .psradXmm := by decide +kernel

theorem witness_Sse2ImmediateCountShifts : base.Ready .psrawXmmImm ∧ base.Ready .psradXmmImm := by decide +kernel

theorem witness_VexVariableCountShifts :
    base.OperandReadable 16 (.mem (at_ 0x2001) : RegMem VReg) ∧ base.Ready .vpsrawXmm ∧ base.Ready .vpsradXmm ∧
    base.Ready .vpsrawYmm ∧ base.Ready .vpsradYmm := by decide +kernel

theorem witness_VexImmediateCountShifts :
    base.Ready .vpsrawXmmImm ∧ base.Ready .vpsradXmmImm ∧ base.Ready .vpsrawYmmImm ∧ base.Ready .vpsradYmmImm := by
  decide +kernel

theorem witness_EvexVpsrawVariableCountShifts :
    base.OperandReadable 16 (.mem (at_ 0x2001) : RegMem VReg) ∧ base.Ready .evexVpsraw128 ∧ base.Ready .evexVpsraw256 ∧
    base.Ready .evexVpsraw512 := by decide +kernel

theorem witness_EvexVpsradVariableCountShifts :
    base.OperandReadable 16 (.mem (at_ 0x2001) : RegMem VReg) ∧ base.Ready .evexVpsrad128 ∧ base.Ready .evexVpsrad256 ∧
    base.Ready .evexVpsrad512 := by decide +kernel

theorem witness_EvexVpsraqVariableCountShifts :
    base.OperandReadable 16 (.mem (at_ 0x2001) : RegMem VReg) ∧ base.Ready .evexVpsraq128 ∧ base.Ready .evexVpsraq256 ∧
    base.Ready .evexVpsraq512 := by decide +kernel

theorem witness_EvexVpsrawImmediateCountShifts :
    base.OperandReadable (128 / 8) (.mem (at_ 0x2001) : RegMem VReg) ∧ base.Ready .evexVpsraw128Imm ∧
    base.OperandReadable (256 / 8) (.mem (at_ 0x2001) : RegMem VReg) ∧ base.Ready .evexVpsraw256Imm ∧
    base.OperandReadable (512 / 8) (.mem (at_ 0x2001) : RegMem VReg) ∧ base.Ready .evexVpsraw512Imm := by decide +kernel

theorem witness_EvexVpsradImmediateCountShifts :
    base.FvReadable 32 128 (.bcst (at_ 0x2001)) ∧ base.FvReadable 32 128 (.mem (at_ 0x2001)) ∧ base.Ready .evexVpsrad128Imm ∧
    base.FvReadable 32 256 (.bcst (at_ 0x2001)) ∧ base.FvReadable 32 256 (.mem (at_ 0x2001)) ∧ base.Ready .evexVpsrad256Imm ∧
    base.FvReadable 32 512 (.bcst (at_ 0x2001)) ∧ base.FvReadable 32 512 (.mem (at_ 0x2001)) ∧ base.Ready .evexVpsrad512Imm := by
  decide +kernel

theorem witness_EvexVpsraqImmediateCountShifts :
    base.FvReadable 64 128 (.bcst (at_ 0x2001)) ∧ base.FvReadable 64 128 (.mem (at_ 0x2001)) ∧ base.Ready .evexVpsraq128Imm ∧
    base.FvReadable 64 256 (.bcst (at_ 0x2001)) ∧ base.FvReadable 64 256 (.mem (at_ 0x2001)) ∧ base.Ready .evexVpsraq256Imm ∧
    base.FvReadable 64 512 (.bcst (at_ 0x2001)) ∧ base.FvReadable 64 512 (.mem (at_ 0x2001)) ∧ base.Ready .evexVpsraq512Imm := by
  decide +kernel

theorem witness_MissingFeatureRaisesInvalidOpcode :
    ∃ f ∈ (Instr.evexVpsraw512 0 0 (.reg 0) .unmasked).form.needs, (⟨true, true, true, true, true, false, true⟩ : Features).has f = false :=
  ⟨.avx512bw, by decide, by decide⟩

theorem witness_DisabledFormRaisesInvalidOpcode :
    (Vector.replicate 34 false).get (Instr.psrawMmImm 0 1).form.info.row = false := by decide

theorem witness_LengthBeyondMaxVlRaisesInvalidOpcode :
    VecLen.v128.bits < (Instr.vpsrawYmmImm 0 0 1).form.vl ∧ VecLen.v256.bits < (Instr.evexVpsraq512 0 0 (.reg 0) .unmasked).form.vl := by
  decide

theorem witness_MisalignedSse2CountRaisesGeneralProtection :
    base.ea (at_ 0x2001) % 16 ≠ 0 ∧ base.ea (at_ 0x200F) % 16 ≠ 0 ∧ base.canExecute .psrawXmm = true ∧
    base.canExecute .psradXmm = true := by decide +kernel

/-- The hypotheses on the lowest unreadable byte `u` of an operand at 0x2000. -/
abbrev Lowest (s : State) (u : Nat) : Prop :=
  s.ea (at_ 0x2000) ≤ u ∧ s.readable u = false ∧ ∀ b, b < u → s.ea (at_ 0x2000) ≤ b → s.readable b = true

theorem lowest_unreadable {u : Nat} (h1 : 0x2000 ≤ u) (h2 : u < 0x3000) : Lowest (hole u 1) u := by
  have he : (hole u 1).ea (at_ 0x2000) = 0x2000 := by simp [State.ea, at_, hole, State.truncAddr, resetLaunch]
  refine ⟨by rw [he]; exact h1, ?_, ?_⟩
  · simp [State.readable, hole, Region.contains]
  · intro b hb _
    have hl : (hole u 1).addrLimit = 2 ^ 64 := rfl
    simp only [State.readable, hl]
    simp [hole, Region.contains]
    omega

/-- First and last byte of each size of count: 8 bytes for the MMX forms, 16 for the others. -/
theorem witness_UnreadableCountRaisesMemoryFault :
    (Lowest (hole 0x2000 1) 0x2000 ∧ 0x2000 < (hole 0x2000 1).ea (at_ 0x2000) + 8 ∧ (hole 0x2000 1).ea (at_ 0x2000) % 16 = 0) ∧
    (Lowest (hole 0x2007 1) 0x2007 ∧ 0x2007 < (hole 0x2007 1).ea (at_ 0x2000) + 8) ∧
    (Lowest (hole 0x200F 1) 0x200F ∧ 0x200F < (hole 0x200F 1).ea (at_ 0x2000) + 16 ∧ (hole 0x200F 1).ea (at_ 0x2000) % 16 = 0) ∧
    ∀ f ∈ allForms, (hole 0x200F 1).canExecute f = true ∧ (hole 0x2007 1).canExecute f = true :=
  ⟨⟨lowest_unreadable (by decide) (by decide), by decide +kernel⟩,
   ⟨lowest_unreadable (by decide) (by decide), by decide +kernel⟩,
   ⟨lowest_unreadable (by decide) (by decide), by decide +kernel⟩, by decide +kernel⟩

/-- The last byte of each size of source: 16, 32 and 64 bytes, or an element of 4 or 8. -/
theorem witness_UnreadableSourceRaisesMemoryFault :
    (Lowest (hole 0x2003 1) 0x2003 ∧ 0x2003 < (hole 0x2003 1).ea (at_ 0x2000) + 4) ∧
    (Lowest (hole 0x2007 1) 0x2007 ∧ 0x2007 < (hole 0x2007 1).ea (at_ 0x2000) + 8) ∧
    (Lowest (hole 0x200F 1) 0x200F ∧ 0x200F < (hole 0x200F 1).ea (at_ 0x2000) + 16) ∧
    (Lowest (hole 0x201F 1) 0x201F ∧ 0x201F < (hole 0x201F 1).ea (at_ 0x2000) + 32) ∧
    (Lowest (hole 0x203F 1) 0x203F ∧ 0x203F < (hole 0x203F 1).ea (at_ 0x2000) + 64) ∧
    ∀ f ∈ allForms, (hole 0x2003 1).canExecute f = true ∧ (hole 0x203F 1).canExecute f = true :=
  ⟨⟨lowest_unreadable (by decide) (by decide), by decide +kernel⟩,
   ⟨lowest_unreadable (by decide) (by decide), by decide +kernel⟩,
   ⟨lowest_unreadable (by decide) (by decide), by decide +kernel⟩,
   ⟨lowest_unreadable (by decide) (by decide), by decide +kernel⟩,
   ⟨lowest_unreadable (by decide) (by decide), by decide +kernel⟩, by decide +kernel⟩

theorem witness_FaultsRecordTheInstructionsPc : step (hole 0x1000 1) = .fault (.memory 0x1000 0x1000) :=
  fault_of_faultOf (by decide +kernel)

/-- The last 4 bytes of the address space, in 64-bit mode and outside it. -/
def atTop : State := { base with pc := 0xFFFFFFFFFFFFFFFC }

def atTop32 : State := { base32 with pc := 0xFFFFFFFC }

/-- Every form may execute there; memory operands of every size are ready, the aligned one at an aligned address. -/
theorem witness_PastTheTopIsRefused :
    (∀ f ∈ allForms, atTop.canExecute f = true ∧ atTop32.canExecute f = true) ∧
    atTop.addrLimit ≤ atTop.pc.toNat + atTop.ilen ∧ atTop32.addrLimit ≤ atTop32.pc.toNat + atTop32.ilen ∧
    atTop.OperandsReady (.psrawMm 0 (.mem (at_ 0x2004))) ∧ atTop.OperandsReady (.psradXmm 0 (.mem (at_ 0x2010))) ∧
    atTop32.OperandsReady (.vpsradYmm 0 1 (.mem (at_ 0x2004))) ∧
    atTop.OperandsReady (.evexVpsrad512 0 1 (.mem (at_ 0x2004)) .unmasked) ∧
    atTop.OperandsReady (.evexVpsraw512Imm 0 (.mem (at_ 0x2004)) 1 (.merging .k1)) ∧
    atTop32.OperandsReady (.evexVpsrad256Imm 0 (.bcst (at_ 0x2004)) 1 .unmasked) ∧
    atTop.OperandsReady (.psrawMmImm 0 1) := by
  refine ⟨by decide +kernel, by decide +kernel, by decide +kernel, ?_, ⟨?_, by decide +kernel⟩, ?_, ?_, ?_, ?_, trivial⟩ <;>
    exact fun k h => by decide +revert +kernel

/-- `66 0F E1 CA` at `pc`. -/
def fetching : State := base.placeAtPc [0x66, 0x0F, 0xE1, 0xCA]

/-- Both clauses: 16 bytes of an over-long instruction, and its first 3 and first 15 before an unreadable one. -/
theorem witness_FetchFaultComesBeforeTheLengthFault :
    ((overlong base).RangeReadable 0x1000 16 ∧ decode true ((overlong base).fetchBytes 0x1000 16) = .tooLong) ∧
    ((overlong (hole 0x1003 1)).RangeReadable 0x1000 3 ∧ (overlong (hole 0x1003 1)).readable 0x1003 = false ∧
      decode true ((overlong (hole 0x1003 1)).fetchBytes 0x1000 3) = .truncated) ∧
    ((overlong (hole 0x100F 1)).RangeReadable 0x1000 15 ∧ (overlong (hole 0x100F 1)).readable 0x100F = false ∧
      0x100F < (overlong (hole 0x100F 1)).addrLimit ∧
      decode true ((overlong (hole 0x100F 1)).fetchBytes 0x1000 15) = .truncated) := by decide +kernel

theorem witness_StepRunsTheDecodedInstruction :
    decode fetching.launch.mode64 (fetching.fetchBytes fetching.pc.toNat 15) = .ok (.psrawXmm 1 (.reg 2)) 4 := by
  decide +kernel

theorem witness_StepRunsAnEncodedInstruction :
    (Instr.psrawXmm 1 (.reg 2)).wf fetching.launch.mode64 = true ∧
    fetching.RangeReadable fetching.pc.toNat (encode (.psrawXmm 1 (.reg 2))).length ∧
    ∀ k (h : k < (encode (.psrawXmm 1 (.reg 2))).length),
      fetching.mem.read (fetching.pc.toNat + k) = (encode (.psrawXmm 1 (.reg 2)))[k] := by decide +kernel

theorem witness_step_next : ∃ t, step fetching = .next t := next_of_pcAfter (p := 0x1004) (by decide +kernel)

theorem witness_StepMovesPcPastTheInstruction : ∃ t, step fetching = .next t := witness_step_next

theorem witness_StepKeepsTheInvariant : fetching.Inv ∧ ∃ t, step fetching = .next t :=
  ⟨⟨by decide +kernel, by decide +kernel, by decide +kernel, by decide +kernel, by decide +kernel⟩, witness_step_next⟩

theorem witness_run_next : ∃ t, core.run 1 fetching = .next t := by
  obtain ⟨t, h⟩ := witness_step_next
  refine ⟨t, ?_⟩
  have h' : core.step fetching = .next t := h
  show (match core.step fetching with | .next s' => core.run 0 s' | .fault r => .fault r | .refused r => .refused r) = _
  rw [h']
  rfl

theorem witness_LaunchContentsAreKept : fetching.AsLaunched fetching ∧ ∃ t, step fetching = .next t :=
  ⟨⟨rfl, rfl, rfl, rfl⟩, witness_step_next⟩

theorem witness_RunsNeverWriteMemory : ∃ t, core.run 1 fetching = .next t := witness_run_next

theorem witness_RunsMoveForward : ∃ t, core.run 1 fetching = .next t := witness_run_next

/-- A completed instruction of each class. -/
theorem witness_exec_next :
    (∃ t, exec (.psrawMmImm 0 1) base = .next t) ∧ (∃ t, exec (.psradXmm 0 (.reg 1)) base = .next t) ∧
    (∃ t, exec (.vpsrawYmm 0 1 (.reg 2)) base = .next t) ∧
    (∃ t, exec (.evexVpsraq512Imm 0 (.bcst (at_ 0x2000)) 1 (.zeroing .k1)) base = .next t) :=
  ⟨next_of_pcAfter (p := 0x1004) (by decide +kernel), next_of_pcAfter (p := 0x1004) (by decide +kernel),
   next_of_pcAfter (p := 0x1004) (by decide +kernel), next_of_pcAfter (p := 0x1004) (by decide +kernel)⟩

/-- Both sides of the equivalence hold somewhere, and fail somewhere. -/
theorem witness_InstructionsCompleteExactlyWhenReady :
    base.Ready .psrawMmImm ∧ base.OperandsReady (.psrawMmImm 0 1) ∧ (∃ t, exec (.psrawMmImm 0 1) base = .next t) ∧
    ¬ atTop.Ready .psrawMmImm :=
  ⟨by decide +kernel, trivial, witness_exec_next.1, by decide +kernel⟩

theorem witness_ClassesKeepToTheirRegisters :
    (Instr.psrawMmImm 0 1).dest = .mm 0 ∧ (Instr.psradXmm 0 (.reg 1)).dest = .vec 0 ∧
    (Instr.vpsrawYmm 0 1 (.reg 2)).dest = .vec 0 ∧
    (Instr.evexVpsraq512Imm 0 (.bcst (at_ 0x2000)) 1 (.zeroing .k1)).dest = .vec 0 ∧
    (∃ t, exec (.psrawMmImm 0 1) base = .next t) ∧ (∃ t, exec (.psradXmm 0 (.reg 1)) base = .next t) ∧
    (∃ t, exec (.vpsrawYmm 0 1 (.reg 2)) base = .next t) ∧
    (∃ t, exec (.evexVpsraq512Imm 0 (.bcst (at_ 0x2000)) 1 (.zeroing .k1)) base = .next t) :=
  ⟨rfl, rfl, rfl, rfl, witness_exec_next⟩

/-- A form of each class, the EVEX one merging under a mask that selects no element. -/
theorem witness_UpperBitsFollowTheClass :
    ((Instr.psrawMmImm 0 1).form.info.cls = .mmx ∧ ∃ t, exec (.psrawMmImm 0 1) base = .next t) ∧
    ((Instr.psradXmm 0 (.reg 1)).dest = .vec 0 ∧ (Instr.psradXmm 0 (.reg 1)).form.info.cls = .sse ∧
      ∃ t, exec (.psradXmm 0 (.reg 1)) base = .next t) ∧
    ((Instr.vpsrawYmm 0 1 (.reg 2)).dest = .vec 0 ∧ (Instr.vpsrawYmm 0 1 (.reg 2)).form.info.cls = .vex ∧
      ∃ t, exec (.vpsrawYmm 0 1 (.reg 2)) base = .next t) ∧
    ((Instr.evexVpsraw128 1 2 (.reg 3) (.merging .k1)).dest = .vec 1 ∧
      (Instr.evexVpsraw128 1 2 (.reg 3) (.merging .k1)).form.info.cls = .evex ∧
      ∃ t, exec (.evexVpsraw128 1 2 (.reg 3) (.merging .k1)) (mask base 1 0) = .next t) :=
  ⟨⟨by decide, witness_exec_next.1⟩, ⟨rfl, by decide, witness_exec_next.2.1⟩, ⟨rfl, by decide, witness_exec_next.2.2.1⟩,
   rfl, by decide, next_of_pcAfter (p := 0x1004) (by decide +kernel)⟩

/-- The step itself: merging with a mask that selects nothing still zeroes the destination from `VL` up (R101). -/
theorem test_merging_nothing_zeroes_the_upper_bits :
    vecAfter (exec (.evexVpsraw128 1 2 (.reg 3) (.merging .k1)) (mask (base.writeV 1 (every 16 0x8001)) 1 0)) 1 =
      some (((every 16 0x8001).extractLsb' 0 128).setWidth 512) := by decide +kernel

/-- A register that agrees in its low 64 bits, one that is not the destination or the source, and each form completes; so does
one whose count is also its destination, under zeroing-masking. -/
theorem witness_CountRegistersHighBitsAreIgnored :
    (1 <<< 64 : BitVec 512).setWidth 64 = (base.readV 3).setWidth 64 ∧ (3 : VReg) ≠ 1 ∧ (3 : VReg) ≠ 2 ∧
    (∃ t, exec (.psrawXmm 1 (.reg 3)) base = .next t) ∧ (∃ t, exec (.psradXmm 1 (.reg 3)) base = .next t) ∧
    (∃ t, exec (.vpsrawXmm 1 2 (.reg 3)) base = .next t) ∧ (∃ t, exec (.vpsradXmm 1 2 (.reg 3)) base = .next t) ∧
    (∃ t, exec (.vpsrawYmm 1 2 (.reg 3)) base = .next t) ∧ (∃ t, exec (.vpsradYmm 1 2 (.reg 3)) base = .next t) ∧
    (∃ t, exec (.evexVpsraw128 1 2 (.reg 3) (.merging .k1)) base = .next t) ∧
    (∃ t, exec (.evexVpsraw256 1 2 (.reg 3) (.merging .k1)) base = .next t) ∧
    (∃ t, exec (.evexVpsraw512 1 2 (.reg 3) (.merging .k1)) base = .next t) ∧
    (∃ t, exec (.evexVpsrad128 1 2 (.reg 3) (.merging .k1)) base = .next t) ∧
    (∃ t, exec (.evexVpsrad256 1 2 (.reg 3) (.merging .k1)) base = .next t) ∧
    (∃ t, exec (.evexVpsrad512 1 2 (.reg 3) (.merging .k1)) base = .next t) ∧
    (∃ t, exec (.evexVpsraq128 1 2 (.reg 3) (.merging .k1)) base = .next t) ∧
    (∃ t, exec (.evexVpsraq256 1 2 (.reg 3) (.merging .k1)) base = .next t) ∧
    (∃ t, exec (.evexVpsraq512 1 2 (.reg 3) (.merging .k1)) base = .next t) ∧
    ((∀ k, Masking.zeroing .k1 ≠ .merging k) ∧ ∃ t, exec (.evexVpsraw128 3 2 (.reg 3) (.zeroing .k1)) base = .next t) := by
  refine ⟨by decide +kernel, by decide, by decide, ?_, ?_, ?_, ?_, ?_, ?_, ?_, ?_, ?_, ?_, ?_, ?_, ?_, ?_, ?_, ⟨fun k => by simp, ?_⟩⟩ <;>
    exact next_of_pcAfter (p := 0x1004) (by decide +kernel)

/-- The 18 EVEX forms on registers. -/
def evexForms (m : Masking) : List Instr :=
  [.evexVpsraw128 1 2 (.reg 3) m, .evexVpsraw256 1 2 (.reg 3) m, .evexVpsraw512 1 2 (.reg 3) m,
   .evexVpsrad128 1 2 (.reg 3) m, .evexVpsrad256 1 2 (.reg 3) m, .evexVpsrad512 1 2 (.reg 3) m,
   .evexVpsraq128 1 2 (.reg 3) m, .evexVpsraq256 1 2 (.reg 3) m, .evexVpsraq512 1 2 (.reg 3) m] ++
  [.evexVpsraw128Imm 1 (.reg 2) 3 m, .evexVpsraw256Imm 1 (.reg 2) 3 m, .evexVpsraw512Imm 1 (.reg 2) 3 m,
   .evexVpsrad128Imm 1 (.reg 2) 3 m, .evexVpsrad256Imm 1 (.reg 2) 3 m, .evexVpsrad512Imm 1 (.reg 2) 3 m,
   .evexVpsraq128Imm 1 (.reg 2) 3 m, .evexVpsraq256Imm 1 (.reg 2) 3 m, .evexVpsraq512Imm 1 (.reg 2) 3 m]

/-- Masks that differ from bit `KL` up, the first that does not count, in each of the 18 forms. -/
theorem witness_HighMaskBitsAreIgnored :
    ∀ i ∈ evexForms (.merging .k1) ++ evexForms (.zeroing .k1),
      (i.masking = .merging .k1 ∨ i.masking = .zeroing .k1) ∧
      (∀ j, j < i.form.elements → (1 <<< i.form.elements : BitVec 64).getLsbD j = (base.readK .k1).getLsbD j) ∧
      ∃ t, exec i base = .next t := by
  intro i hi
  have h : ∀ i ∈ evexForms (.merging .k1) ++ evexForms (.zeroing .k1),
      (i.masking = .merging .k1 ∨ i.masking = .zeroing .k1) ∧
      (∀ j, j < i.form.elements → (1 <<< i.form.elements : BitVec 64).getLsbD j = (base.readK .k1).getLsbD j) ∧
      pcAfter (exec i base) = some 0x1004 := by decide +kernel
  exact ⟨(h i hi).1, (h i hi).2.1, next_of_pcAfter (h i hi).2.2⟩

theorem witness_UnmaskedEvexEqualsVex : ∀ f ∈ allForms, base.canExecute f = true := by decide +kernel

/-- One well-formed instruction of each class, at the last register its class reaches, in both modes where it is. -/
theorem witness_DecodeInvertsEncode :
    (Instr.psrawMm 7 (.mem (.sum (some 15) (some (15, .s8)) 0x80000000))).wf true = true ∧
    (Instr.psrawXmm 15 (.reg 15)).wf true = true ∧ (Instr.vpsradYmm 15 15 (.reg 15)).wf true = true ∧
    (Instr.evexVpsraq512 31 31 (.reg 31) (.zeroing .k7)).wf true = true ∧
    (Instr.evexVpsrad512Imm 7 (.bcst (.sum (some 7) (some (7, .s1)) 0)) 255 (.merging .k7)).wf false = true := by decide

theorem witness_DecodedInstructionsAreWellFormed : decode true [0x0F, 0xE1, 0xC1] = .ok (.psrawMm 0 (.reg 1)) 3 := by
  decide +kernel

theorem witness_OpcodeRowsAreDisjoint :
    (⟨0x0001E100, 0xFCFFFF00, .psrawMm⟩ : OpcodeRow) ∈ opcodeTable ∧
    (0x0201E1FF : BitVec 32) &&& 0xFCFFFF00 = 0x0001E100 := by decide +kernel

theorem witness_LockPrefixIsInvalidOpcode : (Instr.psrawMm 7 (.reg 7)).wf false = true := by decide

theorem witness_SegmentOverrideHasNoEffect :
    (Instr.psrawMm 7 (.reg 7)).wf false = true ∧ (0x26 : Byte) ∈ ([0x26, 0x2E, 0x36, 0x3E, 0x64, 0x65] : List Byte) ∧
    (0x65 : Byte) ∈ ([0x26, 0x2E, 0x36, 0x3E, 0x64, 0x65] : List Byte) := by decide

theorem witness_PrefixBeforeVexOrEvexIsInvalidOpcode :
    (Instr.vpsrawXmm 15 15 (.reg 15)).wf true = true ∧ (Instr.vpsrawXmm 15 15 (.reg 15)).form.info.cls = .vex ∧
    (Instr.evexVpsraw128 31 31 (.reg 31) .unmasked).wf true = true ∧
    (Instr.evexVpsraw128 31 31 (.reg 31) .unmasked).form.info.cls = .evex ∧
    (0x40 : Byte).extractLsb' 4 4 = 4 ∧ (0x4F : Byte).extractLsb' 4 4 = 4 := by decide

theorem witness_RepeatPrefixOnLegacyIsRefused :
    (Instr.psrawMm 7 (.reg 7)).wf false = true ∧ (Instr.psrawMm 7 (.reg 7)).form.info.cls = .mmx ∧
    (Instr.psradXmmImm 15 255).wf true = true ∧ (Instr.psradXmmImm 15 255).form.info.cls = .sse := by decide

theorem witness_AddressSizePrefixIsRefused :
    ∀ b ∈ ([0x66, 0xF0, 0xF3] : List Byte), b ∈ ([0x26, 0x2E, 0x36, 0x3E, 0x64, 0x65, 0x66, 0xF0, 0xF2, 0xF3] : List Byte) := by
  decide

/-- ModRM bytes at both ends of the range, and bytes 1 and 2 of each VEX prefix, both `W`, that D31 accepts. -/
theorem witness_RegisterOnlyFormsRejectMemory :
    ((0x20 : Byte).extractLsb' 3 3 = 4 ∧ (0x20 : Byte).extractLsb' 6 2 ≠ 3 ∧ (0xA7 : Byte).extractLsb' 3 3 = 4 ∧
      (0xA7 : Byte).extractLsb' 6 2 ≠ 3 ∧ 6 ≤ (List.replicate 6 (0 : Byte)).length) ∧
    ((0x40 : Byte).extractLsb' 4 4 = 4 ∧ (0x4F : Byte).extractLsb' 4 4 = 4) ∧
    ((0x05 : Byte).extractLsb' 0 2 = 1 ∧ (0xF1 : Byte).extractLsb' 0 2 = 1 ∧ (0xF1 : Byte).extractLsb' 6 2 = 3) ∧
    ((0xE1 : Byte).extractLsb' 5 3 = 7 ∧ (0xE1 : Byte).extractLsb' 0 5 = 1 ∧ (0x71 : Byte).getLsbD 6 = true ∧
      (0x71 : Byte).extractLsb' 0 2 = 1 ∧ (0xF5 : Byte).getLsbD 6 = true ∧ (0xF5 : Byte).extractLsb' 0 2 = 1) := by decide

/-- One set of prefix bytes for each of the six reserved combinations, each one that D31 accepts outside 64-bit mode too. -/
theorem witness_ReservedEvexCombinationsAreInvalid :
    ((0xF1 : Byte).extractLsb' 0 2 = 1 ∧ (0x75 : Byte).extractLsb' 0 2 = 1 ∧ 6 ≤ (List.replicate 6 (0 : Byte)).length) ∧
    ((0x18 : Byte).getLsbD 4 = true ∧ (0xE1 : Byte) ≠ 0x72) ∧
    ((0xE2 : Byte).extractLsb' 3 3 = 4 ∧ (0xE2 : Byte).extractLsb' 6 2 = 3) ∧
    ((0x88 : Byte).getLsbD 7 = true ∧ (0x88 : Byte).extractLsb' 0 3 = 0) ∧ (0x68 : Byte).extractLsb' 5 2 = 3 ∧
    ((0xF5 : Byte).extractLsb' 0 2 = 1 ∧ (0xF5 : Byte).extractLsb' 2 2 ≠ 0) ∧
    ((0x71 : Byte).extractLsb' 0 2 = 1 ∧ (0x71 : Byte).getLsbD 2 = false) ∧
    ((0xF1 : Byte).extractLsb' 4 4 = 15 ∧ (0x75 : Byte).getLsbD 6 = true ∧ (0x71 : Byte).getLsbD 6 = true ∧
      (0x18 : Byte).getLsbD 3 = true ∧ (0x88 : Byte).getLsbD 3 = true ∧ (0x68 : Byte).getLsbD 3 = true) := by decide

theorem witness_OutsideSixtyFourBitModeOtherInstructions :
    (0x40 : Byte).extractLsb' 4 4 = 4 ∧ (0x4F : Byte).extractLsb' 4 4 = 4 ∧ (0x00 : Byte).extractLsb' 6 2 ≠ 3 ∧
    (0xBF : Byte).extractLsb' 6 2 ≠ 3 := by decide

end Sys2Proof.Tests
end

section
/-! SUPPORT. What a completed instruction changes and keeps, read off its `Effect`; what stops it past the top,
and that an EVEX form looks at one mask bit per element. -/

namespace Sys2Proof.Machine

open Sys2Proof (Instr Form MmReg VReg RegMem FvSource Masking OpMask Dest)

/-! ## What completion keeps -/

/-- What no completed instruction changes: the parameters, memory, the opmask and general registers, the latched length. -/
structure Kept (s t : State) : Prop where
  launch : t.launch = s.launch
  memory : t.mem = s.mem
  masks : t.k = s.k
  generals : t.gpr = s.gpr
  ilen : t.ilen = s.ilen

theorem Effect.kept {i : Instr} {s t : State} (h : Effect i s t) : Kept s t := by
  cases h with
  | mmx _ _ _ _ eq => subst eq; exact ⟨rfl, rfl, rfl, rfl, rfl⟩
  | sse _ _ _ _ eq => subst eq; exact ⟨rfl, rfl, rfl, rfl, rfl⟩
  | wide _ _ _ _ eq => subst eq; exact ⟨rfl, rfl, rfl, rfl, rfl⟩

theorem Effect.pc_eq {i : Instr} {s t : State} (h : Effect i s t) : t.pc = s.pc + BitVec.ofNat 64 s.ilen := by
  cases h with
  | mmx _ _ _ _ eq => rw [eq]
  | sse _ _ _ _ eq => rw [eq]
  | wide _ _ _ _ eq => rw [eq]

theorem Kept.addrLimit {s t : State} (h : Kept s t) : t.addrLimit = s.addrLimit := by
  simp only [State.addrLimit, State.addrBits, h.launch]

theorem addrLimit_le (s : State) : s.addrLimit ≤ 2 ^ 64 := by
  unfold State.addrLimit State.addrBits
  exact Nat.pow_le_pow_right (by omega) (by split <;> omega)

/-- R25 with D11: the sum does not wrap, and it is an address of the mode. -/
theorem Completed.pc_toNat {i : Instr} {s t : State} (h : Completed i s t) :
    t.pc.toNat = s.pc.toNat + s.ilen ∧ t.pc.toNat < t.addrLimit := by
  have hlt : s.pc.toNat + s.ilen < 2 ^ 64 := h.room.trans_le (addrLimit_le s)
  have hpc : t.pc.toNat = s.pc.toNat + s.ilen := by
    rw [h.effect.pc_eq, BitVec.toNat_add, BitVec.toNat_ofNat, Nat.add_mod_mod, Nat.mod_eq_of_lt hlt]
  exact ⟨hpc, by rw [hpc, h.effect.kept.addrLimit]; exact h.room⟩

/-! ## The registers of each class -/

theorem Effect.cls_mmx_iff {i : Instr} {s t : State} (h : Effect i s t) :
    i.form.info.cls = .mmx ↔ ∃ d, i.dest = .mm d := by
  cases h with
  | mmx cls d dest => simp [cls, dest]
  | sse cls d dest => simp [cls, dest]
  | wide cls d dest => rcases cls with cls | cls <;> simp [cls, dest]

/-- R15, R21: an MMX destination is the only register that changes. -/
theorem Effect.of_dest_mm {i : Instr} {s t : State} (h : Effect i s t) {d : MmReg} (hd : i.dest = .mm d) :
    (∀ r, t.readV r = s.readV r) ∧ ∀ r, r ≠ d → t.readMm r = s.readMm r := by
  cases h with
  | mmx _ d' dest x eq =>
    obtain rfl : d' = d := Dest.mm.inj (dest.symm.trans hd)
    subst eq
    exact ⟨fun _ => rfl, fun _ hr => readMm_writeMm_ne s d' x hr⟩
  | sse _ _ dest => cases dest.symm.trans hd
  | wide _ _ dest => cases dest.symm.trans hd

/-- R16, R21: so is a vector destination. -/
theorem Effect.of_dest_vec {i : Instr} {s t : State} (h : Effect i s t) {d : VReg} (hd : i.dest = .vec d) :
    (∀ r, t.readMm r = s.readMm r) ∧ ∀ r, r ≠ d → t.readV r = s.readV r := by
  cases h with
  | mmx _ _ dest => cases dest.symm.trans hd
  | sse _ d' dest x eq =>
    obtain rfl : d' = d := Dest.vec.inj (dest.symm.trans hd)
    subst eq
    exact ⟨fun _ => rfl, fun _ hr => readV_writeV_ne s d' _ hr⟩
  | wide _ d' dest x eq =>
    obtain rfl : d' = d := Dest.vec.inj (dest.symm.trans hd)
    subst eq
    exact ⟨fun _ => rfl, fun _ hr => readV_writeV_ne s d' _ hr⟩

/-! ## The upper bits of a destination (R101) -/

/-- What lies at or above bit 128 of a vector whose low 128 bits were written is as before. -/
theorem keepUpper_shiftRight (y : BitVec 512) (x : BitVec 128) {k : Nat} (hk : 128 ≤ k) :
    (y.extractLsb' 128 384 ++ x) >>> k = y >>> k := by
  apply BitVec.eq_of_getLsbD_eq
  intro i _
  have h1 : ¬ k + i < 128 := by omega
  have h2 : 128 + (k + i - 128) = k + i := by omega
  rw [BitVec.getLsbD_ushiftRight, BitVec.getLsbD_ushiftRight, BitVec.getLsbD_append, BitVec.getLsbD_extractLsb', h2]
  by_cases h3 : k + i - 128 < 384
  · simp [h1, h3]
  · simp [h1, h3, BitVec.getLsbD_of_ge y (k + i) (by omega)]

theorem readV_writeXmmKeep_shiftRight (s : State) (d : VReg) (x : BitVec 128) {k : Nat} (hk : 128 ≤ k) :
    (s.writeXmmKeep d x).readV d >>> k = s.readV d >>> k := by
  rw [writeXmmKeep_eq, readV_writeV_same, keepUpper_shiftRight _ _ hk]

theorem readV_writeLowZero_shiftRight (s : State) (d : VReg) {n : Nat} (x : BitVec n) {k : Nat} (hk : n ≤ k) :
    (s.writeLowZero d x).readV d >>> k = 0 := by
  rw [writeLowZero_eq, readV_writeV_same, setWidth_shiftRight_eq_zero 512 x hk]

theorem Effect.sse_upper {i : Instr} {s t : State} (h : Effect i s t) {d : VReg} (hd : i.dest = .vec d)
    (hc : i.form.info.cls = .sse) {k : Nat} (hk : 128 ≤ k) : t.readV d >>> k = s.readV d >>> k := by
  cases h with
  | mmx cls => cases hc.symm.trans cls
  | sse _ d' dest x eq =>
    obtain rfl : d' = d := Dest.vec.inj (dest.symm.trans hd)
    subst eq
    exact readV_writeXmmKeep_shiftRight s d' x hk
  | wide cls => rcases cls with cls | cls <;> cases hc.symm.trans cls

theorem Effect.wide_upper {i : Instr} {s t : State} (h : Effect i s t) {d : VReg} (hd : i.dest = .vec d)
    (hc : i.form.info.cls = .vex ∨ i.form.info.cls = .evex) {k : Nat} (hk : i.form.vl ≤ k) : t.readV d >>> k = 0 := by
  cases h with
  | mmx cls => rcases hc with hc | hc <;> cases hc.symm.trans cls
  | sse cls => rcases hc with hc | hc <;> cases hc.symm.trans cls
  | wide _ d' dest x eq =>
    obtain rfl : d' = d := Dest.vec.inj (dest.symm.trans hd)
    subst eq
    exact readV_writeLowZero_shiftRight s d' x hk

/-- The operated length of a form that may execute is at most `MAX_VL` (R145). -/
theorem vl_le_of_canExecute {s : State} {f : Form} (h : s.canExecute f = true) : f.vl ≤ s.launch.maxVl.bits := by
  simp only [State.canExecute, Bool.and_eq_true, decide_eq_true_eq] at h
  exact h.2

theorem maxVl_ge (l : Sys2Proof.VecLen) : 128 ≤ l.bits := by
  cases l <;> decide

/-- R16: a completed instruction leaves the bits at and above `MAX_VL` zero. -/
theorem Completed.vectors {i : Instr} {s t : State} (h : Completed i s t)
    (hs : ∀ r, s.readV r >>> s.launch.maxVl.bits = 0) (r : VReg) : t.readV r >>> s.launch.maxVl.bits = 0 := by
  cases hd : i.dest with
  | mm d => rw [(h.effect.of_dest_mm hd).1 r, hs r]
  | vec d =>
    by_cases hr : r = d
    · subst hr
      cases hc : i.form.info.cls with
      | mmx =>
        obtain ⟨_, hm⟩ := h.effect.cls_mmx_iff.1 hc
        cases hd.symm.trans hm
      | sse => rw [h.effect.sse_upper hd hc (maxVl_ge _), hs r]
      | vex => exact h.effect.wide_upper hd (.inl hc) (vl_le_of_canExecute h.can)
      | evex => exact h.effect.wide_upper hd (.inr hc) (vl_le_of_canExecute h.can)
    · rw [(h.effect.of_dest_vec hd).2 r hr, hs r]

/-! ## The step -/

/-- A completed step completed the instruction that the bytes at `pc` decode to, with its length latched. -/
theorem step_completed {s t : State} (h : step s = .next t) :
    ∃ i n, Sys2Proof.decode s.launch.mode64 (s.fetchBytes s.pc.toNat maxLength) = .ok i n ∧
      Completed i { s with ilen := n } t := by
  obtain ⟨i, n, hd, hx⟩ := step_eq_next h
  exact ⟨i, n, hd, exec_completed hx⟩

/-! ## Past the top (D11) -/

theorem mmxShift_pastTop {f : Form} {w : Nat} {d : MmReg} {s : State} {cnt : Except FaultKind (BitVec 64)} {c : BitVec 64}
    (hf : s.canExecute f = true) (ht : s.addrLimit ≤ s.pc.toNat + s.ilen) (hc : cnt = .ok c) :
    mmxShift f w d cnt s = .refused .pcPastTop := by
  rw [hc, mmxShift_of_ok hf]
  exact complete_of_ge ht

theorem sseShift_pastTop {f : Form} {w : Nat} {d : VReg} {s : State} {cnt : Except FaultKind (BitVec 64)} {c : BitVec 64}
    (hf : s.canExecute f = true) (ht : s.addrLimit ≤ s.pc.toNat + s.ilen) (hc : cnt = .ok c) :
    sseShift f w d cnt s = .refused .pcPastTop := by
  rw [hc, sseShift_of_ok hf]
  exact complete_of_ge ht

theorem vexShift_pastTop {f : Form} {w n : Nat} {d s1 : VReg} {s : State} {cnt : Except FaultKind (BitVec 64)}
    {c : BitVec 64} (hf : s.canExecute f = true) (ht : s.addrLimit ≤ s.pc.toNat + s.ilen) (hc : cnt = .ok c) :
    vexShift f w n d s1 cnt s = .refused .pcPastTop := by
  rw [hc, vexShift_of_ok hf]
  exact complete_of_ge ht

theorem evexShift_pastTop {f : Form} {w n : Nat} {d : VReg} {m : Masking} {s : State} {src : Except FaultKind (BitVec n)}
    {cnt : Except FaultKind (BitVec 64)} {x : BitVec n} {c : BitVec 64} (hf : s.canExecute f = true)
    (ht : s.addrLimit ≤ s.pc.toNat + s.ilen) (hs : src = .ok x) (hc : cnt = .ok c) :
    evexShift f w n d m src cnt s = .refused .pcPastTop := by
  rw [hs, hc, evexShift_of_ok hf]
  exact complete_of_ge ht

/-! ## The mask's high bits (R100) -/

theorem pack_congr {n w : Nat} {f g : Nat → BitVec w} {k : Nat} (h : ∀ j, j < k → f j = g j) :
    pack n w f k = pack n w g k := by
  induction k with
  | zero => rfl
  | succ k ih => rw [pack, pack, ih fun j hj => h j (by omega), h k (by omega)]

/-- A masked write looks at one mask bit per element. -/
theorem maskApply_congr {w n : Nat} (r old : BitVec n) {m m' : BitVec 64} (z : Bool)
    (h : ∀ j, j < n / w → m'.getLsbD j = m.getLsbD j) : maskApply w n r old m' z = maskApply w n r old m z :=
  pack_congr fun j hj => by rw [h j hj]

/-- The state with other opmask registers. -/
def State.withMasks (s : State) (ks : Vector (BitVec 64) 8) : State := { s with k := ks }

section WithMasks

variable (s : State) (ks : Vector (BitVec 64) 8)

theorem withMasks_readable (a : Nat) : (s.withMasks ks).readable a = s.readable a := rfl

theorem withMasks_ea (m : Sys2Proof.MemRef) : (s.withMasks ks).ea m = s.ea m := by
  cases m <;> rfl

theorem withMasks_memRead (a n : Nat) : (s.withMasks ks).memRead a n = s.memRead a n := by
  have hu (n a : Nat) : (s.withMasks ks).firstUnreadable a n = s.firstUnreadable a n := by
    induction n generalizing a with
    | zero => rfl
    | succ n ih => simp only [State.firstUnreadable, withMasks_readable, ih]
  rw [State.memRead, hu]
  rfl

theorem withMasks_countXmm (c : RegMem VReg) : (s.withMasks ks).countXmm c = s.countXmm c := by
  cases c with
  | reg r => rfl
  | mem m => simp only [State.countXmm, State.countM128, withMasks_ea, withMasks_memRead]

theorem withMasks_source (n : Nat) (src : RegMem VReg) : (s.withMasks ks).source n src = s.source n src := by
  cases src with
  | reg r => rfl
  | mem m => simp only [State.source, State.loadVec, withMasks_ea, withMasks_memRead]

theorem withMasks_fvSource (w n : Nat) (src : FvSource) : (s.withMasks ks).fvSource w n src = s.fvSource w n src := by
  cases src with
  | reg r => rfl
  | mem m => simp only [State.fvSource, State.loadVec, withMasks_ea, withMasks_memRead]
  | bcst m => simp only [State.fvSource, State.loadVec, withMasks_ea, withMasks_memRead]

end WithMasks

/-- An EVEX form with the same operands completes alike under masks that agree on its elements. -/
theorem evexShift_withMasks {f : Form} {w n : Nat} {d : VReg} {m : Masking} {src src' : Except FaultKind (BitVec n)}
    {cnt cnt' : Except FaultKind (BitVec 64)} {s t : State} {ks : Vector (BitVec 64) 8} (hs : src' = src) (hc : cnt' = cnt)
    (hm : ∀ j, j < n / w → ((s.withMasks ks).maskBits m).getLsbD j = (s.maskBits m).getLsbD j)
    (h : evexShift f w n d m src cnt s = .next t) :
    evexShift f w n d m src' cnt' (s.withMasks ks) = .next (t.withMasks ks) := by
  subst hs hc
  obtain ⟨can, room, x, hx, c, hc, rfl⟩ := evexShift_eq_next.1 h
  refine evexShift_eq_next.2 ⟨can, room, x, hx, c, hc, ?_⟩
  rw [maskApply_congr _ _ _ hm]
  rfl

/-- So does every instruction that has a masking. -/
theorem exec_withMasks {i : Instr} {s t : State} {ks : Vector (BitVec 64) 8} (hi : i.masking ≠ .unmasked)
    (hm : ∀ j, j < i.form.elements → ((s.withMasks ks).maskBits i.masking).getLsbD j = (s.maskBits i.masking).getLsbD j)
    (h : exec i s = .next t) : exec i (s.withMasks ks) = .next (t.withMasks ks) := by
  cases i
  case evexVpsraw128 c _ | evexVpsraw256 c _ | evexVpsraw512 c _ | evexVpsrad128 c _ | evexVpsrad256 c _ |
      evexVpsrad512 c _ | evexVpsraq128 c _ | evexVpsraq256 c _ | evexVpsraq512 c _ =>
    exact evexShift_withMasks rfl (withMasks_countXmm s ks c) hm h
  case evexVpsraw128Imm src _ _ | evexVpsraw256Imm src _ _ | evexVpsraw512Imm src _ _ =>
    exact evexShift_withMasks (withMasks_source s ks _ src) rfl hm h
  case evexVpsrad128Imm src _ _ | evexVpsrad256Imm src _ _ | evexVpsrad512Imm src _ _ | evexVpsraq128Imm src _ _ |
      evexVpsraq256Imm src _ _ | evexVpsraq512Imm src _ _ =>
    exact evexShift_withMasks (withMasks_fvSource s ks _ _ src) rfl hm h
  all_goals exact absurd rfl hi

/-- The mask value of a masking by `k` is what opmask register `k` holds. -/
theorem maskBits_withMasks_set (s : State) {m : Masking} {k : OpMask} (x : BitVec 64)
    (hm : m = .merging k ∨ m = .zeroing k) :
    (s.withMasks (s.k.set (maskNumber k).val x (maskNumber k).isLt)).maskBits m = x ∧ s.maskBits m = s.readK k := by
  rcases hm with rfl | rfl <;> simp [State.maskBits, State.readK, State.withMasks, Vector.get_eq_getElem]

end Sys2Proof.Machine
end

section
/-! SUPPORT. What the decoder can answer, from its parts up: how many bytes a part takes, which registers a head reaches in
its mode, and that the instruction built from them is well formed (10_state.md R18, R19, R22; 30_encoding.md R51, R74). -/

namespace Sys2Proof

/-! ## Bytes taken -/

/-- What a part of the decoder answers has `P`, and takes at least `n` bytes off the front. -/
def Yields {α : Type} (n : Nat) (P : α → Prop) (f : List Byte → Parse α) : Prop :=
  ∀ bs a rest, f bs = .ok a rest → P a ∧ rest.length + n ≤ bs.length

theorem Yields.mono {α : Type} {m n : Nat} {P : α → Prop} {f : List Byte → Parse α} (h : Yields m P f) (hn : n ≤ m) :
    Yields n P f := fun bs a rest hb => ⟨(h bs a rest hb).1, by have := (h bs a rest hb).2; omega⟩

theorem yields_ok {α : Type} {P : α → Prop} {a : α} (ha : P a) : Yields 0 P fun bs => .ok a bs := by
  intro bs a' rest h
  cases h
  exact ⟨ha, le_rfl⟩

theorem yields_refused {α : Type} (n : Nat) (P : α → Prop) (why : DecodeRefusal) : Yields n P fun _ => .refused why :=
  fun _ _ _ h => by cases h

/-- A byte, then what depends on it. -/
theorem Yields.cons {α : Type} {n : Nat} {P : α → Prop} {f : List Byte → Parse α} (h0 : f [] = .truncated)
    (h : ∀ b, Yields n P fun bs => f (b :: bs)) : Yields (n + 1) P f := by
  intro bs a rest hb
  cases bs with
  | nil => rw [h0] at hb; cases hb
  | cons b bs =>
    obtain ⟨ha, hl⟩ := h b bs a rest hb
    exact ⟨ha, by simpa [← Nat.add_assoc] using hl⟩

theorem takeDisp32_yields : Yields 0 (fun _ => True) takeDisp32 := by
  intro bs d rest h
  match bs with
  | [] | [_] | [_, _] | [_, _, _] => cases h
  | _ :: _ :: _ :: _ :: _ => cases h; exact ⟨trivial, by simp only [List.length_cons]; omega⟩

theorem takeDisp_yields (mod : BitVec 2) (n : Nat) : Yields 0 (fun _ => True) (takeDisp mod n) := by
  unfold takeDisp
  by_cases h0 : mod = 0
  · simpa only [h0, if_true] using yields_ok trivial
  by_cases h1 : mod = 1
  · simp only [if_neg h0, if_pos h1]
    exact (Yields.cons rfl fun b => yields_ok trivial).mono (Nat.zero_le 1)
  · simpa only [if_neg h0, if_neg h1] using takeDisp32_yields

theorem Yields.toMem {n : Nat} {f : List Byte → Parse (BitVec 32)} {g : BitVec 32 → MemRef} {P : RmField → Prop}
    (h : Yields n (fun _ => True) f) (hg : ∀ d, P (.mem (g d))) : Yields n P fun bs => (f bs).toMem g := by
  intro bs a rest hb
  cases hf : f bs <;> simp only [hf, Parse.toMem, reduceCtorEq, Parse.ok.injEq] at hb
  obtain ⟨rfl, rfl⟩ := hb
  exact ⟨hg _, (h bs _ _ hf).2⟩

/-! ## Heads -/

/-- The fields of a head name registers below 8. -/
structure Head.Below8 (h : Head) : Prop where
  r : h.r = false
  x : h.x = false
  b : h.b = false
  rHi : h.rHi = false
  xReg : h.xReg = false
  vvvv : h.vvvv.toNat < 8

/-- The fields of a head name vector registers below 16. -/
structure Head.Below16 (h : Head) : Prop where
  rHi : h.rHi = false
  xReg : h.xReg = false
  vvvv : h.vvvv.toNat < 16

/-- The registers that a head can name: below 8 outside 64-bit mode (R59, R61, R62, D31), below 16 in the classes without the
EVEX extension bits (R63). -/
structure Head.Wf (m64 : Bool) (h : Head) : Prop where
  outside64 : m64 = false → h.Below8
  notEvex : h.cls ≠ .evex → h.Below16

theorem topBits_of_isLongPrefix {b : Byte} (h : isLongPrefix false b = true) : b.getLsbD 7 = true ∧ b.getLsbD 6 = true := by
  revert b; decide

theorem toNat_lt_eight_of_top {v : BitVec 5} (h : v.extractLsb' 3 2 = 0) : v.toNat < 8 := by
  revert v; decide

theorem extensionsOk_false {h : Head} (hx : extensionsOk false h = true) :
    h.b = false ∧ h.rHi = false ∧ h.vvvv.toNat < 8 := by
  simp only [extensionsOk, Bool.false_or, Bool.and_eq_true, Bool.not_eq_true', beq_iff_eq] at hx
  obtain ⟨⟨hb, hr⟩, hv⟩ := hx
  exact ⟨hb, hr, toNat_lt_eight_of_top hv⟩

/-- A head that D31 accepts, with `R`, `X` and the register extension of r/m clear outside 64-bit mode, is well formed. -/
theorem acceptHead_yields {m64 : Bool} {h : Head} (h64 : m64 = false → h.r = false ∧ h.x = false ∧ h.xReg = false)
    (hc : h.cls ≠ .evex → h.Below16) :
    Yields 0 (Head.Wf m64) (acceptHead m64 h) := by
  unfold acceptHead
  by_cases hx : extensionsOk m64 h = true
  · simp only [hx, if_true]
    refine yields_ok ⟨fun hm => ?_, hc⟩
    subst hm
    obtain ⟨hr, hx', hxr⟩ := h64 rfl
    obtain ⟨hb, hrh, hv⟩ := extensionsOk_false hx
    exact ⟨hr, hx', hb, hrh, hxr, hv⟩
  · simp only [hx]
    exact yields_refused 0 _ _

theorem acceptVex_yields {m64 illegal : Bool} {b1 b2 : Byte} (h : isLongPrefix m64 b1 = true) :
    Yields 0 (Head.Wf m64) (acceptHead m64 (vexHead illegal b1 b2)) := by
  refine acceptHead_yields (fun hm => ?_) fun _ => ⟨rfl, rfl, ?_⟩
  · subst hm
    obtain ⟨h7, h6⟩ := topBits_of_isLongPrefix h
    simp [vexHead, h7, h6]
  · have hlt := (~~~(b2.extractLsb' 3 4)).isLt
    simp only [vexHead, BitVec.toNat_setWidth]
    omega

theorem isLongPrefix_vex2 {m64 : Bool} {b1 : Byte} (h : isLongPrefix m64 b1 = true) :
    isLongPrefix m64 (BitVec.ofBool (b1.getLsbD 7) ++ (0b1100001 : BitVec 7)) = true := by
  revert m64 b1; decide

theorem acceptEvex_yields {m64 illegal : Bool} {p0 p1 p2 : Byte} (h : isLongPrefix m64 p0 = true) :
    Yields 0 (Head.Wf m64) (acceptHead m64 (evexHead illegal p0 p1 p2)) := by
  refine acceptHead_yields (fun hm => ?_) fun hc => absurd rfl hc
  subst hm
  obtain ⟨h7, h6⟩ := topBits_of_isLongPrefix h
  simp [evexHead, h7, h6]

/-- A legacy head is well formed where its REX byte may stand: 0x40, which sets no bit, outside 64-bit mode. -/
theorem legacyHead_wf {m64 : Bool} (p : LegacyPrefixes) {rex : Byte} (h : m64 = false → rex = 0x40) :
    (legacyHead p rex).Wf m64 where
  outside64 hm := by
    rw [h hm]
    exact ⟨rfl, rfl, rfl, rfl, rfl, by simp [legacyHead]⟩
  notEvex _ := ⟨rfl, rfl, by simp [legacyHead]⟩

theorem parseEscape_yields {m64 : Bool} (p : LegacyPrefixes) {rex : Option Byte} (c : Byte) (hr : m64 = false → rex = none) :
    Yields 0 (Head.Wf m64) (parseEscape m64 p rex c) := by
  unfold parseEscape
  dsimp only
  split
  · split
    · exact yields_refused 0 _ _
    · exact yields_ok (legacyHead_wf p fun hm => by rw [hr hm]; rfl)
  split
  · refine (Yields.cons (n := 0) rfl fun b1 => ?_).mono (Nat.zero_le 1)
    dsimp only
    split
    · rename_i hl
      exact acceptVex_yields (isLongPrefix_vex2 hl)
    · exact yields_refused 0 _ _
  split
  · refine (Yields.cons (n := 0) rfl fun b1 => ?_).mono (Nat.zero_le 1)
    dsimp only
    split
    · rename_i hl
      exact (Yields.cons (n := 0) rfl fun b2 => acceptVex_yields hl).mono (Nat.zero_le 1)
    · exact yields_refused 0 _ _
  split
  · refine (Yields.cons (n := 0) rfl fun p0 => ?_).mono (Nat.zero_le 1)
    dsimp only
    split
    · rename_i hl
      exact (Yields.cons (n := 1) rfl fun p1 => Yields.cons rfl fun p2 => acceptEvex_yields hl).mono (Nat.zero_le 2)
    · exact yields_refused 0 _ _
  · exact yields_refused 0 _ _

theorem afterPrefixes_yields (m64 : Bool) (p : LegacyPrefixes) : Yields 1 (Head.Wf m64) (afterPrefixes m64 p) := by
  refine Yields.cons rfl fun b => ?_
  simp only [afterPrefixes]
  split
  · rename_i hrex
    refine (Yields.cons (n := 0) rfl fun c => parseEscape_yields p c fun hm => ?_).mono (Nat.zero_le 1)
    simp [isRex, hm] at hrex
  · exact parseEscape_yields p b fun _ => rfl

/-- Every head that is read reaches registers of the mode, and has at least its escape byte. -/
theorem parseHead_yields (m64 : Bool) : Yields 1 (Head.Wf m64) (parseHead m64) := by
  intro bs h rest hh
  rw [parseHead_eq] at hh
  split at hh
  · cases hh
  · obtain ⟨hw, hl⟩ := afterPrefixes_yields m64 _ _ _ _ hh
    obtain ⟨before, hb, -⟩ := takePrefixes_append ⟨false, false, false, false⟩ bs
    have := congrArg List.length hb
    rw [List.length_append] at this
    exact ⟨hw, by omega⟩

/-! ## The class of a row -/

/-- A form that a key finds is the form of a row the key matches. -/
theorem mem_of_findRow {k : BitVec 32} {f : Form} (h : findRow k = some f) :
    ∃ r ∈ opcodeTable, k &&& r.mask = r.pat ∧ r.form = f := by
  obtain ⟨r, hr, hf⟩ := Option.map_eq_some_iff.1 h
  exact ⟨r, List.mem_of_find?_eq_some hr, by simpa using List.find?_some hr, hf⟩

theorem findRow_of_rowMatch {h : Head} {opcode modrm : Byte} {f : Form} (hr : h.rowMatch opcode modrm = .row f) :
    findRow (h.key opcode modrm) = some f := by
  unfold Head.rowMatch at hr
  split at hr
  · cases hr
    assumption
  · split at hr <;> cases hr

/-- Every row's mask looks at the class bits, and they say whether the form is an EVEX form. -/
theorem opcodeTable_classBits :
    ∀ r ∈ opcodeTable, r.mask.extractLsb' 30 2 = 3 ∧ (r.pat.extractLsb' 30 2 = 2 → r.form.info.cls = .evex) := by
  decide

theorem key_classBits (h : Head) (opcode modrm : Byte) : (h.key opcode modrm).extractLsb' 30 2 = h.cls.code := by
  unfold Head.key
  repeat rw [BitVec.extractLsb'_append_eq_of_le (by decide)]
  exact BitVec.extractLsb'_eq_self

/-- An EVEX head matches rows of EVEX forms only. -/
theorem cls_of_rowMatch {h : Head} {opcode modrm : Byte} {f : Form} (hr : h.rowMatch opcode modrm = .row f)
    (hc : h.cls = .evex) : f.info.cls = .evex := by
  obtain ⟨r, hmem, hk, rfl⟩ := mem_of_findRow (findRow_of_rowMatch hr)
  obtain ⟨hmask, hcls⟩ := opcodeTable_classBits r hmem
  apply hcls
  rw [← hk, BitVec.extractLsb'_and, hmask, key_classBits, hc]
  rfl

/-! ## Operands -/

/-- The vector registers a form of class `c` can name, below 8, 16 or 32 (R18, R19). -/
theorem vecWf_of_lt {m64 : Bool} {f : Form} {r : VReg} (h8 : m64 = false → r.val < 8)
    (h16 : f.info.cls ≠ .evex → r.val < 16) : vecWf m64 (f.info.cls == .evex) r = true := by
  simp only [vecWf, decide_eq_true_eq]
  cases m64 with
  | false => exact h8 rfl
  | true =>
    by_cases hc : f.info.cls = .evex
    · simp [hc]
    · simpa [hc] using h16 hc

/-- An r/m operand that the mode and the class reach. -/
def RmField.wf (m64 evex : Bool) : RmField → Bool
  | .reg n => vecWf m64 evex n.toFin
  | .mem m => m.wf m64

/-- A 5-bit register number from its two extension bits. -/
theorem regNumber_lt (hi lo : Bool) (n : BitVec 3) :
    (hi = false → (BitVec.ofBool hi ++ BitVec.ofBool lo ++ n : BitVec 5).toNat < 16) ∧
    (hi = false → lo = false → (BitVec.ofBool hi ++ BitVec.ofBool lo ++ n : BitVec 5).toNat < 8) := by
  revert hi lo n; decide

theorem regVec_wf {m64 : Bool} {h : Head} {f : Form} (hw : h.Wf m64) (hc : h.cls = .evex → f.info.cls = .evex)
    (reg : BitVec 3) : vecWf m64 (f.info.cls == .evex) (h.regVec reg) = true := by
  refine vecWf_of_lt (fun hm => ?_) (fun hn => ?_)
  · have low := hw.outside64 hm
    exact (regNumber_lt _ _ _).2 low.rHi low.r
  · exact (regNumber_lt _ _ _).1 (hw.notEvex (mt hc hn)).rHi

theorem vvvv_wf {m64 : Bool} {h : Head} {f : Form} (hw : h.Wf m64) (hc : h.cls = .evex → f.info.cls = .evex) :
    vecWf m64 (f.info.cls == .evex) h.vvvv.toFin = true :=
  vecWf_of_lt (fun hm => (hw.outside64 hm).vvvv) fun hn => (hw.notEvex (mt hc hn)).vvvv

/-- A general register from its extension bit, which is clear outside 64-bit mode (R22). -/
theorem gprWf_of_ext {m64 b : Bool} (hb : m64 = false → b = false) (n : BitVec 3) :
    gprWf m64 (BitVec.ofBool b ++ n : BitVec 4).toFin = true := by
  revert m64 b n; decide

theorem sum_some_wf (m64 : Bool) (b : GReg) (index : Option (GReg × Scale)) (d : BitVec 32) :
    (MemRef.sum (some b) index d).wf m64 = (gprWf m64 b && (MemRef.sum none index d).wf m64) := by
  simp only [MemRef.wf, Bool.true_and]

/-- The index of a SIB byte is one of the mode, and never number 4 (R57). -/
theorem sibIndex_wf {m64 x : Bool} (hx : m64 = false → x = false) (sib : Byte) (d : BitVec 32) :
    (MemRef.sum none (sibIndex x sib) d).wf m64 = true := by
  unfold sibIndex
  dsimp only
  split
  · rfl
  · rename_i hne
    simp only [MemRef.wf, Bool.true_and, Bool.and_eq_true, decide_eq_true_eq]
    exact ⟨gprWf_of_ext hx _, fun h4 => hne (BitVec.eq_of_toNat_eq h4)⟩

theorem parseSib_yields {m64 evex : Bool} {h : Head} (hw : h.Wf m64) (mod : BitVec 2) (n : Nat) :
    Yields 0 (fun rm => rm.wf m64 evex = true) (parseSib h mod n) := by
  have hx := sibIndex_wf fun hm => (hw.outside64 hm).x
  have hb := gprWf_of_ext fun hm => (hw.outside64 hm).b
  refine (Yields.cons (n := 0) rfl fun sib => ?_).mono (Nat.zero_le 1)
  simp only [parseSib]
  split
  · exact takeDisp32_yields.toMem (hx sib)
  · refine (takeDisp_yields mod n).toMem fun d => ?_
    rw [RmField.wf, sum_some_wf, hb, hx]
    rfl

theorem parseRm_yields {m64 : Bool} {h : Head} {f : Form} (hw : h.Wf m64) (hc : h.cls = .evex → f.info.cls = .evex)
    (n : Nat) (modrm : Byte) :
    Yields 0 (fun rm => rm.wf m64 (f.info.cls == .evex) = true) (parseRm m64 h n modrm) := by
  have hreg (rm : BitVec 3) :
      vecWf m64 (f.info.cls == .evex) (BitVec.ofBool h.xReg ++ BitVec.ofBool h.b ++ rm : BitVec 5).toFin = true := by
    refine vecWf_of_lt (fun hm => ?_) (fun hn => ?_)
    · have low := hw.outside64 hm
      exact (regNumber_lt _ _ _).2 low.xReg low.b
    · exact (regNumber_lt _ _ _).1 (hw.notEvex (mt hc hn)).xReg
  have hb := gprWf_of_ext fun hm => (hw.outside64 hm).b
  unfold parseRm
  dsimp only
  split
  · exact yields_ok (hreg _)
  split
  · exact parseSib_yields hw _ n
  split
  · refine takeDisp32_yields.toMem fun d => ?_
    cases m64 <;> rfl
  · refine (takeDisp_yields _ n).toMem fun d => ?_
    rw [RmField.wf, sum_some_wf, hb]
    rfl

/-! ## The instruction -/

theorem mmRegMem_wf {m64 evex : Bool} {rm : RmField} (h : rm.wf m64 evex = true) : rm.mmRegMem.memWf m64 = true := by
  cases rm with
  | reg n => rfl
  | mem m => exact h

theorem vecRegMem_wf {m64 evex : Bool} {rm : RmField} (h : rm.wf m64 evex = true) :
    rm.vecRegMem.vecMemWf m64 evex = true := by
  cases rm <;> exact h

theorem vecReg?_wf {m64 evex : Bool} {rm : RmField} {r : VReg} (h : rm.wf m64 evex = true) (hr : rm.vecReg? = some r) :
    vecWf m64 evex r = true := by
  cases rm <;> cases hr
  exact h

theorem fvSource_wf {m64 bc : Bool} {rm : RmField} {src : FvSource} (h : rm.wf m64 true = true)
    (hs : rm.fvSource bc = some src) : src.wf m64 = true := by
  cases rm <;> cases bc <;> cases hs <;> exact h

/-- From operands that the mode and the class reach, a well-formed instruction is built. -/
theorem buildInstr_wf {m64 : Bool} {f : Form} {h : Head} {reg : BitVec 3} {rm : RmField} {imm : Byte} {i : Instr}
    (hreg : vecWf m64 (f.info.cls == .evex) (h.regVec reg) = true)
    (hv : vecWf m64 (f.info.cls == .evex) h.vvvv.toFin = true) (hrm : rm.wf m64 (f.info.cls == .evex) = true)
    (hb : buildInstr f h reg rm imm = some i) : i.wf m64 = true := by
  cases f
  case psrawMm | psradMm =>
    obtain rfl := Option.some.inj hb
    exact mmRegMem_wf hrm
  case psrawXmm | psradXmm =>
    obtain rfl := Option.some.inj hb
    exact Bool.and_eq_true_iff.2 ⟨hreg, vecRegMem_wf hrm⟩
  case psrawMmImm | psradMmImm =>
    obtain ⟨d, -, rfl⟩ := Option.map_eq_some_iff.1 hb
    rfl
  case psrawXmmImm | psradXmmImm =>
    obtain ⟨d, hd, rfl⟩ := Option.map_eq_some_iff.1 hb
    exact vecReg?_wf hrm hd
  case vpsrawXmm | vpsradXmm | vpsrawYmm | vpsradYmm =>
    obtain rfl := Option.some.inj hb
    exact Bool.and_eq_true_iff.2 ⟨Bool.and_eq_true_iff.2 ⟨hreg, hv⟩, vecRegMem_wf hrm⟩
  case vpsrawXmmImm | vpsradXmmImm | vpsrawYmmImm | vpsradYmmImm =>
    obtain ⟨s1, hs, rfl⟩ := Option.map_eq_some_iff.1 hb
    exact Bool.and_eq_true_iff.2 ⟨hv, vecReg?_wf hrm hs⟩
  case evexVpsraw128 | evexVpsraw256 | evexVpsraw512 | evexVpsrad128 | evexVpsrad256 | evexVpsrad512 | evexVpsraq128 |
      evexVpsraq256 | evexVpsraq512 =>
    obtain ⟨m, -, rfl⟩ := Option.map_eq_some_iff.1 hb
    exact Bool.and_eq_true_iff.2 ⟨Bool.and_eq_true_iff.2 ⟨hreg, hv⟩, vecRegMem_wf hrm⟩
  case evexVpsraw128Imm | evexVpsraw256Imm | evexVpsraw512Imm =>
    obtain ⟨m, -, rfl⟩ := Option.map_eq_some_iff.1 hb
    exact Bool.and_eq_true_iff.2 ⟨hv, vecRegMem_wf hrm⟩
  case evexVpsrad128Imm | evexVpsrad256Imm | evexVpsrad512Imm | evexVpsraq128Imm | evexVpsraq256Imm | evexVpsraq512Imm =>
    obtain ⟨m, -, hm⟩ := Option.bind_eq_some_iff.1 hb
    obtain ⟨src, hs, rfl⟩ := Option.map_eq_some_iff.1 hm
    exact Bool.and_eq_true_iff.2 ⟨hv, fvSource_wf hrm hs⟩

/-! ## The whole decoder -/

/-- All that decoding to `i` with length `n` went through: a head, a row, the r/m operand, and the instruction they name, the
last `left` bytes being none of it. -/
inductive DecodedBy (m64 : Bool) (bs : List Byte) (i : Instr) (n : Nat) : Prop where
  | intro (h : Head) (opcode modrm imm : Byte) (rest rest' : List Byte) (f : Form) (rm : RmField) (left : Nat)
      (head : parseHead m64 bs = .ok h (opcode :: modrm :: rest))
      (row : h.rowMatch opcode modrm = .row f)
      (operand : parseRm m64 h (f.disp8Scale h.bc) modrm rest = .ok rm rest')
      (built : buildInstr f h (modrm.extractLsb' 3 3) rm imm = some i)
      (left_le : left ≤ rest'.length) (len : n = bs.length - left) (short : n ≤ 15)

theorem finishDecode_eq_ok {row : RowMatch} {h : Head} {reg : BitVec 3} {rm : RmField} {imm : Byte} {len n : Nat} {i : Instr}
    (hd : finishDecode row h reg rm imm len = .ok i n) :
    ∃ f, row = .row f ∧ n = len ∧ len ≤ 15 ∧ buildInstr f h reg rm imm = some i := by
  unfold finishDecode at hd
  split at hd
  · cases hd
  · split at hd <;> cases hd
  · rename_i f
    repeat' split at hd
    all_goals cases hd
    exact ⟨f, rfl, rfl, by omega, by assumption⟩

theorem decodeOperands_eq_ok {m64 : Bool} {total n : Nat} {row : RowMatch} {f : Form} {h : Head} {modrm : Byte}
    {bs : List Byte} {i : Instr} (hd : decodeOperands m64 total row f h modrm bs = .ok i n) :
    ∃ rm rest imm left, parseRm m64 h (f.disp8Scale h.bc) modrm bs = .ok rm rest ∧ left ≤ rest.length ∧
      finishDecode row h (modrm.extractLsb' 3 3) rm imm (total - left) = .ok i n := by
  unfold decodeOperands at hd
  cases hp : parseRm m64 h (f.disp8Scale h.bc) modrm bs with
  | truncated => simp [hp] at hd
  | refused why => simp [hp] at hd
  | ok rm rest =>
    simp only [hp] at hd
    split at hd
    · cases rest with
      | nil => cases hd
      | cons imm rest => exact ⟨rm, _, imm, _, rfl, Nat.le_succ _, hd⟩
    · exact ⟨rm, rest, 0, _, rfl, le_rfl, hd⟩

theorem decode_eq_ok {m64 : Bool} {bs : List Byte} {i : Instr} {n : Nat} (hd : decode m64 bs = .ok i n) :
    DecodedBy m64 bs i n := by
  unfold decode at hd
  split at hd
  · cases hd
  · cases hd
  · cases hd
  · rename_i h opcode rest hh
    split at hd
    · split at hd
      · cases hd
      · rename_i modrm rest
        split at hd
        · cases hd
        · rename_i f hr
          obtain ⟨rm, rest', imm, left, hp, hl, hfin⟩ := decodeOperands_eq_ok hd
          obtain ⟨f', hf, hn, h15, hb⟩ := finishDecode_eq_ok hfin
          cases hf
          exact ⟨h, opcode, modrm, imm, rest, rest', f, rm, left, hh, hr, hp, hb, hl, hn, hn ▸ h15⟩
        · obtain ⟨_, _, _, _, -, -, hfin⟩ := decodeOperands_eq_ok hd
          obtain ⟨_, hf, -⟩ := finishDecode_eq_ok hfin
          cases hf
    · cases hd

end Sys2Proof
end

section
/-! SUPPORT. `decode` inverts `encode`: the r/m operand, the head that each layout's bytes are read as, the row of its
key, and the instruction they name (30_encoding.md R56 to R63, R68, R70, R73). -/

namespace Sys2Proof

/-! ## The row of a form -/

/-- The row of the opcode table that is the form's (R75). -/
def Form.tableRow (f : Form) : OpcodeRow := opcodeTable[f.info.row]

theorem tableRow_mem (f : Form) : f.tableRow ∈ opcodeTable := List.getElem_mem _

theorem tableRow_form (f : Form) : f.tableRow.form = f := by
  cases f <;> rfl

theorem append_bytes (x : BitVec 32) : x.extractLsb' 16 16 ++ x.extractLsb' 8 8 ++ x.extractLsb' 0 8 = x := by
  rw [BitVec.extractLsb'_append_extractLsb'_eq_extractLsb' (by rfl),
    BitVec.extractLsb'_append_extractLsb'_eq_extractLsb' (by rfl)]
  exact BitVec.extractLsb'_eq_self

/-- The ModRM byte of a form without an immediate is free. -/
theorem modrm_free {f : Form} (h : f.hasImm = false) :
    f.tableRow.mask.extractLsb' 0 8 = 0 ∧ f.tableRow.pat.extractLsb' 0 8 = 0 := by
  revert h
  cases f <;> decide

/-- The ModRM byte of a form with an immediate has `/4`, and a register r/m but in the EVEX forms. -/
theorem modrm_fixed {f : Form} (h : f.hasImm = true) :
    f.tableRow.mask.extractLsb' 0 8 = (if f.info.cls = .evex then 0x38 else 0xF8) ∧
    f.tableRow.pat.extractLsb' 0 8 = (if f.info.cls = .evex then 0x20 else 0xE0) := by
  revert h
  cases f <;> decide

theorem modrmByte_and_reg (mod : BitVec 2) (rm : BitVec 3) :
    modrmByte mod 4 rm &&& 0x38 = 0x20 ∧ modrmByte 3 4 rm &&& 0xF8 = 0xE0 := by
  revert mod rm; decide

/-- The ModRM byte of an encoding matches its form's row. -/
theorem modrm_matches {f : Form} {mod : BitVec 2} {reg rm : BitVec 3}
    (h : f.hasImm = true → reg = 4 ∧ (f.info.cls = .evex ∨ mod = 3)) :
    modrmByte mod reg rm &&& f.tableRow.mask.extractLsb' 0 8 = f.tableRow.pat.extractLsb' 0 8 := by
  cases hi : f.hasImm with
  | false =>
    obtain ⟨hmask, hpat⟩ := modrm_free hi
    rw [hmask, hpat]
    exact BitVec.and_zero
  | true =>
    obtain ⟨rfl, hm⟩ := h hi
    obtain ⟨hmask, hpat⟩ := modrm_fixed hi
    rw [hmask, hpat]
    by_cases hc : f.info.cls = .evex
    · simp only [hc, if_true]
      exact (modrmByte_and_reg mod rm).1
    · obtain rfl := hm.resolve_left hc
      simp only [hc, if_false]
      exact (modrmByte_and_reg 3 rm).2

/-! ## The r/m operand -/

/-- The r/m code, in a head with its extension bits, is read as `rm`; it sets no extension bit outside 64-bit mode. -/
structure RmCode.Codes (m64 evex : Bool) (e : RmCode) (rm : RmField) : Prop where
  parses : ∀ (h : Head) (n : Nat) (reg : BitVec 3) (rest : List Byte), h.x = e.x → h.b = e.b → h.xReg = (evex && e.x) →
    parseRm m64 h n (modrmByte e.mod reg e.rm) (e.tail ++ rest) = .ok rm rest
  outside64 : m64 = false → e.x = false ∧ e.b = false
  short : e.tail.length ≤ 5

/-- A 5-bit number from its two high bits and its low three. -/
theorem append_low (n : BitVec 5) :
    (BitVec.ofBool (n.getLsbD 4) ++ BitVec.ofBool (n.getLsbD 3) ++ n.extractLsb' 0 3 : BitVec 5) = n := by
  revert n; decide

/-- The extension bits of a register number that the mode and the class reach. -/
theorem vecWf_bits {m64 evex : Bool} {n : BitVec 5} (h : vecWf m64 evex n.toFin = true) :
    (m64 = false → n.getLsbD 4 = false ∧ n.getLsbD 3 = false) ∧ (evex = false → n.getLsbD 4 = false) := by
  revert m64 evex n; decide

theorem gprWf_bit {r : GReg} (h : gprWf false r = true) : (BitVec.ofFin r : BitVec 4).getLsbD 3 = false := by
  revert r; decide

theorem encReg_codes {m64 evex : Bool} {n : BitVec 5} (h : vecWf m64 evex n.toFin = true) :
    (encReg n).Codes m64 evex (.reg n) where
  parses head k reg rest hx hb hxr := by
    have hxr' : head.xReg = n.getLsbD 4 := by
      rw [hxr]
      cases evex with
      | false => exact ((vecWf_bits h).2 rfl).symm
      | true => rfl
    have hb' : head.b = n.getLsbD 3 := hb
    rw [parseRm_encReg, hxr', hb', append_low]
  outside64 := (vecWf_bits h).1
  short := Nat.zero_le 5

theorem enc_codes {m64 : Bool} {m : MemRef} (evex : Bool) (hw : m.wf m64 = true) : m.enc.Codes m64 evex (.mem m) where
  parses h n reg rest hx hb _ := parseRm_enc n reg rest hw hx hb
  outside64 hm := by
    subst hm
    cases m with
    | ripRel d => cases hw
    | sum base index d =>
      obtain ⟨hbase, hindex⟩ := Bool.and_eq_true_iff.1 hw
      have hx : (encIndex index).1.getLsbD 3 = false := by
        cases index with
        | none => rfl
        | some p => exact gprWf_bit (Bool.and_eq_true_iff.1 hindex).1
      cases base with
      | none => exact ⟨hx, rfl⟩
      | some r => exact ⟨hx, gprWf_bit hbase⟩
  short := Laws.enc_tail_le m

theorem encMm_wf (m64 evex : Bool) (r : MmReg) : vecWf m64 evex (encMm r).toFin = true := by
  revert m64 evex r; decide

theorem encMm_low (r : MmReg) : ((encMm r).extractLsb' 0 3).toFin = r := by
  revert r; decide

/-- The r/m field of an MMX register or memory operand. -/
def RegMem.mmField : RegMem MmReg → RmField
  | .reg r => .reg (Sys2Proof.encMm r)
  | .mem m => .mem m

/-- The r/m field of a vector register or memory operand. -/
def RegMem.vecField : RegMem VReg → RmField
  | .reg r => .reg (BitVec.ofFin r)
  | .mem m => .mem m

/-- The r/m field of the data source of an FVI form. -/
def FvSource.field : FvSource → RmField
  | .reg r => .reg (BitVec.ofFin r)
  | .mem m | .bcst m => .mem m

@[simp] theorem mmRegMem_mmField (c : RegMem MmReg) : c.mmField.mmRegMem = c := by
  cases c with
  | reg r => exact congrArg RegMem.reg (encMm_low r)
  | mem m => rfl

@[simp] theorem vecRegMem_vecField (c : RegMem VReg) : c.vecField.vecRegMem = c := by
  cases c <;> rfl

@[simp] theorem fvSource_field (c : FvSource) : c.field.fvSource c.isBcst = some c := by
  cases c <;> rfl

theorem mmField_codes {m64 evex : Bool} {c : RegMem MmReg} (hw : c.memWf m64 = true) :
    c.encMm.Codes m64 evex c.mmField := by
  cases c with
  | reg r => exact encReg_codes (encMm_wf m64 evex r)
  | mem m => exact enc_codes evex hw

theorem vecField_codes {m64 evex : Bool} {c : RegMem VReg} (hw : c.vecMemWf m64 evex = true) :
    c.encVec.Codes m64 evex c.vecField := by
  cases c with
  | reg r => exact encReg_codes hw
  | mem m => exact enc_codes evex hw

theorem fvField_codes {m64 : Bool} {c : FvSource} (hw : c.wf m64 = true) : c.enc.Codes m64 true c.field := by
  cases c with
  | reg r => exact encReg_codes hw
  | mem m => exact enc_codes true hw
  | bcst m => exact enc_codes true hw

/-! ## The fields of an encoding -/

/-- What the bytes of an encoding hold, whatever its layout: `reg` and `vvvv` with their extension bits (R63). -/
structure Fields where
  cls : KeyClass
  pp : BitVec 2
  ll : BitVec 2
  w : Bool
  op : Byte
  reg : BitVec 5
  vvvv : BitVec 5
  rm : RmCode
  masking : Masking
  bc : Bool
  imm : List Byte

/-- The head that the bytes are read as. -/
def Fields.head (c : Fields) : Head :=
  { cls := c.cls, pp := c.pp, ll := c.ll, w := c.w, map := 1, r := c.reg.getLsbD 3, x := c.rm.x, b := c.rm.b,
    rHi := c.reg.getLsbD 4, xReg := c.cls == .evex && c.rm.x, vvvv := c.vvvv, aaa := c.masking.aaa, z := c.masking.z,
    bc := c.bc, illegal := false }

/-- What follows the head. -/
def Fields.body (c : Fields) : List Byte := opcodeBytes c.op c.reg c.rm c.imm

/-- The bits of a decode key above the opcode byte, in map 0F (R73). -/
def keyHigh (cls : KeyClass) (pp ll : BitVec 2) (w : Bool) : BitVec 16 :=
  cls.code ++ pp ++ ll ++ BitVec.ofBool w ++ (0 : BitVec 1) ++ (1 : BitVec 8)

/-- The form's row asks for these bits above the ModRM byte. -/
abbrev Form.Keyed (f : Form) (cls : KeyClass) (pp ll : BitVec 2) (w : Bool) (op : Byte) : Prop :=
  keyHigh cls pp ll w &&& f.tableRow.mask.extractLsb' 16 16 = f.tableRow.pat.extractLsb' 16 16 ∧
  op &&& f.tableRow.mask.extractLsb' 8 8 = f.tableRow.pat.extractLsb' 8 8 ∧ opcodeInScope op = true

/-- The fields name the instruction, with the r/m operand `rm`. -/
structure Fields.Name (c : Fields) (m64 : Bool) (i : Instr) (rm : RmField) : Prop where
  operand : c.rm.Codes m64 (c.cls == .evex) rm
  reg : vecWf m64 (c.cls == .evex) c.reg.toFin = true
  vvvv : vecWf m64 (c.cls == .evex) c.vvvv.toFin = true
  row : i.form.Keyed c.cls c.pp c.ll c.w c.op
  modrm : i.form.hasImm = true → c.reg = 4 ∧ (i.form.info.cls = .evex ∨ c.rm.mod = 3)
  imm : c.imm.length = i.form.hasImm.toNat
  built : buildInstr i.form c.head (c.reg.extractLsb' 0 3) rm (c.imm.headD 0) = some i

@[simp] theorem head_regVec (cls pp ll w op reg vvvv rm masking bc imm) :
    (Fields.mk cls pp ll w op reg vvvv rm masking bc imm).head.regVec (reg.extractLsb' 0 3) = reg.toFin :=
  congrArg BitVec.toFin (append_low reg)

@[simp] theorem head_vvvv (c : Fields) : c.head.vvvv = c.vvvv := rfl

@[simp] theorem head_bc (c : Fields) : c.head.bc = c.bc := rfl

@[simp] theorem head_masking (c : Fields) : c.head.masking = some c.masking := by
  obtain ⟨cls, pp, ll, w, op, reg, vvvv, rm, masking, bc, imm⟩ := c
  cases masking with
  | unmasked => rfl
  | merging k => cases k <;> rfl
  | zeroing k => cases k <;> rfl

@[simp] theorem head_maskingNb (c : Fields) : c.head.maskingNb = if c.bc then none else some c.masking := by
  rw [Head.maskingNb, head_masking, head_bc]

theorem head_key (c : Fields) (modrm : Byte) : c.head.key c.op modrm = keyHigh c.cls c.pp c.ll c.w ++ c.op ++ modrm := rfl

theorem Fields.Name.rowMatch {c : Fields} {m64 : Bool} {i : Instr} {rm : RmField} (h : c.Name m64 i rm) :
    c.head.rowMatch c.op (modrmByte c.rm.mod (c.reg.extractLsb' 0 3) c.rm.rm) = .row i.form := by
  obtain ⟨hhigh, hop, -⟩ := h.row
  have hmod := modrm_matches (f := i.form) (reg := c.reg.extractLsb' 0 3) (rm := c.rm.rm) fun hi =>
    ⟨by rw [(h.modrm hi).1]; rfl, (h.modrm hi).2⟩
  have key : c.head.key c.op (modrmByte c.rm.mod (c.reg.extractLsb' 0 3) c.rm.rm) &&& i.form.tableRow.mask =
      i.form.tableRow.pat := by
    rw [head_key, ← append_bytes i.form.tableRow.mask, BitVec.and_append, BitVec.and_append, hhigh, hop, hmod,
      append_bytes]
  rw [rowMatch_of_match (tableRow_mem i.form) key, tableRow_form]

/-- An encoding is decoded to what its fields name, once its head is read. -/
theorem Fields.Name.decode {c : Fields} {m64 : Bool} {i : Instr} {rm : RmField} (h : c.Name m64 i rm)
    {code rest : List Byte} (hh : parseHead m64 (code ++ rest) = .ok c.head (c.body ++ rest)) (hl : code.length ≤ 12) :
    Sys2Proof.decode m64 (code ++ rest) = .ok i code.length := by
  have operand (bs : List Byte) := h.operand.parses c.head (i.form.disp8Scale c.bc) (c.reg.extractLsb' 0 3) bs rfl rfl rfl
  have fin : finishDecode (.row i.form) c.head (c.reg.extractLsb' 0 3) rm (c.imm.headD 0)
      ((code ++ rest).length - rest.length) = .ok i code.length := by
    rw [List.length_append, Nat.add_sub_cancel]
    simp only [finishDecode, if_neg (show ¬ 15 < code.length by omega), h.built]
    rfl
  rw [← fin, ← modrmByte_reg c.rm.mod (c.reg.extractLsb' 0 3) c.rm.rm]
  have himm := h.imm
  obtain ⟨-, -, hop⟩ := h.row
  simp only [Fields.body, opcodeBytes, List.cons_append, List.append_assoc] at hh
  cases hi : i.form.hasImm with
  | false =>
    rw [hi] at himm
    rw [List.length_eq_zero_iff.1 himm] at hh ⊢
    exact decode_of_row hh rfl hop h.rowMatch hi (operand rest)
  | true =>
    rw [hi] at himm
    obtain ⟨b, hb⟩ := List.length_eq_one_iff.1 himm
    rw [hb] at hh ⊢
    exact decode_of_row_imm hh rfl hop h.rowMatch hi (operand (b :: rest))

/-! ## The legacy layout (R52, R59) -/

/-- The fields of a legacy encoding. -/
def legacyFields (op66 : Bool) (op : Byte) (reg : BitVec 5) (e : RmCode) (imm : List Byte) : Fields :=
  ⟨.legacy, if op66 then 1 else 0, 0, false, op, reg, 0, e, .unmasked, false, imm⟩

/-- The REX byte with `W = 0` and these extension bits; without any it is 0x40, which stands for no REX byte. -/
def rexByte (r x b : Bool) : Byte :=
  (4 : BitVec 4) ++ BitVec.ofBool false ++ BitVec.ofBool r ++ BitVec.ofBool x ++ BitVec.ofBool b

theorem rexByte_bits (r x b : Bool) : (rexByte r x b).extractLsb' 4 4 = 4 ∧ (rexByte r x b).getLsbD 3 = false ∧
    (rexByte r x b).getLsbD 2 = r ∧ (rexByte r x b).getLsbD 1 = x ∧ (rexByte r x b).getLsbD 0 = b := by
  revert r x b; decide

theorem legacyHead_rexByte (op66 : Bool) (op : Byte) {reg : BitVec 5} (e : RmCode) (imm : List Byte)
    (hreg : reg.getLsbD 4 = false) :
    legacyHead ⟨op66, false, false, false⟩ (rexByte (reg.getLsbD 3) e.x e.b) = (legacyFields op66 op reg e imm).head := by
  obtain ⟨-, hw, hr, hx, hb⟩ := rexByte_bits (reg.getLsbD 3) e.x e.b
  simp only [legacyHead, Fields.head, legacyFields, hw, hr, hx, hb, hreg]
  rfl

/-- A REX byte is written only in 64-bit mode, where it is read back. -/
theorem parseHead_rexBytes {m64 r x b : Bool} (op66 : Bool) (bs : List Byte)
    (h : m64 = false → r = false ∧ x = false ∧ b = false) :
    parseHead m64 ((if op66 then [0x66] else []) ++ rexBytes r x b ++ 0x0F :: bs) =
      .ok (legacyHead ⟨op66, false, false, false⟩ (rexByte r x b)) bs := by
  by_cases hext : (r || x || b) = true
  · obtain rfl : m64 = true := by
      cases m64 with
      | true => rfl
      | false =>
        obtain ⟨rfl, rfl, rfl⟩ := h rfl
        cases hext
    simp only [rexBytes, hext, if_true]
    cases op66 with
    | false => exact parseHead_rex _ (rexByte_bits r x b).1
    | true => exact parseHead_rex66 _ (rexByte_bits r x b).1
  · simp only [rexBytes, hext]
    simp only [Bool.or_eq_true, not_or, Bool.not_eq_true] at hext
    obtain ⟨⟨rfl, rfl⟩, rfl⟩ := hext
    cases op66 with
    | false => exact parseHead_legacy m64 _
    | true => exact parseHead_legacy66 m64 _

theorem decode_legacyBytes {m64 op66 : Bool} {op : Byte} {reg : BitVec 5} {e : RmCode} {imm : List Byte} {i : Instr}
    {rm : RmField} (rest : List Byte) (h : (legacyFields op66 op reg e imm).Name m64 i rm) :
    decode m64 (legacyBytes op66 op reg e imm ++ rest) = .ok i (legacyBytes op66 op reg e imm).length := by
  obtain ⟨h64, hev⟩ := vecWf_bits h.reg
  refine h.decode ?_ (Laws.legacy_bound h.operand.short (h.imm.trans_le (Bool.toNat_le _))).2
  have hreg : reg.getLsbD 4 = false := hev rfl
  rw [← legacyHead_rexByte op66 op e imm hreg, legacyBytes, List.append_assoc]
  exact parseHead_rexBytes op66 _ fun hm => ⟨(h64 hm).2, h.operand.outside64 hm⟩

/-! ## The VEX layout (R53, R61) -/

/-- The fields of a VEX encoding. -/
def vexFields (l : Bool) (op : Byte) (reg vvvv : BitVec 5) (e : RmCode) (imm : List Byte) : Fields :=
  ⟨.vex, 1, (BitVec.ofBool l).setWidth 2, false, op, reg, vvvv, e, .unmasked, false, imm⟩

/-- The bytes 1 and 2 of the three-byte VEX encoding, read back. -/
theorem vexHead_bytes (r x b l : Bool) (v : BitVec 4) :
    vexHead false (BitVec.ofBool (!r) ++ BitVec.ofBool (!x) ++ BitVec.ofBool (!b) ++ (1 : BitVec 5))
      (BitVec.ofBool false ++ ~~~v ++ BitVec.ofBool l ++ (1 : BitVec 2)) =
      { cls := .vex, pp := 1, ll := (BitVec.ofBool l).setWidth 2, w := false, map := 1, r := r, x := x, b := b, rHi := false,
        xReg := false, vvvv := v.setWidth 5, aaa := 0, z := false, bc := false, illegal := false } := by
  revert r x b l v; decide

theorem isLongPrefix_vexByte {m64 r x : Bool} (b : Bool) (h : m64 = false → r = false ∧ x = false) :
    isLongPrefix m64 (BitVec.ofBool (!r) ++ BitVec.ofBool (!x) ++ BitVec.ofBool (!b) ++ (1 : BitVec 5)) = true := by
  revert m64 r x b; decide

theorem low_setWidth {v : BitVec 5} (h : v.getLsbD 4 = false) : (v.extractLsb' 0 4).setWidth 5 = v := by
  revert v; decide

theorem topBits_eq_zero {v : BitVec 5} (h : v.getLsbD 4 = false ∧ v.getLsbD 3 = false) : v.extractLsb' 3 2 = 0 := by
  revert v; decide

/-- D31 accepts the head of an encoding whose registers the mode reaches. -/
theorem Fields.Name.extensionsOk {c : Fields} {m64 : Bool} {i : Instr} {rm : RmField} (h : c.Name m64 i rm) :
    extensionsOk m64 c.head = true := by
  cases m64 with
  | true => rfl
  | false =>
    have hr : c.reg.getLsbD 4 = false := ((vecWf_bits h.reg).1 rfl).1
    have hv := topBits_eq_zero ((vecWf_bits h.vvvv).1 rfl)
    have hb := (h.operand.outside64 rfl).2
    simp only [Sys2Proof.extensionsOk, Fields.head, hr, hv, hb]
    rfl

theorem decode_vexBytes {m64 l : Bool} {op : Byte} {reg vvvv : BitVec 5} {e : RmCode} {imm : List Byte} {i : Instr}
    {rm : RmField} (rest : List Byte) (h : (vexFields l op reg vvvv e imm).Name m64 i rm) :
    decode m64 (vexBytes l op reg vvvv e imm ++ rest) = .ok i (vexBytes l op reg vvvv e imm).length := by
  have hreg : reg.getLsbD 4 = false := (vecWf_bits h.reg).2 rfl
  have hvvvv : vvvv.getLsbD 4 = false := (vecWf_bits h.vvvv).2 rfl
  have head : (vexFields l op reg vvvv e imm).head = vexHead false
      (BitVec.ofBool (!reg.getLsbD 3) ++ BitVec.ofBool (!e.x) ++ BitVec.ofBool (!e.b) ++ (1 : BitVec 5))
      (BitVec.ofBool false ++ ~~~(vvvv.extractLsb' 0 4) ++ BitVec.ofBool l ++ (1 : BitVec 2)) := by
    rw [vexHead_bytes, low_setWidth hvvvv]
    simp only [Fields.head, vexFields, hreg]
    rfl
  refine h.decode ?_ (Laws.vex_bound h.operand.short (h.imm.trans_le (Bool.toNat_le _))).2
  have ok := h.extensionsOk
  rw [head] at ok ⊢
  exact parseHead_vex _
    (isLongPrefix_vexByte _ fun hm => ⟨((vecWf_bits h.reg).1 hm).2, (h.operand.outside64 hm).1⟩) ok

/-! ## The EVEX layout (R54, R62) -/

/-- The fields of an EVEX encoding. -/
def evexFields (w : Bool) (ll : BitVec 2) (bc : Bool) (m : Masking) (op : Byte) (reg vvvv : BitVec 5) (e : RmCode)
    (imm : List Byte) : Fields :=
  ⟨.evex, 1, ll, w, op, reg, vvvv, e, m, bc, imm⟩

/-- P0 of an EVEX encoding, read back. -/
theorem evexP0_bits (r x b r' : Bool) :
    let p0 : Byte := BitVec.ofBool (!r) ++ BitVec.ofBool (!x) ++ BitVec.ofBool (!b) ++ BitVec.ofBool (!r') ++ (1 : BitVec 4)
    p0.getLsbD 7 = !r ∧ p0.getLsbD 6 = !x ∧ p0.getLsbD 5 = !b ∧ p0.getLsbD 4 = !r' ∧ p0.extractLsb' 2 2 = 0 ∧
      p0.extractLsb' 0 2 = 1 ∧ ∀ m64 : Bool, (m64 = false → r = false ∧ x = false) → isLongPrefix m64 p0 = true := by
  revert r x b r'; decide

/-- P1 of an EVEX encoding, read back. -/
theorem evexP1_bits (w : Bool) (v : BitVec 4) :
    let p1 : Byte := BitVec.ofBool w ++ ~~~v ++ BitVec.ofBool true ++ (1 : BitVec 2)
    p1.getLsbD 7 = w ∧ p1.extractLsb' 3 4 = ~~~v ∧ p1.getLsbD 2 = true ∧ p1.extractLsb' 0 2 = 1 := by
  revert w v; decide

/-- P2 of an EVEX encoding, read back. -/
theorem evexP2_bits (z bc v : Bool) (ll : BitVec 2) (aaa : BitVec 3) :
    let p2 : Byte := BitVec.ofBool z ++ ll ++ BitVec.ofBool bc ++ BitVec.ofBool (!v) ++ aaa
    p2.getLsbD 7 = z ∧ p2.extractLsb' 5 2 = ll ∧ p2.getLsbD 4 = bc ∧ p2.getLsbD 3 = !v ∧ p2.extractLsb' 0 3 = aaa := by
  revert z bc v ll aaa; decide

theorem append_low4 (v : BitVec 5) : (BitVec.ofBool (v.getLsbD 4) ++ v.extractLsb' 0 4 : BitVec 5) = v := by
  revert v; decide

theorem decode_evexBytes {m64 w bc : Bool} {ll : BitVec 2} {m : Masking} {op : Byte} {reg vvvv : BitVec 5} {e : RmCode}
    {imm : List Byte} {i : Instr} {rm : RmField} (rest : List Byte)
    (h : (evexFields w ll bc m op reg vvvv e imm).Name m64 i rm) :
    decode m64 (evexBytes w ll bc m op reg vvvv e imm ++ rest) = .ok i (evexBytes w ll bc m op reg vvvv e imm).length := by
  obtain ⟨h07, h06, h05, h04, h02, h00, hlong⟩ := evexP0_bits (reg.getLsbD 3) e.x e.b (reg.getLsbD 4)
  obtain ⟨h17, h13, h12, h10⟩ := evexP1_bits w (vvvv.extractLsb' 0 4)
  obtain ⟨h27, h25, h24, h23, h20⟩ := evexP2_bits m.z bc (vvvv.getLsbD 4) ll m.aaa
  have head : (evexFields w ll bc m op reg vvvv e imm).head = evexHead false
      (BitVec.ofBool (!reg.getLsbD 3) ++ BitVec.ofBool (!e.x) ++ BitVec.ofBool (!e.b) ++ BitVec.ofBool (!reg.getLsbD 4) ++
        (1 : BitVec 4))
      (BitVec.ofBool w ++ ~~~(vvvv.extractLsb' 0 4) ++ BitVec.ofBool true ++ (1 : BitVec 2))
      (BitVec.ofBool m.z ++ ll ++ BitVec.ofBool bc ++ BitVec.ofBool (!vvvv.getLsbD 4) ++ m.aaa) := by
    simp only [evexHead, h07, h06, h05, h04, h02, h00, h17, h13, h12, h10, h27, h25, h24, h23, h20, Bool.not_not,
      BitVec.not_not, append_low4]
    rfl
  refine h.decode ?_ (Laws.evex_bound h.operand.short (h.imm.trans_le (Bool.toNat_le _))).2
  have ok := h.extensionsOk
  rw [head] at ok ⊢
  exact parseHead_evex _ (hlong m64 fun hm => ⟨((vecWf_bits h.reg).1 hm).2, (h.operand.outside64 hm).1⟩) ok

/-! ## Every instruction -/

theorem vecWf_zero_four (m64 evex : Bool) :
    vecWf m64 evex (0 : BitVec 5).toFin = true ∧ vecWf m64 evex (4 : BitVec 5).toFin = true := by
  revert m64 evex; decide

/-- Decoding the encoding of a well-formed instruction gives it back with its length, whatever follows. -/
theorem decode_encode {m64 : Bool} {i : Instr} (rest : List Byte) (hw : i.wf m64 = true) :
    decode m64 (encode i ++ rest) = .ok i (encode i).length := by
  have zero {evex : Bool} := (vecWf_zero_four m64 evex).1
  have four {evex : Bool} := (vecWf_zero_four m64 evex).2
  cases i
  case psrawMm d c | psradMm d c =>
    exact decode_legacyBytes rest
      { operand := mmField_codes hw
        reg := encMm_wf _ _ d
        vvvv := zero
        row := by dsimp only [Instr.form, legacyFields]; decide
        modrm := nofun
        imm := rfl
        built := by simp only [buildInstr, Instr.form, legacyFields, encMm_low, mmRegMem_mmField] }
  case psrawXmm d c | psradXmm d c =>
    obtain ⟨hd, hc⟩ := Bool.and_eq_true_iff.1 hw
    exact decode_legacyBytes rest
      { operand := vecField_codes hc
        reg := hd
        vvvv := zero
        row := by dsimp only [Instr.form, legacyFields]; decide
        modrm := nofun
        imm := rfl
        built := by simp [buildInstr, Instr.form, legacyFields] }
  case psrawMmImm d imm | psradMmImm d imm =>
    exact decode_legacyBytes rest
      { operand := encReg_codes (encMm_wf _ _ d)
        reg := four
        vvvv := zero
        row := by dsimp only [Instr.form, legacyFields]; decide
        modrm := fun _ => ⟨rfl, .inr rfl⟩
        imm := rfl
        built := by simp only [buildInstr, Instr.form, legacyFields, RmField.mmReg?, encMm_low,
          Option.map_some, List.headD_cons] }
  case psrawXmmImm d imm | psradXmmImm d imm =>
    exact decode_legacyBytes rest
      { operand := encReg_codes hw
        reg := four
        vvvv := zero
        row := by dsimp only [Instr.form, legacyFields]; decide
        modrm := fun _ => ⟨rfl, .inr rfl⟩
        imm := rfl
        built := by simp [buildInstr, Instr.form, legacyFields, RmField.vecReg?] }
  case vpsrawXmm d s1 c | vpsradXmm d s1 c | vpsrawYmm d s1 c | vpsradYmm d s1 c =>
    obtain ⟨hds, hc⟩ := Bool.and_eq_true_iff.1 hw
    obtain ⟨hd, hs⟩ := Bool.and_eq_true_iff.1 hds
    exact decode_vexBytes rest
      { operand := vecField_codes hc
        reg := hd
        vvvv := hs
        row := by dsimp only [Instr.form, vexFields]; decide
        modrm := nofun
        imm := rfl
        built := by simp [buildInstr, Instr.form, vexFields] }
  case vpsrawXmmImm d s1 imm | vpsradXmmImm d s1 imm | vpsrawYmmImm d s1 imm | vpsradYmmImm d s1 imm =>
    obtain ⟨hd, hs⟩ := Bool.and_eq_true_iff.1 hw
    exact decode_vexBytes rest
      { operand := encReg_codes hs
        reg := four
        vvvv := hd
        row := by dsimp only [Instr.form, vexFields]; decide
        modrm := fun _ => ⟨rfl, .inr rfl⟩
        imm := rfl
        built := by simp [buildInstr, Instr.form, vexFields, RmField.vecReg?] }
  case evexVpsraw128 d s1 c m | evexVpsraw256 d s1 c m | evexVpsraw512 d s1 c m | evexVpsrad128 d s1 c m |
      evexVpsrad256 d s1 c m | evexVpsrad512 d s1 c m | evexVpsraq128 d s1 c m | evexVpsraq256 d s1 c m |
      evexVpsraq512 d s1 c m =>
    obtain ⟨hds, hc⟩ := Bool.and_eq_true_iff.1 hw
    obtain ⟨hd, hs⟩ := Bool.and_eq_true_iff.1 hds
    exact decode_evexBytes rest
      { operand := vecField_codes hc
        reg := hd
        vvvv := hs
        row := by dsimp only [Instr.form, evexFields]; decide
        modrm := nofun
        imm := rfl
        built := by simp [buildInstr, Instr.form, evexFields] }
  case evexVpsraw128Imm d src imm m | evexVpsraw256Imm d src imm m | evexVpsraw512Imm d src imm m =>
    obtain ⟨hd, hs⟩ := Bool.and_eq_true_iff.1 hw
    exact decode_evexBytes rest
      { operand := vecField_codes hs
        reg := four
        vvvv := hd
        row := by dsimp only [Instr.form, evexFields]; decide
        modrm := fun _ => ⟨rfl, .inl rfl⟩
        imm := rfl
        built := by simp [buildInstr, Instr.form, evexFields] }
  case evexVpsrad128Imm d src imm m | evexVpsrad256Imm d src imm m | evexVpsrad512Imm d src imm m |
      evexVpsraq128Imm d src imm m | evexVpsraq256Imm d src imm m | evexVpsraq512Imm d src imm m =>
    obtain ⟨hd, hs⟩ := Bool.and_eq_true_iff.1 hw
    exact decode_evexBytes rest
      { operand := fvField_codes hs
        reg := four
        vvvv := hd
        row := by dsimp only [Instr.form, evexFields]; decide
        modrm := fun _ => ⟨rfl, .inl rfl⟩
        imm := rfl
        built := by simp [buildInstr, Instr.form, evexFields] }

end Sys2Proof
end

section
/-! SUPPORT. The obligations of 10_state.md: the step and its invariant, what pc does along a run, the registers and bits
that each class writes. -/

namespace Sys2Proof.Machine

open Sys2Proof

/-! ## The decoder -/

/-- Settles O42: the head reaches only registers of its mode and class, at least three bytes are read (escape, opcode,
ModRM), and an over-long instruction is not answered. -/
theorem decodedInstructionsAreWellFormed : Obligations.DecodedInstructionsAreWellFormed := by
  intro m64 bs i n hd
  obtain ⟨h, opcode, modrm, imm, rest, rest', f, rm, left, head, row, operand, built, left_le, len, short⟩ :=
    decode_eq_ok hd
  obtain ⟨hw, hlen⟩ := parseHead_yields m64 _ _ _ head
  have hc : h.cls = .evex → f.info.cls = .evex := cls_of_rowMatch row
  obtain ⟨hrm, hrest⟩ := parseRm_yields hw hc _ modrm _ _ _ operand
  simp only [List.length_cons] at hlen
  exact ⟨buildInstr_wf (regVec_wf hw hc _) (vvvv_wf hw hc) hrm built, by omega, short, by omega⟩

/-! ## The step -/

/-- Settles O29: the fetch latches the decoded length, and the step executes what it fetched. -/
theorem stepRunsTheDecodedInstruction : Obligations.StepRunsTheDecodedInstruction := by
  intro s i n h
  have hf : s.fetch = .run i { s with ilen := n } := by simp only [State.fetch, maxLength, h]
  simp only [step, hf]

/-- Settles O30: the encoding is the front of what the fetch reads, and decodes to its instruction whatever follows. -/
theorem stepRunsAnEncodedInstruction : Obligations.StepRunsAnEncodedInstruction := by
  intro s i hw hr hb
  obtain ⟨-, -, hlen, -⟩ := decodedInstructionsAreWellFormed _ _ _ _ (decode_encode [] hw)
  obtain ⟨rest, hf⟩ := fetchBytes_eq_append s s.pc.toNat 15 (encode i) hlen hr hb
  exact stepRunsTheDecodedInstruction s i _ (hf ▸ decode_encode rest hw)

/-- Settles O32: `Completed` says what the last step did to each field the invariant speaks of. -/
theorem stepKeepsTheInvariant : Obligations.StepKeepsTheInvariant := by
  intro s t hs h
  obtain ⟨i, n, -, hc⟩ := step_completed h
  have kept := hc.effect.kept
  have hl : t.launch = s.launch := kept.launch
  exact
    { features := hl ▸ hs.features
      enabled := hl ▸ hs.enabled
      memory := kept.memory ▸ hs.memory
      pc := hc.pc_toNat.2
      vectors := hl ▸ hc.vectors hs.vectors }

/-- Settles O33: every register is 0 and no cell is listed. -/
theorem resetHasTheInvariant : Obligations.ResetHasTheInvariant where
  features := by decide
  enabled := by decide
  memory := rfl
  pc := by decide
  vectors r := by simp [State.reset, State.readV, Vector.get_eq_getElem]

/-! ## The program counter -/

/-- Settles O31: completion adds the latched length, which is the decoded instruction's. -/
theorem stepMovesPcPastTheInstruction : Obligations.StepMovesPcPastTheInstruction := by
  intro s t h
  obtain ⟨i, n, hd, hc⟩ := step_completed h
  obtain ⟨-, h3, h15, -⟩ := decodedInstructionsAreWellFormed _ _ i n hd
  obtain ⟨hpc, hlt⟩ := hc.pc_toNat
  have hn : t.ilen = n := hc.effect.kept.ilen
  exact ⟨by rw [hpc, hn], hn ▸ h3, hn ▸ h15, hlt⟩

/-- A run of one more step is a step and the run from there. -/
theorem run_succ_eq_next {M : Host.Core} {n : Nat} {s t : M.State} (h : M.run (n + 1) s = .next t) :
    ∃ s', M.step s = .next s' ∧ M.run n s' = .next t := by
  simp only [Host.Core.run] at h
  cases hs : M.step s with
  | next s' => rw [hs] at h; exact ⟨s', rfl, h⟩
  | fault f => rw [hs] at h; cases h
  | refused r => rw [hs] at h; cases h

/-- Settles O35, by induction on the number of steps. -/
theorem runsMoveForward : Obligations.RunsMoveForward := by
  intro n
  induction n with
  | zero =>
    intro s t h
    obtain rfl : s = t := Host.Outcome.next.inj h
    exact ⟨le_rfl, le_rfl⟩
  | succ n ih =>
    intro s t h
    obtain ⟨s', hs, hr⟩ := run_succ_eq_next h
    obtain ⟨hpc, h3, h15, -⟩ := stepMovesPcPastTheInstruction s s' hs
    obtain ⟨hlo, hhi⟩ := ih s' t hr
    omega

/-- Settles O28: with its form enabled and its operands there, each form comes down to completion. -/
theorem pastTheTopIsRefused : Obligations.PastTheTopIsRefused := by
  intro i s hf ho ht
  cases i
  case psrawMm | psradMm =>
    obtain ⟨_, hc, -⟩ := countMm_ok ho
    exact mmxShift_pastTop hf ht hc
  case psrawMmImm | psradMmImm => exact mmxShift_pastTop hf ht rfl
  case psrawXmm | psradXmm =>
    obtain ⟨hr, ha⟩ := ho
    obtain ⟨_, hc, -⟩ := countXmmAligned_ok hr ha
    exact sseShift_pastTop hf ht hc
  case psrawXmmImm | psradXmmImm => exact sseShift_pastTop hf ht rfl
  case vpsrawXmm | vpsradXmm | vpsrawYmm | vpsradYmm =>
    obtain ⟨_, hc, -⟩ := countXmm_ok ho
    exact vexShift_pastTop hf ht hc
  case vpsrawXmmImm | vpsradXmmImm | vpsrawYmmImm | vpsradYmmImm => exact vexShift_pastTop hf ht rfl
  case evexVpsraw128 | evexVpsraw256 | evexVpsraw512 | evexVpsrad128 | evexVpsrad256 | evexVpsrad512 | evexVpsraq128 |
      evexVpsraq256 | evexVpsraq512 =>
    obtain ⟨_, hc, -⟩ := countXmm_ok ho
    exact evexShift_pastTop hf ht rfl hc
  case evexVpsraw128Imm | evexVpsraw256Imm | evexVpsraw512Imm =>
    obtain ⟨_, hs, -⟩ := source_ok (w := 16) (by decide) (by decide) ho
    exact evexShift_pastTop hf ht hs rfl
  case evexVpsrad128Imm | evexVpsrad256Imm | evexVpsrad512Imm | evexVpsraq128Imm | evexVpsraq256Imm | evexVpsraq512Imm =>
    obtain ⟨_, hs, -⟩ := fvSource_ok (by decide) (by decide) ho
    exact evexShift_pastTop hf ht hs rfl

/-! ## The registers of each class -/

/-- Settles O36: the effect of a completed instruction is one write, to its destination. -/
theorem classesKeepToTheirRegisters : Obligations.ClassesKeepToTheirRegisters := by
  intro i s t h
  have he := (exec_completed h).effect
  refine ⟨fun d hd => ⟨he.cls_mmx_iff.2 ⟨d, hd⟩, he.of_dest_mm hd⟩, fun d hd => ⟨fun hc => ?_, he.of_dest_vec hd⟩⟩
  obtain ⟨_, hm⟩ := he.cls_mmx_iff.1 hc
  cases hd.symm.trans hm

/-- Settles O37: each class's write says what becomes of the bits above the written ones. -/
theorem upperBitsFollowTheClass : Obligations.UpperBitsFollowTheClass := by
  intro i s t h
  have he := (exec_completed h).effect
  refine ⟨fun d hd => ⟨fun hc => he.sse_upper hd hc le_rfl, fun hc => he.wide_upper hd hc le_rfl,
    (he.of_dest_vec hd).2⟩, fun hc => ?_⟩
  obtain ⟨_, hd⟩ := he.cls_mmx_iff.1 hc
  exact (he.of_dest_mm hd).1

/-- Settles O39: the mask value enters through one bit per element, and no operand reads an opmask register. -/
theorem highMaskBitsAreIgnored : Obligations.HighMaskBitsAreIgnored := by
  intro i s t k x hk hx h
  obtain ⟨hnew, hold⟩ := maskBits_withMasks_set s x hk
  refine exec_withMasks (fun hu => ?_) (fun j hj => ?_) h
  · rw [hu] at hk
    rcases hk with hk | hk <;> cases hk
  · rw [hnew, hold, hx j hj]

end Sys2Proof.Machine
end

section
/-! SUPPORT. Effective addresses as integers modulo the address width, and what a form does with an operand in memory
that has an unreadable byte. -/

namespace Sys2Proof.Machine

open Sys2Proof (Form MmReg VReg GReg Scale MemRef RegMem FvSource Masking)

/-! ## Effective addresses (R46) -/

/-- The unsigned value of a base or index register, 0 where there is none. -/
def State.gprValue (s : State) : Option GReg → Int
  | none => 0
  | some r => (s.readGpr r).toNat

/-- The factor of an index as an integer. -/
def scaleValue : Scale → Int
  | .s1 => 1
  | .s2 => 2
  | .s4 => 4
  | .s8 => 8

theorem ofInt_scaleValue (sc : Scale) : BitVec.ofInt 64 (scaleValue sc) = scaleFactor sc := by
  cases sc <;> rfl

/-- Truncating a sum formed in 64 bits is the sum modulo the size of the address space. -/
theorem truncAddr_ofInt (s : State) (y : Int) : ((s.truncAddr (BitVec.ofInt 64 y)).toNat : Int) = y % 2 ^ s.addrBits := by
  have low : ((BitVec.ofInt 64 y).toNat : Int) = y % 2 ^ 64 := by
    rw [BitVec.toNat_ofInt]
    exact Int.toNat_of_nonneg (Int.emod_nonneg y (by decide))
  unfold State.truncAddr State.addrBits
  split
  · exact low
  · rw [BitVec.toNat_setWidth_of_le (by decide), BitVec.toNat_setWidth, Int.natCast_emod, low]
    exact Int.emod_emod_of_dvd y (by decide)

theorem ea_sum (s : State) (base index : Option GReg) (sc : Scale) (disp : BitVec 32) :
    (s.ea (.sum base (index.map fun r => (r, sc)) disp) : Int) =
      (s.gprValue base + s.gprValue index * scaleValue sc + disp.toInt) % 2 ^ s.addrBits := by
  rw [← truncAddr_ofInt, BitVec.ofInt_add, BitVec.ofInt_add, BitVec.ofInt_mul, ofInt_scaleValue]
  cases base <;> cases index <;> simp [State.ea, State.gprValue, BitVec.signExtend]

theorem ea_ripRel (s : State) (disp : BitVec 32) :
    (s.ea (.ripRel disp) : Int) = ((s.pc.toNat : Int) + s.ilen + disp.toInt) % 2 ^ s.addrBits := by
  rw [← truncAddr_ofInt, BitVec.ofInt_add, BitVec.ofInt_add]
  simp [State.ea, BitVec.signExtend]

/-! ## A form whose operand cannot be read raises its fault -/

theorem mmxShift_of_error {f : Form} {w : Nat} {d : MmReg} {s : State} {cnt : Except FaultKind (BitVec 64)} {e : FaultKind}
    (hc : cnt = .error e) (hf : s.canExecute f = true) : mmxShift f w d cnt s = s.raise e := by
  rw [hc]
  exact withForm_of_can hf _

theorem sseShift_of_error {f : Form} {w : Nat} {d : VReg} {s : State} {cnt : Except FaultKind (BitVec 64)} {e : FaultKind}
    (hc : cnt = .error e) (hf : s.canExecute f = true) : sseShift f w d cnt s = s.raise e := by
  rw [hc]
  exact withForm_of_can hf _

theorem vexShift_of_error {f : Form} {w n : Nat} {d s1 : VReg} {s : State} {cnt : Except FaultKind (BitVec 64)}
    {e : FaultKind} (hc : cnt = .error e) (hf : s.canExecute f = true) : vexShift f w n d s1 cnt s = s.raise e := by
  rw [hc]
  exact withForm_of_can hf _

/-- R148 with D24: the masking is not looked at. -/
theorem evexShift_of_source_error {f : Form} {w n : Nat} {d : VReg} {m : Masking} {s : State}
    {src : Except FaultKind (BitVec n)} {cnt : Except FaultKind (BitVec 64)} {e : FaultKind} (hs : src = .error e)
    (hf : s.canExecute f = true) : evexShift f w n d m src cnt s = s.raise e := by
  rw [hs]
  exact withForm_of_can hf _

theorem evexShift_of_count_error {f : Form} {w n : Nat} {d : VReg} {m : Masking} {s : State} {x : BitVec n}
    {cnt : Except FaultKind (BitVec 64)} {e : FaultKind} (hc : cnt = .error e) (hf : s.canExecute f = true) :
    evexShift f w n d m (.ok x) cnt s = s.raise e := by
  rw [hc]
  exact withForm_of_can hf _

/-! ## Operands with an unreadable byte (R145) -/

/-- `u` is the lowest unreadable byte from `a` on. -/
structure State.LowestUnreadable (s : State) (a u : Nat) : Prop where
  le : a ≤ u
  unreadable : s.readable u = false
  below : ∀ b, a ≤ b → b < u → s.readable b = true

section Unreadable

variable {s : State} {a n u : Nat} {m : MemRef}

theorem memRead_of_lowest (h : s.LowestUnreadable a u) (hu : u < a + n) : s.memRead a n = .error (.memory u) :=
  memRead_of_unreadable ((firstUnreadable_eq_some s a n u).2 ⟨h.le, hu, h.unreadable, h.below⟩)

theorem countMm_of_lowest (h : s.LowestUnreadable (s.ea m) u) (hu : u < s.ea m + 8) :
    s.countMm (.mem m) = .error (.memory u) := memRead_of_lowest h hu

/-- R37: all 16 bytes are read, though the count is the low 8. -/
theorem countM128_of_lowest (h : s.LowestUnreadable a u) (hu : u < a + 16) : s.countM128 a = .error (.memory u) := by
  simp only [State.countM128, memRead_of_lowest h hu]

theorem countXmm_of_lowest (h : s.LowestUnreadable (s.ea m) u) (hu : u < s.ea m + 16) :
    s.countXmm (.mem m) = .error (.memory u) := countM128_of_lowest h hu

theorem countXmmAligned_of_aligned (ha : s.ea m % 16 = 0) : s.countXmmAligned (.mem m) = s.countXmm (.mem m) := if_pos ha

/-- R147: alignment is looked at before readability. -/
theorem countXmmAligned_of_misaligned (ha : s.ea m % 16 ≠ 0) : s.countXmmAligned (.mem m) = .error .generalProtection :=
  if_neg ha

theorem loadVec_of_lowest (h : s.LowestUnreadable a u) (hu : u < a + n / 8) : s.loadVec n a = .error (.memory u) := by
  simp only [State.loadVec, memRead_of_lowest h hu]

theorem source_of_lowest (h : s.LowestUnreadable (s.ea m) u) (hu : u < s.ea m + n / 8) :
    s.source n (.mem m) = .error (.memory u) := loadVec_of_lowest h hu

theorem fvSource_mem_of_lowest {w : Nat} (h : s.LowestUnreadable (s.ea m) u) (hu : u < s.ea m + n / 8) :
    s.fvSource w n (.mem m) = .error (.memory u) := loadVec_of_lowest h hu

theorem fvSource_bcst_of_lowest {w : Nat} (h : s.LowestUnreadable (s.ea m) u) (hu : u < s.ea m + w / 8) :
    s.fvSource w n (.bcst m) = .error (.memory u) := by
  simp only [State.fvSource, loadVec_of_lowest h hu]

end Unreadable

/-! ## Runs -/

/-- What every step keeps holds along every run. -/
theorem run_keeps {M : Host.Core} {P : M.State → Prop} (step : ∀ s t, P s → M.step s = .next t → P t) {n : Nat}
    {s t : M.State} (hs : P s) (h : M.run n s = .next t) : P t := by
  induction n generalizing s with
  | zero => exact Host.Outcome.next.inj h ▸ hs
  | succ n ih =>
    obtain ⟨s', hs', hr⟩ := run_succ_eq_next h
    exact ih (step s s' hs hs') hr

end Sys2Proof.Machine
end

section
/-! SUPPORT. The obligations of 20_memory.md: multi-byte reads, effective addresses, the faults of a memory operand, and
that no step and no run writes memory. -/

namespace Sys2Proof.Machine

open Sys2Proof

/-! ## Reads and addresses -/

/-- Settles O6: element `k` of width 8 of the value is the byte at `a + k`. -/
theorem memReadIsLittleEndian : Obligations.MemReadIsLittleEndian := by
  intro s a n h
  exact ⟨_, memRead_of_readable h, fun _ hk => elem_readLE s a hk⟩

/-- Settles O7: a run that is not all readable has a first unreadable byte, which the fault names. -/
theorem memReadFaultsAtTheLowestUnreadableByte : Obligations.MemReadFaultsAtTheLowestUnreadableByte := by
  intro s a n h
  cases hu : s.firstUnreadable a n with
  | none => exact absurd ((firstUnreadable_eq_none s a n).1 hu) h
  | some u => exact ⟨u, memRead_of_unreadable hu, (firstUnreadable_eq_some s a n u).1 hu⟩

/-- Settles O8: addition and multiplication of 64-bit words are the integers' modulo 2^64, a multiple of both
address-space sizes. -/
theorem effectiveAddressIsTruncatedSum : Obligations.EffectiveAddressIsTruncatedSum := by
  intro s base index sc disp
  exact ⟨ea_sum s base index sc disp, ea_ripRel s disp⟩

/-! ## Faults of a memory operand -/

/-- Settles O24: the alignment check comes before the read. -/
theorem misalignedSse2CountRaisesGeneralProtection : Obligations.MisalignedSse2CountRaisesGeneralProtection := by
  intro s d m ha
  have count := countXmmAligned_of_misaligned ha
  exact ⟨sseShift_of_error count, sseShift_of_error count⟩

/-- Settles O25: the count is read whole before anything is shifted or masked. -/
theorem unreadableCountRaisesMemoryFault : Obligations.UnreadableCountRaisesMemoryFault := by
  intro s m u hle hun hbelow
  have lowest : s.LowestUnreadable (s.ea m) u := ⟨hle, hun, hbelow⟩
  constructor
  · intro hu d
    have count := countMm_of_lowest lowest hu
    exact ⟨mmxShift_of_error count, mmxShift_of_error count⟩
  · intro hu d s1 k
    have count := countXmm_of_lowest lowest hu
    have aligned (ha : s.ea m % 16 = 0) := (countXmmAligned_of_aligned ha).trans count
    and_intros
    · exact fun ha => sseShift_of_error (aligned ha)
    · exact fun ha => sseShift_of_error (aligned ha)
    iterate 4 exact vexShift_of_error count
    iterate 9 exact evexShift_of_count_error count

/-- Settles O26: the source is read whole before the mask is looked at, a broadcast one as its one element. -/
theorem unreadableSourceRaisesMemoryFault : Obligations.UnreadableSourceRaisesMemoryFault := by
  intro s m u hle hun hbelow d imm k
  have lowest : s.LowestUnreadable (s.ea m) u := ⟨hle, hun, hbelow⟩
  have vec {w n : Nat} (hu : u < s.ea m + n / 8) := fvSource_mem_of_lowest (w := w) lowest hu
  have bcst {w n : Nat} (hu : u < s.ea m + w / 8) := fvSource_bcst_of_lowest (n := n) lowest hu
  and_intros
  iterate 3 exact fun hu => evexShift_of_source_error (source_of_lowest lowest hu)
  iterate 6
    · exact fun hu => evexShift_of_source_error (vec hu)
    · exact fun hu => evexShift_of_source_error (bcst hu)

/-! ## Nothing writes memory (R40) -/

/-- Settles O53: a completed instruction changes its destination and `pc` only. -/
theorem launchContentsAreKept : Obligations.LaunchContentsAreKept := by
  intro c s t hs h
  obtain ⟨i, n, -, hc⟩ := step_completed h
  have kept := hc.effect.kept
  have memory : c.mem = t.mem := hs.memory.trans kept.memory.symm
  refine ⟨⟨?_, memory, ?_, ?_⟩, fun a => by rw [memory]⟩
  · exact hs.launch.trans kept.launch.symm
  · exact hs.masks.trans kept.masks.symm
  · exact hs.generals.trans kept.generals.symm

/-- Settles O34: the contents at the start of the run are kept by every step of it. -/
theorem runsNeverWriteMemory : Obligations.RunsNeverWriteMemory := by
  intro n s t h
  have kept : t.AsLaunched s :=
    run_keeps (P := fun r => State.AsLaunched r s) (fun r r' hr hs => (launchContentsAreKept s r r' hr hs).1)
      ⟨rfl, rfl, rfl, rfl⟩ h
  exact ⟨kept.memory.symm, fun a => by rw [kept.memory], kept.masks.symm, kept.generals.symm, kept.launch.symm⟩

end Sys2Proof.Machine
end

section
/-! SUPPORT. What one more of the prefixes does to bytes that decode: which legacy prefixes are seen (R58), that the head is
read as before but for `illegal` (R81), and that the instruction is one byte longer or an invalid opcode. -/

namespace Sys2Proof

/-! ## Legacy prefixes -/

/-- The prefixes seen once the byte `b` is one of them too (R58). -/
def LegacyPrefixes.see (p : LegacyPrefixes) (b : Byte) : LegacyPrefixes :=
  ⟨p.opSize || b == 0x66, p.rep || (b == 0xF2 || b == 0xF3), p.lock || b == 0xF0, p.addrSize || b == 0x67⟩

theorem see_comm (p : LegacyPrefixes) (b c : Byte) : (p.see b).see c = (p.see c).see b := by
  simp only [LegacyPrefixes.see, Bool.or_right_comm]

/-- A segment override leaves no trace (decision D10). -/
theorem see_segment (p : LegacyPrefixes) {b : Byte} (h : isSegment b = true) : p.see b = p := by
  simp only [isSegment, Bool.or_eq_true, beq_iff_eq] at h
  rcases h with ((((rfl | rfl) | rfl) | rfl) | rfl) | rfl <;> simp [LegacyPrefixes.see]

theorem takePrefixes_cons (p : LegacyPrefixes) {b : Byte} (bs : List Byte) (h : isLegacyPrefix b = true) :
    takePrefixes p (b :: bs) = takePrefixes (p.see b) bs := by
  by_cases hs : isSegment b = true
  · rw [takePrefixes_segment p bs hs, see_segment p hs]
  · simp only [isLegacyPrefix, hs, Bool.false_or, Bool.or_eq_true, beq_iff_eq] at h
    rcases h with (((rfl | rfl) | rfl) | rfl) | rfl <;> simp [LegacyPrefixes.see]

/-- What is seen before the other prefixes is seen beside them. -/
theorem takePrefixes_see (p : LegacyPrefixes) (c : Byte) (bs : List Byte) :
    takePrefixes (p.see c) bs = ((takePrefixes p bs).1.see c, (takePrefixes p bs).2) := by
  induction bs generalizing p with
  | nil => rfl
  | cons b bs ih =>
    cases hb : isLegacyPrefix b with
    | true => rw [takePrefixes_cons _ bs hb, takePrefixes_cons _ bs hb, see_comm, ih]
    | false => rw [takePrefixes_stop _ bs hb, takePrefixes_stop _ bs hb]

/-- The byte 0x67 among the legacy prefixes is seen, wherever it stands. -/
theorem takePrefixes_addrSize_mem (p : LegacyPrefixes) {before : List Byte} (rest : List Byte)
    (h : ∀ b ∈ before, isLegacyPrefix b = true) : (takePrefixes p (before ++ 0x67 :: rest)).1.addrSize = true := by
  induction before generalizing p with
  | nil =>
    obtain ⟨-, -, -, stays⟩ := takePrefixes_mono (p.see 0x67) rest
    rw [List.nil_append, takePrefixes_cons p rest (by decide)]
    exact stays (Bool.or_true _)
  | cons b before ih =>
    obtain ⟨hb, hbefore⟩ := List.forall_mem_cons.1 h
    rw [List.cons_append, takePrefixes_cons _ _ hb]
    exact ih (p.see b) hbefore

/-! ## Heads -/

/-- The same head, with or without one of the illegal prefixes of R81 before it. -/
def Head.withIllegal (h : Head) (b : Bool) : Head := { h with illegal := b }

theorem rowMatch_withIllegal (h : Head) (b : Bool) (opcode modrm : Byte) :
    (h.withIllegal b).rowMatch opcode modrm = h.rowMatch opcode modrm := rfl

theorem parseRm_withIllegal (m64 : Bool) (h : Head) (b : Bool) (n : Nat) (modrm : Byte) (bs : List Byte) :
    parseRm m64 (h.withIllegal b) n modrm bs = parseRm m64 h n modrm bs := rfl

theorem buildInstr_withIllegal (f : Form) (h : Head) (b : Bool) (reg : BitVec 3) (rm : RmField) (imm : Byte) :
    buildInstr f (h.withIllegal b) reg rm imm = buildInstr f h reg rm imm := by
  cases f <;> rfl

/-- After one more of the legacy prefixes the head is read from the same bytes, that one seen too. -/
theorem parseHead_cons_prefix {m64 : Bool} {c : Byte} {bs rest : List Byte} {h : Head} (hc : isLegacyPrefix c = true)
    (ha : c ≠ 0x67) (hh : parseHead m64 bs = .ok h rest) :
    ∃ p tail, afterPrefixes m64 p tail = .ok h rest ∧ parseHead m64 (c :: bs) = afterPrefixes m64 (p.see c) tail := by
  rw [parseHead_eq] at hh
  split at hh
  · cases hh
  · rename_i hn
    refine ⟨_, _, hh, ?_⟩
    rw [parseHead_eq, takePrefixes_cons _ bs hc, takePrefixes_see]
    exact if_neg (by simpa only [LegacyPrefixes.see, beq_eq_false_iff_ne.2 ha, Bool.or_false] using hn)

theorem parseHead_cons_segment {m64 : Bool} {c : Byte} (bs : List Byte) (hc : isSegment c = true) :
    parseHead m64 (c :: bs) = parseHead m64 bs := by
  rw [parseHead_eq, parseHead_eq, takePrefixes_segment _ bs hc]

theorem acceptHead_eq_ok {m64 : Bool} {g h : Head} {bs rest : List Byte} (hh : acceptHead m64 g bs = .ok h rest) :
    h = g ∧ acceptHead m64 (g.withIllegal true) bs = .ok (h.withIllegal true) rest := by
  unfold acceptHead at hh
  split at hh <;> cases hh
  exact ⟨rfl, if_pos (by assumption)⟩

/-- The bytes of a VEX or EVEX head, read after prefixes of which one is illegal before it (R81), give the same head but
marked; and it is not a legacy one. -/
theorem parseEscape_long {m64 : Bool} {p q : LegacyPrefixes} {rex rex' : Option Byte} {c : Byte} {bs rest : List Byte}
    {h : Head} (hc : c ≠ 0x0F) (hq : (q.lock || q.opSize || q.rep || rex'.isSome) = true)
    (hh : parseEscape m64 p rex c bs = .ok h rest) :
    h.cls ≠ .legacy ∧ parseEscape m64 q rex' c bs = .ok (h.withIllegal true) rest := by
  revert hh
  unfold parseEscape
  simp only [if_neg hc, hq]
  have accept {g : Head} {tail : List Byte} (hg : g.cls ≠ .legacy) (hh : acceptHead m64 g tail = .ok h rest) :
      h.cls ≠ .legacy ∧ acceptHead m64 (g.withIllegal true) tail = .ok (h.withIllegal true) rest := by
    obtain ⟨rfl, hm⟩ := acceptHead_eq_ok hh
    exact ⟨hg, hm⟩
  -- the branches of 0xC5, 0xC4, 0x62 and any other byte: each ends, or accepts a head
  split
  · split
    · exact nofun
    · split
      · exact fun hh => accept (g := vex2Head _ _) nofun hh
      · exact nofun
  split
  · split
    · exact nofun
    split
    · split
      · exact nofun
      · exact fun hh => accept (g := vexHead _ _ _) nofun hh
    · exact nofun
  split
  · split
    · exact nofun
    split
    · split
      · exact fun hh => accept (g := evexHead _ _ _ _) nofun hh
      · exact nofun
    · exact nofun
  · exact nofun

/-- A head read from the escape byte is of a legacy form, and no other is. -/
theorem parseEscape_eq_legacy {m64 : Bool} {p : LegacyPrefixes} {rex : Option Byte} {c : Byte} {bs rest : List Byte}
    {h : Head} (hh : parseEscape m64 p rex c bs = .ok h rest) : c = 0x0F ↔ h.cls = .legacy := by
  constructor
  · rintro rfl
    simp only [parseEscape, if_true] at hh
    split at hh <;> cases hh
    rfl
  · contrapose!
    exact fun hc => (parseEscape_long (q := ⟨true, true, true, true⟩) (rex' := none) hc rfl hh).1

theorem parseEscape_legacy {m64 : Bool} {p : LegacyPrefixes} {rex : Option Byte} {bs : List Byte} :
    parseEscape m64 p rex 0x0F bs = if p.rep then .refused .repOnLegacy else .ok (legacyHead p (rex.getD 0x40)) bs := rfl

/-- The byte 0xF0 marks every head (R81). -/
theorem parseEscape_lock {m64 : Bool} {p : LegacyPrefixes} {rex : Option Byte} {c : Byte} {bs rest : List Byte} {h : Head}
    (hh : parseEscape m64 p rex c bs = .ok h rest) : parseEscape m64 (p.see 0xF0) rex c bs = .ok (h.withIllegal true) rest := by
  by_cases hc : c = 0x0F
  · subst hc
    rw [parseEscape_legacy] at hh ⊢
    have hrep : (p.see 0xF0).rep = p.rep := Bool.or_false _
    rw [hrep]
    split at hh <;> cases hh
    rename_i hn
    rw [if_neg hn]
    simp [legacyHead, LegacyPrefixes.see, Head.withIllegal]
  · exact (parseEscape_long hc (by simp [LegacyPrefixes.see]) hh).2

/-- The bytes 0xF2 and 0xF3 on a legacy form are refused (decision D19). -/
theorem parseEscape_rep {m64 : Bool} {p q : LegacyPrefixes} {rex : Option Byte} {c : Byte} {bs rest : List Byte} {h : Head}
    (hh : parseEscape m64 p rex c bs = .ok h rest) (hc : h.cls = .legacy) (hq : q.rep = true) :
    parseEscape m64 q rex c bs = .refused .repOnLegacy := by
  obtain rfl := (parseEscape_eq_legacy hh).2 hc
  rw [parseEscape_legacy, if_pos hq]

/-- After the legacy prefixes a head is read from one byte on, under at most one REX byte. -/
theorem afterPrefixes_eq_ok {m64 : Bool} {p : LegacyPrefixes} {bs rest : List Byte} {h : Head}
    (hh : afterPrefixes m64 p bs = .ok h rest) :
    ∃ rex c tail, parseEscape m64 p rex c tail = .ok h rest ∧
      ∀ q, afterPrefixes m64 q bs = parseEscape m64 q rex c tail := by
  cases bs with
  | nil => cases hh
  | cons b bs =>
    by_cases hr : isRex m64 b = true
    · cases bs with
      | nil => simp [afterPrefixes, hr] at hh
      | cons c tail =>
        simp only [afterPrefixes, hr, if_true] at hh ⊢
        exact ⟨some b, c, tail, hh, fun _ => rfl⟩
    · simp only [afterPrefixes, hr] at hh ⊢
      exact ⟨none, b, bs, hh, fun _ => rfl⟩

theorem parseHead_cons_lock {m64 : Bool} {bs rest : List Byte} {h : Head} (hh : parseHead m64 bs = .ok h rest) :
    parseHead m64 (0xF0 :: bs) = .ok (h.withIllegal true) rest := by
  obtain ⟨p, tail, hp, hcons⟩ := parseHead_cons_prefix (c := 0xF0) (by decide) (by decide) hh
  obtain ⟨rex, c, tail', hesc, hall⟩ := afterPrefixes_eq_ok hp
  rw [hcons, hall]
  exact parseEscape_lock hesc

theorem parseHead_cons_rep {m64 : Bool} {b : Byte} {bs rest : List Byte} {h : Head} (hb : b = 0xF2 ∨ b = 0xF3)
    (hh : parseHead m64 bs = .ok h rest) (hc : h.cls = .legacy) : parseHead m64 (b :: bs) = .refused .repOnLegacy := by
  obtain ⟨hpre, hne, hrep⟩ : isLegacyPrefix b = true ∧ b ≠ 0x67 ∧ (b == 0xF2 || b == 0xF3) = true := by
    rcases hb with rfl | rfl <;> decide
  obtain ⟨p, tail, hp, hcons⟩ := parseHead_cons_prefix hpre hne hh
  obtain ⟨rex, c, tail', hesc, hall⟩ := afterPrefixes_eq_ok hp
  rw [hcons, hall]
  exact parseEscape_rep hesc hc (by simp only [LegacyPrefixes.see, hrep, Bool.or_true])

/-- The byte 0x66, 0xF2 or 0xF3 or a REX byte right before 0xC4 or 0x62 marks the head (R81). -/
theorem parseHead_cons_beforeLong {m64 : Bool} {b c : Byte} {bs rest : List Byte} {h : Head} (hc : c = 0xC4 ∨ c = 0x62)
    (hb : b = 0x66 ∨ b = 0xF2 ∨ b = 0xF3 ∨ (m64 = true ∧ b.extractLsb' 4 4 = 4))
    (hh : parseHead m64 (c :: bs) = .ok h rest) : parseHead m64 (b :: c :: bs) = .ok (h.withIllegal true) rest := by
  obtain ⟨hstop, hrex, hne⟩ : isLegacyPrefix c = false ∧ isRex m64 c = false ∧ c ≠ 0x0F := by
    rcases hc with rfl | rfl <;> cases m64 <;> decide
  rw [parseHead_cons bs hstop hrex] at hh
  have long {q : LegacyPrefixes} {rex : Option Byte} (hq : (q.lock || q.opSize || q.rep || rex.isSome) = true) :=
    (parseEscape_long hne hq hh).2
  have legacy (hp : isLegacyPrefix b = true) (ha : b ≠ 0x67) :
      parseHead m64 (b :: c :: bs) = parseEscape m64 (LegacyPrefixes.see ⟨false, false, false, false⟩ b) none c bs := by
    rw [parseHead_eq, takePrefixes_cons _ _ hp, takePrefixes_stop _ _ hstop, if_neg (by simpa [LegacyPrefixes.see] using ha)]
    simp only [afterPrefixes, hrex]
    rfl
  rcases hb with rfl | rfl | rfl | ⟨rfl, hr⟩
  iterate 3 exact (legacy (by decide) (by decide)).trans (long (by decide))
  rw [parseHead_eq, takePrefixes_stop _ _ (isRex_not_prefix hr), if_neg Bool.false_ne_true]
  have hrex' : isRex true b = true := by simp [isRex, hr]
  simp only [afterPrefixes, hrex', if_true]
  exact long (by simp)

/-! ## The instruction after one more of the prefixes -/

/-- Past the head and the row, decoding is reading the operands. -/
theorem decode_eq_operands {m64 : Bool} {bs rest : List Byte} {h : Head} {op modrm : Byte} {f : Form}
    (hh : parseHead m64 bs = .ok h (op :: modrm :: rest)) (hm : h.map = 1) (ho : opcodeInScope op = true)
    (hr : h.rowMatch op modrm = .row f ∨ h.rowMatch op modrm = .reserved f) :
    decode m64 bs = decodeOperands m64 bs.length (h.rowMatch op modrm) f h modrm rest := by
  rcases hr with hr | hr <;> simp only [decode, hh, hm, ho, hr, and_self, if_true]

/-- Past the head, decoding looks at `illegal` in the end only, and at the number of bytes for the length only. -/
theorem decodeOperands_withIllegal {m64 : Bool} {total n : Nat} {row : RowMatch} {f : Form} {h : Head} {modrm : Byte}
    {bs : List Byte} {i : Instr} (hd : decodeOperands m64 total row f h modrm bs = .ok i n) (h0 : 0 < n) (hn : n < 15) :
    h.illegal = false ∧ ∀ b, decodeOperands m64 (total + 1) row f (h.withIllegal b) modrm bs =
      if b then .invalidOpcode else .ok i (n + 1) := by
  have fin {reg : BitVec 3} {rm : RmField} {imm : Byte} {left : Nat}
      (hf : finishDecode row h reg rm imm (total - left) = .ok i n) :
      h.illegal = false ∧ ∀ b, finishDecode row (h.withIllegal b) reg rm imm (total + 1 - left) =
        if b then .invalidOpcode else .ok i (n + 1) := by
    obtain ⟨f', rfl, hlen, -, hbuilt⟩ := finishDecode_eq_ok hf
    have hlong : total + 1 - left = n + 1 := by omega
    refine ⟨?_, fun b => ?_⟩
    · cases hill : h.illegal with
      | false => rfl
      | true => simp [finishDecode, hill, ← hlen, show ¬ 15 < n by omega] at hf
    · simp only [finishDecode, hlong, if_neg (show ¬ 15 < n + 1 by omega), buildInstr_withIllegal, hbuilt]
      rfl
  unfold decodeOperands at hd ⊢
  have hbc (b : Bool) : (h.withIllegal b).bc = h.bc := rfl
  simp only [hbc, parseRm_withIllegal]
  cases hp : parseRm m64 h (f.disp8Scale h.bc) modrm bs with
  | truncated => simp [hp] at hd
  | refused why => simp [hp] at hd
  | ok rm rest =>
    simp only [hp] at hd ⊢
    cases hi : f.hasImm with
    | false =>
      simp only [hi] at hd
      exact fin hd
    | true =>
      simp only [hi, if_true] at hd ⊢
      cases rest with
      | nil => cases hd
      | cons imm rest => exact fin hd

/-- Bytes that decode, and bytes one longer that the same head is read from up to `illegal`. -/
theorem decode_withIllegal {m64 : Bool} {bs : List Byte} {i : Instr} {n : Nat} (hd : decode m64 bs = .ok i n) (h0 : 0 < n)
    (hn : n < 15) :
    ∃ h rest, parseHead m64 bs = .ok h rest ∧ h.illegal = false ∧ ∀ b c,
      parseHead m64 (c :: bs) = .ok (h.withIllegal b) rest →
        decode m64 (c :: bs) = if b then .invalidOpcode else .ok i (n + 1) := by
  unfold decode at hd
  split at hd
  · cases hd
  · cases hd
  · cases hd
  · rename_i h opcode rest hh
    split at hd
    · rename_i hop
      obtain ⟨hmap, hscope⟩ := hop
      split at hd
      · cases hd
      · rename_i modrm rest
        split at hd
        · cases hd
        · rename_i f hr
          obtain ⟨hill, hnew⟩ := decodeOperands_withIllegal hd h0 hn
          refine ⟨h, _, hh, hill, fun b c hc => ?_⟩
          rw [decode_eq_operands (f := f) hc hmap hscope (.inl hr), rowMatch_withIllegal, hr, List.length_cons, hnew]
        · obtain ⟨_, _, _, _, -, -, hfin⟩ := decodeOperands_eq_ok hd
          obtain ⟨_, hf, -⟩ := finishDecode_eq_ok hfin
          cases hf
    · cases hd

/-! ## Encodings -/

/-- Every encoding is 3 to 12 bytes long: one more byte keeps it within 15 (R51). -/
theorem encode_bound (i : Instr) : 3 ≤ (encode i).length ∧ (encode i).length ≤ 12 := by
  cases i
  case psrawMm | psradMm => exact Laws.legacy_bound (Laws.encMm_tail_le _) (Nat.zero_le 1)
  case psrawXmm | psradXmm => exact Laws.legacy_bound (Laws.encVec_tail_le _) (Nat.zero_le 1)
  case psrawMmImm | psradMmImm | psrawXmmImm | psradXmmImm => exact Laws.legacy_bound (Laws.reg_tail_le _) le_rfl
  case vpsrawXmm | vpsradXmm | vpsrawYmm | vpsradYmm => exact Laws.vex_bound (Laws.encVec_tail_le _) (Nat.zero_le 1)
  case vpsrawXmmImm | vpsradXmmImm | vpsrawYmmImm | vpsradYmmImm => exact Laws.vex_bound (Laws.reg_tail_le _) le_rfl
  case evexVpsraw128 | evexVpsraw256 | evexVpsraw512 | evexVpsrad128 | evexVpsrad256 | evexVpsrad512 | evexVpsraq128 |
      evexVpsraq256 | evexVpsraq512 =>
    exact Laws.evex_bound (Laws.encVec_tail_le _) (Nat.zero_le 1)
  case evexVpsraw128Imm | evexVpsraw256Imm | evexVpsraw512Imm => exact Laws.evex_bound (Laws.encVec_tail_le _) le_rfl
  case evexVpsrad128Imm | evexVpsrad256Imm | evexVpsrad512Imm | evexVpsraq128Imm | evexVpsraq256Imm | evexVpsraq512Imm =>
    exact Laws.evex_bound (Laws.fvEnc_tail_le _) le_rfl

theorem buildInstr_form {f : Form} {h : Head} {reg : BitVec 3} {rm : RmField} {imm : Byte} {i : Instr}
    (hb : buildInstr f h reg rm imm = some i) : i.form = f := by
  cases f
  case psrawMm | psradMm | psrawXmm | psradXmm | vpsrawXmm | vpsradXmm | vpsrawYmm | vpsradYmm =>
    obtain rfl := Option.some.inj hb
    rfl
  case psrawMmImm | psradMmImm | psrawXmmImm | psradXmmImm | vpsrawXmmImm | vpsradXmmImm | vpsrawYmmImm | vpsradYmmImm |
      evexVpsraw128 | evexVpsraw256 | evexVpsraw512 | evexVpsrad128 | evexVpsrad256 | evexVpsrad512 | evexVpsraq128 |
      evexVpsraq256 | evexVpsraq512 | evexVpsraw128Imm | evexVpsraw256Imm | evexVpsraw512Imm =>
    obtain ⟨_, -, rfl⟩ := Option.map_eq_some_iff.1 hb
    rfl
  case evexVpsrad128Imm | evexVpsrad256Imm | evexVpsrad512Imm | evexVpsraq128Imm | evexVpsraq256Imm | evexVpsraq512Imm =>
    obtain ⟨_, -, hm⟩ := Option.bind_eq_some_iff.1 hb
    obtain ⟨_, -, rfl⟩ := Option.map_eq_some_iff.1 hm
    rfl

/-- The rows of the MMX and SSE2 forms have the legacy class bits. -/
theorem opcodeTable_legacyBits :
    ∀ r ∈ opcodeTable, (r.form.info.cls = .mmx ∨ r.form.info.cls = .sse) → r.pat.extractLsb' 30 2 = 0 := by
  decide

theorem code_eq_zero {c : KeyClass} (h : c.code = 0) : c = .legacy := by
  revert h
  cases c <;> decide

/-- The bits of a key that a row's mask looks at are the row's. -/
theorem bits_of_match {k : BitVec 32} {r : OpcodeRow} (hk : k &&& r.mask = r.pat) (i n : Nat)
    (hm : r.mask.extractLsb' i n = BitVec.allOnes n) : k.extractLsb' i n = r.pat.extractLsb' i n := by
  rw [← hk, BitVec.extractLsb'_and, hm, BitVec.and_allOnes]

/-- A row of an MMX or SSE2 form is matched by legacy heads only. -/
theorem legacy_of_rowMatch {h : Head} {opcode modrm : Byte} {f : Form} (hr : h.rowMatch opcode modrm = .row f)
    (hf : f.info.cls = .mmx ∨ f.info.cls = .sse) : h.cls = .legacy := by
  obtain ⟨r, hmem, hk, rfl⟩ := mem_of_findRow (findRow_of_rowMatch hr)
  have hmask := (opcodeTable_classBits r hmem).1
  apply code_eq_zero
  rw [← key_classBits h opcode modrm, bits_of_match hk 30 2 hmask, opcodeTable_legacyBits r hmem hf]

/-- The head of an MMX or SSE2 instruction is a legacy one. -/
theorem decode_legacy_head {m64 : Bool} {bs rest : List Byte} {i : Instr} {n : Nat} {h : Head}
    (hd : decode m64 bs = .ok i n) (hh : parseHead m64 bs = .ok h rest)
    (hi : i.form.info.cls = .mmx ∨ i.form.info.cls = .sse) : h.cls = .legacy := by
  obtain ⟨h', opcode, modrm, imm, rest₁, rest₂, f, rm, left, head, row, -, built, -, -, -⟩ := decode_eq_ok hd
  cases hh.symm.trans head
  exact legacy_of_rowMatch row (buildInstr_form built ▸ hi)

/-- The encoding of a VEX or EVEX form begins with its own 0xC4 or 0x62. -/
theorem encode_long (i : Instr) (h : i.form.info.cls = .vex ∨ i.form.info.cls = .evex) :
    ∃ c bs, encode i = c :: bs ∧ (c = 0xC4 ∨ c = 0x62) := by
  cases i
  case vpsrawXmm | vpsradXmm | vpsrawYmm | vpsradYmm | vpsrawXmmImm | vpsradXmmImm | vpsrawYmmImm | vpsradYmmImm =>
    exact ⟨_, _, rfl, .inl rfl⟩
  case psrawMm | psradMm | psrawXmm | psradXmm | psrawMmImm | psradMmImm | psrawXmmImm | psradXmmImm =>
    rcases h with h | h <;> cases h
  all_goals exact ⟨_, _, rfl, .inr rfl⟩

end Sys2Proof
end

section
/-! SUPPORT. Reserved encodings: with the bytes of the operand there, a key that is reserved, or a row whose fields name no
instruction, is an invalid opcode (30_encoding.md R78, R80); and which keys of the table's opcodes are which. -/

namespace Sys2Proof

/-! ## An operand whose bytes are there -/

theorem takeDisp_ok (mod : BitVec 2) (n : Nat) {bs : List Byte} (h : 4 ≤ bs.length) :
    ∃ d rest, takeDisp mod n bs = .ok d rest := by
  match bs, h with
  | b0 :: b1 :: b2 :: b3 :: rest, _ =>
    unfold takeDisp
    split
    · exact ⟨_, _, rfl⟩
    split
    · exact ⟨_, _, rfl⟩
    · exact ⟨_, _, rfl⟩

theorem takeDisp_two (n : Nat) : takeDisp 2 n = takeDisp32 := rfl

theorem toMem_ok {p : Parse (BitVec 32)} {f : BitVec 32 → MemRef} (h : ∃ d rest, p = .ok d rest) :
    ∃ rm rest, p.toMem f = .ok rm rest := by
  obtain ⟨d, rest, rfl⟩ := h
  exact ⟨_, _, rfl⟩

theorem parseSib_ok (h : Head) (mod : BitVec 2) (n : Nat) {bs : List Byte} (hl : 5 ≤ bs.length) :
    ∃ rm rest, parseSib h mod n bs = .ok rm rest := by
  match bs, hl with
  | sib :: bs, hl =>
    have four : 4 ≤ bs.length := Nat.le_of_succ_le_succ hl
    simp only [parseSib]
    split
    · exact toMem_ok (takeDisp_two n ▸ takeDisp_ok 2 n four)
    · exact toMem_ok (takeDisp_ok mod n four)

/-- `mod = 11` names a register, and takes no byte. -/
theorem parseRm_register (m64 : Bool) (h : Head) (n : Nat) {modrm : Byte} (bs : List Byte) (hm : modrm.extractLsb' 6 2 = 3) :
    ∃ r, parseRm m64 h n modrm bs = .ok (.reg r) bs := by
  simp only [parseRm, hm, if_true]
  exact ⟨_, rfl⟩

/-- Five bytes are enough for every r/m operand. -/
theorem parseRm_ok (m64 : Bool) (h : Head) (n : Nat) (modrm : Byte) {bs : List Byte} (hl : 5 ≤ bs.length) :
    ∃ rm rest, parseRm m64 h n modrm bs = .ok rm rest ∧ (modrm.extractLsb' 6 2 = 3 → ∃ r, rm = .reg r) := by
  by_cases hm : modrm.extractLsb' 6 2 = 3
  · obtain ⟨r, hr⟩ := parseRm_register m64 h n bs hm
    exact ⟨_, _, hr, fun _ => ⟨r, rfl⟩⟩
  have four : 4 ≤ bs.length := by omega
  have mem : ∃ rm rest, parseRm m64 h n modrm bs = .ok rm rest := by
    simp only [parseRm, if_neg hm]
    split
    · exact parseSib_ok h _ n hl
    split
    · exact toMem_ok (takeDisp_two n ▸ takeDisp_ok 2 n four)
    · exact toMem_ok (takeDisp_ok _ n four)
  obtain ⟨rm, rest, hp⟩ := mem
  exact ⟨rm, rest, hp, fun h3 => absurd h3 hm⟩

/-- Six bytes after the ModRM byte are enough for the operand and the immediate: decoding comes to its end, with at most six
of them taken. -/
theorem decodeOperands_eq_finish (m64 : Bool) (total : Nat) (row : RowMatch) (f : Form) (h : Head) (modrm : Byte)
    {bs : List Byte} (hl : 6 ≤ bs.length) :
    ∃ rm imm left, (modrm.extractLsb' 6 2 = 3 → ∃ r, rm = .reg r) ∧ bs.length ≤ left + 6 ∧
      decodeOperands m64 total row f h modrm bs = finishDecode row h (modrm.extractLsb' 3 3) rm imm (total - left) := by
  obtain ⟨rm, rest, hp, hreg⟩ := parseRm_ok m64 h (f.disp8Scale h.bc) modrm (show 5 ≤ bs.length by omega)
  have hu := (parseRm_reads m64 h (f.disp8Scale h.bc) modrm).used _ _ _ hp
  simp only [decodeOperands, hp]
  cases hi : f.hasImm with
  | false => exact ⟨rm, 0, rest.length, hreg, by omega, rfl⟩
  | true =>
    match rest, hu with
    | [], hu => simp only [List.length_nil] at hu; omega
    | imm :: rest, hu =>
      rw [List.length_cons] at hu
      exact ⟨rm, imm, rest.length, hreg, by omega, rfl⟩

section Invalid

variable {m64 : Bool} {bs rest : List Byte} {h : Head} {op modrm : Byte} {f : Form}

/-- A reserved key is an invalid opcode (R78, R80 (d)). -/
theorem decode_of_reserved (hh : parseHead m64 bs = .ok h (op :: modrm :: rest)) (hm : h.map = 1)
    (ho : opcodeInScope op = true) (hl : 6 ≤ rest.length) (hb : bs.length ≤ rest.length + 9)
    (hr : h.rowMatch op modrm = .reserved f) : decode m64 bs = .invalidOpcode := by
  obtain ⟨rm, imm, left, -, hleft, hd⟩ := decodeOperands_eq_finish m64 bs.length (.reserved f) f h modrm hl
  rw [decode_eq_operands hh hm ho (.inr hr), hr, hd]
  exact if_neg (by omega)

/-- So is a row under illegal prefixes, or one whose fields name no instruction (R80 (a) to (c), (e), R81). -/
theorem decode_of_unbuilt (hh : parseHead m64 bs = .ok h (op :: modrm :: rest)) (hm : h.map = 1)
    (ho : opcodeInScope op = true) (hl : 6 ≤ rest.length) (hb : bs.length ≤ rest.length + 9)
    (hr : h.rowMatch op modrm = .row f)
    (hi : h.illegal = true ∨ ∀ rm imm, (modrm.extractLsb' 6 2 = 3 → ∃ r, rm = .reg r) →
      buildInstr f h (modrm.extractLsb' 3 3) rm imm = none) : decode m64 bs = .invalidOpcode := by
  obtain ⟨rm, imm, left, hreg, hleft, hd⟩ := decodeOperands_eq_finish m64 bs.length (.row f) f h modrm hl
  rw [decode_eq_operands hh hm ho (.inl hr), hr, hd]
  simp only [finishDecode, if_neg (show ¬ 15 < bs.length - left by omega)]
  rcases hi with hi | hi
  · rw [if_pos hi]
  · rw [hi rm imm hreg, ite_self]

end Invalid

/-! ## Keys and rows -/

/-- A row is the row of its form. -/
theorem tableRow_of_mem : ∀ r ∈ opcodeTable, r.form.tableRow = r := by
  decide

theorem key_eq {h : Head} (hm : h.map = 1) (op modrm : Byte) :
    h.key op modrm = keyHigh h.cls h.pp h.ll h.w ++ op ++ modrm := by
  rw [Head.key, hm]
  rfl

theorem key_llBits (h : Head) (op modrm : Byte) : (h.key op modrm).extractLsb' 26 2 = h.ll := by
  unfold Head.key
  repeat rw [BitVec.extractLsb'_append_eq_of_le (by decide)]
  exact BitVec.extractLsb'_append_eq_right

theorem key_opBits (h : Head) (op modrm : Byte) : (h.key op modrm).extractLsb' 8 8 = op := by
  unfold Head.key
  rw [BitVec.extractLsb'_append_eq_of_le (by decide)]
  exact BitVec.extractLsb'_append_eq_right

theorem key_modBits (h : Head) (op modrm : Byte) : (h.key op modrm).extractLsb' 6 2 = modrm.extractLsb' 6 2 := by
  unfold Head.key
  exact BitVec.extractLsb'_append_eq_of_add_le (by decide)

theorem findRow_eq_none {k : BitVec 32} (h : ∀ r ∈ opcodeTable, k &&& r.mask ≠ r.pat) : findRow k = none := by
  cases hf : findRow k with
  | none => rfl
  | some f =>
    obtain ⟨r, hr, hk, -⟩ := mem_of_findRow hf
    exact absurd hk (h r hr)

/-- Every row's mask looks at the vector length, and no row has `L'L = 11`. -/
theorem opcodeTable_llBits : ∀ r ∈ opcodeTable, r.mask.extractLsb' 26 2 = 3 ∧ r.pat.extractLsb' 26 2 ≠ 3 := by
  decide

theorem findRow_of_ll_three {h : Head} (hl : h.ll = 3) (op modrm : Byte) : findRow (h.key op modrm) = none := by
  refine findRow_eq_none fun r hr hk => ?_
  obtain ⟨hmask, hpat⟩ := opcodeTable_llBits r hr
  apply hpat
  rw [← bits_of_match hk 26 2 hmask, key_llBits, hl]

/-- Every row's mask looks at the opcode, and a row of 71 or 72 outside the EVEX class asks for `mod = 11`. -/
theorem opcodeTable_modBits :
    ∀ r ∈ opcodeTable, r.mask.extractLsb' 8 8 = 0xFF ∧
      ((r.pat.extractLsb' 8 8 = 0x71 ∨ r.pat.extractLsb' 8 8 = 0x72) → r.pat.extractLsb' 30 2 ≠ 2 →
        r.mask.extractLsb' 6 2 = 3 ∧ r.pat.extractLsb' 6 2 = 3) := by
  decide

theorem findRow_of_mod {h : Head} {op modrm : Byte} (hc : h.cls ≠ .evex) (ho : op = 0x71 ∨ op = 0x72)
    (hm : modrm.extractLsb' 6 2 ≠ 3) : findRow (h.key op modrm) = none := by
  refine findRow_eq_none fun r hr hk => hm ?_
  obtain ⟨hopMask, himm⟩ := opcodeTable_modBits r hr
  have hop : op = r.pat.extractLsb' 8 8 := (key_opBits h op modrm).symm.trans (bits_of_match hk 8 8 hopMask)
  have hcls : h.cls.code = r.pat.extractLsb' 30 2 :=
    (key_classBits h op modrm).symm.trans (bits_of_match hk 30 2 (opcodeTable_classBits r hr).1)
  have hcode : h.cls.code ≠ 2 := by
    revert hc
    cases h.cls <;> decide
  obtain ⟨hmask, hpat⟩ := himm (hop ▸ ho) (hcls ▸ hcode)
  rw [← key_modBits h op modrm, bits_of_match hk 6 2 hmask, hpat]

theorem modrmByte_parts (modrm : Byte) :
    modrmByte (modrm.extractLsb' 6 2) (modrm.extractLsb' 3 3) (modrm.extractLsb' 0 3) = modrm ∧
    modrmByte 3 (modrm.extractLsb' 3 3) (modrm.extractLsb' 0 3) = modrm ||| 0xC0 := by
  revert modrm; decide

theorem key_matches {h : Head} {f : Form} {op modrm : Byte} (hm : h.map = 1) (hk : f.Keyed h.cls h.pp h.ll h.w op)
    (hmod : modrm &&& f.tableRow.mask.extractLsb' 0 8 = f.tableRow.pat.extractLsb' 0 8) :
    h.key op modrm &&& f.tableRow.mask = f.tableRow.pat := by
  obtain ⟨hhigh, hop, -⟩ := hk
  rw [key_eq hm, ← append_bytes f.tableRow.mask, BitVec.and_append, BitVec.and_append, hhigh, hop, hmod, append_bytes]

/-- A key that matches an EVEX form's row, whatever `mod` is. -/
theorem rowMatch_of_keyed {h : Head} {f : Form} {op modrm : Byte} (hm : h.map = 1) (hk : f.Keyed h.cls h.pp h.ll h.w op)
    (hc : f.info.cls = .evex) (hi : f.hasImm = true → modrm.extractLsb' 3 3 = 4) : h.rowMatch op modrm = .row f := by
  have hmod : modrm &&& f.tableRow.mask.extractLsb' 0 8 = f.tableRow.pat.extractLsb' 0 8 := by
    rw [← (modrmByte_parts modrm).1]
    exact modrm_matches fun h => ⟨hi h, .inl hc⟩
  rw [rowMatch_of_match (tableRow_mem f) (key_matches hm hk hmod), tableRow_form]

/-- A key without a row that has one with `mod = 11` and a length other than `L'L = 11`. -/
theorem rowMatch_reserved_of_keyed {h : Head} {f : Form} {op modrm : Byte} (hm : h.map = 1)
    (hn : findRow (h.key op modrm) = none) (hk : f.Keyed h.cls h.pp (if h.ll = 3 then 0 else h.ll) h.w op)
    (hi : f.hasImm = true → modrm.extractLsb' 3 3 = 4) : h.rowMatch op modrm = .reserved f := by
  have hmod : (modrm ||| 0xC0) &&& f.tableRow.mask.extractLsb' 0 8 = f.tableRow.pat.extractLsb' 0 8 := by
    rw [← (modrmByte_parts modrm).2]
    exact modrm_matches fun h => ⟨hi h, .inr rfl⟩
  rw [rowMatch_reserved (tableRow_mem f) hn (key_matches (h := { h with ll := if h.ll = 3 then 0 else h.ll }) hm hk hmod),
    tableRow_form]

/-! ## The register-only immediate forms (R78) -/

/-- Legacy forms with and without 0x66, and VEX forms at both lengths, have a row of each immediate opcode. -/
theorem exists_registerOnly_row {cls : KeyClass} {pp ll : BitVec 2} (w : Bool) {op : Byte} (ho : op = 0x71 ∨ op = 0x72)
    (hc : cls = .legacy ∧ (pp = 0 ∨ pp = 1) ∧ ll = 0 ∨ cls = .vex ∧ pp = 1 ∧ (ll = 0 ∨ ll = 1)) :
    ∃ r ∈ opcodeTable, r.form.Keyed cls pp ll w op := by
  rcases ho with rfl | rfl <;> revert w <;>
    rcases hc with ⟨rfl, rfl | rfl, rfl⟩ | ⟨rfl, rfl, rfl | rfl⟩ <;> decide

theorem decode_registerOnly_memory {m64 : Bool} {bs rest : List Byte} {h : Head} {op modrm : Byte}
    (hh : parseHead m64 bs = .ok h (op :: modrm :: rest)) (hm : h.map = 1)
    (hc : h.cls = .legacy ∧ (h.pp = 0 ∨ h.pp = 1) ∧ h.ll = 0 ∨ h.cls = .vex ∧ h.pp = 1 ∧ (h.ll = 0 ∨ h.ll = 1))
    (ho : op = 0x71 ∨ op = 0x72) (hreg : modrm.extractLsb' 3 3 = 4) (hmod : modrm.extractLsb' 6 2 ≠ 3)
    (hl : 6 ≤ rest.length) (hb : bs.length ≤ rest.length + 9) : decode m64 bs = .invalidOpcode := by
  obtain ⟨hcls, hll⟩ : h.cls ≠ .evex ∧ h.ll ≠ 3 := by
    rcases hc with ⟨hcls, -, hll⟩ | ⟨hcls, -, hll | hll⟩ <;> rw [hcls, hll] <;> decide
  obtain ⟨r, -, hk⟩ := exists_registerOnly_row h.w ho hc
  have ⟨_, _, hscope⟩ := hk
  exact decode_of_reserved hh hm hscope hl hb
    (rowMatch_reserved_of_keyed hm (findRow_of_mod hcls ho hmod) (by rw [if_neg hll]; exact hk) fun _ => hreg)

/-- A legacy head is one of map 0F with no length, and `pp` = 66 or none. -/
theorem legacyHead_fields (p : LegacyPrefixes) (rex : Byte) :
    (legacyHead p rex).cls = .legacy ∧ ((legacyHead p rex).pp = 0 ∨ (legacyHead p rex).pp = 1) ∧ (legacyHead p rex).ll = 0 := by
  refine ⟨rfl, ?_, rfl⟩
  cases hp : p.opSize <;> simp [legacyHead, hp]

/-- A VEX head with `pp` = 66, at either length. -/
theorem vexHead_fields (illegal : Bool) (b1 : Byte) {b2 : Byte} (hp : b2.extractLsb' 0 2 = 1) :
    (vexHead illegal b1 b2).cls = .vex ∧ (vexHead illegal b1 b2).pp = 1 ∧
      ((vexHead illegal b1 b2).ll = 0 ∨ (vexHead illegal b1 b2).ll = 1) := by
  refine ⟨rfl, hp, ?_⟩
  cases hl : b2.getLsbD 2 <;> simp only [vexHead, hl] <;> decide

theorem vexHead_map (illegal : Bool) {b1 : Byte} (b2 : Byte) (h : b1.extractLsb' 0 5 = 1) :
    (vexHead illegal b1 b2).map = 1 := by
  simp [vexHead, h]

/-- The VEX prefixes of 64-bit mode, and outside it those that D31 accepts. -/
theorem vex_accepted {m64 : Bool} (illegal : Bool) {b1 b2 : Byte}
    (h : m64 = true ∨ b1.extractLsb' 5 3 = 7 ∧ b2.getLsbD 6 = true) :
    isLongPrefix m64 b1 = true ∧ extensionsOk m64 (vexHead illegal b1 b2) = true := by
  have low : ∀ b : Byte, b.getLsbD 6 = true → ((~~~(b.extractLsb' 3 4)).setWidth 5 : BitVec 5).extractLsb' 3 2 = 0 := by
    decide
  have top : ∀ b : Byte, b.extractLsb' 5 3 = 7 → isLongPrefix false b = true ∧ b.getLsbD 5 = true := by
    decide
  rcases h with rfl | ⟨h1, h2⟩
  · exact ⟨rfl, rfl⟩
  cases m64 with
  | true => exact ⟨rfl, rfl⟩
  | false =>
    obtain ⟨hlong, h5⟩ := top b1 h1
    refine ⟨hlong, ?_⟩
    simp only [extensionsOk, vexHead, h5, low b2 h2]
    rfl

/-- Byte 1 of the two-byte VEX form as the bytes 1 and 2 that it stands for (R60). -/
theorem vex2_bytes (b1 : Byte) :
    let a1 : Byte := BitVec.ofBool (b1.getLsbD 7) ++ (0b1100001 : BitVec 7)
    let a2 : Byte := BitVec.ofBool false ++ b1.extractLsb' 0 7
    a1.extractLsb' 0 5 = 1 ∧ a2.extractLsb' 0 2 = b1.extractLsb' 0 2 ∧
      (b1.extractLsb' 6 2 = 3 → a1.extractLsb' 5 3 = 7 ∧ a2.getLsbD 6 = true) := by
  revert b1; decide

/-! ## The reserved EVEX combinations (R80) -/

/-- With `pp` = 66 and a length other than `L'L = 11`, each opcode of the table has an EVEX row; only 72 takes a broadcast. -/
theorem exists_evex_row {ll : BitVec 2} (w : Bool) {op : Byte} (hl : ll ≠ 3)
    (ho : op = 0xE1 ∨ op = 0xE2 ∨ op = 0x71 ∨ op = 0x72) :
    ∃ r ∈ opcodeTable, r.form.Keyed .evex 1 ll w op ∧ r.form.info.cls = .evex ∧
      (r.form.hasImm = true → op = 0x71 ∨ op = 0x72) ∧ (op ≠ 0x72 → r.form.info.opEn ≠ .fvi) := by
  revert w ll
  rcases ho with rfl | rfl | rfl | rfl <;> decide

/-- No EVEX form has an instruction with `z = 1` and `aaa = 000` (R80 (c)). -/
theorem buildInstr_of_masking_none {f : Form} {h : Head} (hc : f.info.cls = .evex) (hm : h.masking = none) (reg : BitVec 3)
    (rm : RmField) (imm : Byte) : buildInstr f h reg rm imm = none := by
  have hnb : h.maskingNb = none := by rw [Head.maskingNb, hm, ite_self]
  cases f
  case evexVpsrad128Imm | evexVpsrad256Imm | evexVpsrad512Imm | evexVpsraq128Imm | evexVpsraq256Imm | evexVpsraq512Imm =>
    exact Option.bind_eq_none_iff.2 fun m h => by cases hm.symm.trans h
  case evexVpsraw128 | evexVpsraw256 | evexVpsraw512 | evexVpsrad128 | evexVpsrad256 | evexVpsrad512 | evexVpsraq128 |
      evexVpsraq256 | evexVpsraq512 | evexVpsraw128Imm | evexVpsraw256Imm | evexVpsraw512Imm =>
    exact Option.map_eq_none_iff.2 hnb
  all_goals cases hc

/-- Nor one with `EVEX.b = 1` on a form without broadcast or on a register source (R80 (a), (b)). -/
theorem buildInstr_of_bc {f : Form} {h : Head} {rm : RmField} (hc : f.info.cls = .evex) (hb : h.bc = true)
    (hf : f.info.opEn ≠ .fvi ∨ ∃ r, rm = .reg r) (reg : BitVec 3) (imm : Byte) : buildInstr f h reg rm imm = none := by
  have hnb : h.maskingNb = none := if_pos hb
  cases f
  case evexVpsrad128Imm | evexVpsrad256Imm | evexVpsrad512Imm | evexVpsraq128Imm | evexVpsraq256Imm | evexVpsraq512Imm =>
    obtain ⟨r, rfl⟩ := hf.resolve_left fun hne => hne rfl
    have hsrc : (RmField.reg r).fvSource h.bc = none := if_pos hb
    exact Option.bind_eq_none_iff.2 fun m _ => Option.map_eq_none_iff.2 hsrc
  case evexVpsraw128 | evexVpsraw256 | evexVpsraw512 | evexVpsrad128 | evexVpsrad256 | evexVpsrad512 | evexVpsraq128 |
      evexVpsraq256 | evexVpsraq512 | evexVpsraw128Imm | evexVpsraw256Imm | evexVpsraw512Imm =>
    exact Option.map_eq_none_iff.2 hnb
  all_goals cases hc

/-- The EVEX prefixes of 64-bit mode, and outside it those that D31 accepts. -/
theorem evex_accepted {m64 : Bool} (illegal : Bool) {p0 p1 p2 : Byte}
    (h : m64 = true ∨ p0.extractLsb' 4 4 = 15 ∧ p1.getLsbD 6 = true ∧ p2.getLsbD 3 = true) :
    isLongPrefix m64 p0 = true ∧ extensionsOk m64 (evexHead illegal p0 p1 p2) = true := by
  have low : ∀ b : Byte, b.getLsbD 6 = true →
      (BitVec.ofBool false ++ ~~~(b.extractLsb' 3 4) : BitVec 5).extractLsb' 3 2 = 0 := by
    decide
  have top : ∀ b : Byte, b.extractLsb' 4 4 = 15 →
      isLongPrefix false b = true ∧ b.getLsbD 5 = true ∧ b.getLsbD 4 = true := by
    decide
  rcases h with rfl | ⟨h0, h1, h2⟩
  · exact ⟨rfl, rfl⟩
  cases m64 with
  | true => exact ⟨rfl, rfl⟩
  | false =>
    obtain ⟨hlong, h5, h4⟩ := top p0 h0
    refine ⟨hlong, ?_⟩
    simp only [extensionsOk, evexHead, h5, h4, h2, Bool.not_true, low p1 h1]
    rfl

/-- `z = 1` with `aaa = 000` selects no masking. -/
theorem evexHead_masking_none {illegal : Bool} {p0 p1 p2 : Byte} (hz : p2.getLsbD 7 = true) (ha : p2.extractLsb' 0 3 = 0) :
    (evexHead illegal p0 p1 p2).masking = none := by
  simp [Head.masking, evexHead, hz, ha, OpMask.ofBits]

theorem evexHead_illegal {illegal : Bool} {p0 p1 p2 : Byte} (h : p0.extractLsb' 2 2 ≠ 0 ∨ p1.getLsbD 2 = false) :
    (evexHead illegal p0 p1 p2).illegal = true := by
  rcases h with h | h
  · simp only [evexHead, bne_iff_ne.2 h, Bool.or_true, Bool.true_or]
  · simp only [evexHead, h, Bool.not_false, Bool.or_true]

end Sys2Proof
end

section
/-! SUPPORT. When an operand can be read and a shared operation completes, as equivalences. -/

namespace Sys2Proof.Machine

open Sys2Proof (Form MmReg VReg RegMem FvSource Masking)

/-! ## Operands -/

theorem countMm_ok_iff {s : State} {c : RegMem MmReg} : (∃ x, s.countMm c = .ok x) ↔ s.OperandReadable 8 c := by
  constructor
  · rintro ⟨x, hx⟩
    exact readable_of_countMm hx
  · intro h
    obtain ⟨x, hx, -⟩ := countMm_ok h
    exact ⟨x, hx⟩

theorem countXmm_ok_iff {s : State} {c : RegMem VReg} : (∃ x, s.countXmm c = .ok x) ↔ s.OperandReadable 16 c := by
  constructor
  · rintro ⟨x, hx⟩
    exact readable_of_countXmm hx
  · intro h
    obtain ⟨x, hx, -⟩ := countXmm_ok h
    exact ⟨x, hx⟩

theorem countXmmAligned_ok_iff {s : State} {c : RegMem VReg} :
    (∃ x, s.countXmmAligned c = .ok x) ↔ s.OperandReadable 16 c ∧ s.OperandAligned c := by
  constructor
  · rintro ⟨x, hx⟩
    exact readable_of_countXmmAligned hx
  · rintro ⟨h, ha⟩
    obtain ⟨x, hx, -⟩ := countXmmAligned_ok h ha
    exact ⟨x, hx⟩

theorem source_ok_iff {s : State} {n : Nat} {src : RegMem VReg} (hn : n % 8 = 0) :
    (∃ x, s.source n src = .ok x) ↔ s.OperandReadable (n / 8) src := by
  constructor
  · rintro ⟨x, hx⟩
    exact readable_of_source hx
  · intro h
    obtain ⟨x, hx, -⟩ := source_ok (w := 16) (by decide) hn h
    exact ⟨x, hx⟩

theorem fvSource_ok_iff {s : State} {w n : Nat} {src : FvSource} (hw : w % 8 = 0) (hn : n % 8 = 0) :
    (∃ x, s.fvSource w n src = .ok x) ↔ s.FvReadable w n src := by
  constructor
  · rintro ⟨x, hx⟩
    exact readable_of_fvSource hx
  · intro h
    obtain ⟨x, hx, -⟩ := fvSource_ok hw hn h
    exact ⟨x, hx⟩

/-- An immediate count is always there. -/
theorem ok_iff_true {α : Type} {a : α} : (∃ x, (.ok a : Except FaultKind α) = .ok x) ↔ True :=
  iff_true_intro ⟨a, rfl⟩

/-! ## Shared operations -/

section Completes

variable {s : State} {f : Form} {w n : Nat} {cnt : Except FaultKind (BitVec 64)}

/-- A state that the two conditions and an operand with `P` determine is there exactly when they are. -/
theorem exists_next_iff {can room : Prop} {α : Type} {P : α → Prop} {next : α → State} :
    (∃ t, can ∧ room ∧ ∃ c, P c ∧ t = next c) ↔ (can ∧ room) ∧ ∃ c, P c := by
  constructor
  · rintro ⟨_, can, room, c, hc, -⟩
    exact ⟨⟨can, room⟩, c, hc⟩
  · rintro ⟨⟨can, room⟩, c, hc⟩
    exact ⟨_, can, room, c, hc, rfl⟩

theorem mmxShift_completes {d : MmReg} :
    (∃ t, mmxShift f w d cnt s = .next t) ↔ s.Ready f ∧ ∃ c, cnt = .ok c := by
  simp only [mmxShift_eq_next]
  exact exists_next_iff

theorem sseShift_completes {d : VReg} :
    (∃ t, sseShift f w d cnt s = .next t) ↔ s.Ready f ∧ ∃ c, cnt = .ok c := by
  simp only [sseShift_eq_next]
  exact exists_next_iff

theorem vexShift_completes {d s1 : VReg} :
    (∃ t, vexShift f w n d s1 cnt s = .next t) ↔ s.Ready f ∧ ∃ c, cnt = .ok c := by
  simp only [vexShift_eq_next]
  exact exists_next_iff

theorem evexShift_completes {d : VReg} {m : Masking} {src : Except FaultKind (BitVec n)} :
    (∃ t, evexShift f w n d m src cnt s = .next t) ↔ s.Ready f ∧ (∃ x, src = .ok x) ∧ ∃ c, cnt = .ok c := by
  simp only [evexShift_eq_next]
  constructor
  · rintro ⟨_, can, room, x, hx, c, hc, -⟩
    exact ⟨⟨can, room⟩, ⟨x, hx⟩, c, hc⟩
  · rintro ⟨⟨can, room⟩, ⟨x, hx⟩, c, hc⟩
    exact ⟨_, can, room, x, hx, c, hc, rfl⟩

/-- With the source in a register, only the count may fail. -/
theorem evexShift_completes_count {d : VReg} {m : Masking} {x : BitVec n} :
    (∃ t, evexShift f w n d m (.ok x) cnt s = .next t) ↔ s.Ready f ∧ ∃ c, cnt = .ok c := by
  rw [evexShift_completes, ok_iff_true, true_and]

/-- With an immediate count, only the source may fail. -/
theorem evexShift_completes_source {d : VReg} {m : Masking} {src : Except FaultKind (BitVec n)} {c : BitVec 64} :
    (∃ t, evexShift f w n d m src (.ok c) s = .next t) ↔ s.Ready f ∧ ∃ x, src = .ok x := by
  rw [evexShift_completes, ok_iff_true, and_true]

end Completes

end Sys2Proof.Machine
end

section
/-! SUPPORT. The obligations of 30_encoding.md: decoding inverts encoding, the rows of the table, prefixes and reserved
encodings, and when an instruction may execute and completes. -/

namespace Sys2Proof.Machine

open Sys2Proof

/-! ## Encodings and rows -/

/-- Settles O41: each layout's bytes are read back as the fields they were written from. -/
theorem decodeInvertsEncode : Obligations.DecodeInvertsEncode := by
  intro m64 i rest hw
  exact decode_encode rest hw

/-- Settles O43: the row a key matches is the one that is found, and its form has one row. -/
theorem opcodeRowsAreDisjoint : Obligations.OpcodeRowsAreDisjoint := by
  intro k r r' hr hr' hk hk'
  have same : r.form = r'.form := Option.some.inj ((findRow_of_match hr hk).symm.trans (findRow_of_match hr' hk'))
  rw [← tableRow_of_mem r hr, same, tableRow_of_mem r' hr']

/-! ## Prefixes -/

/-- An encoding, and what follows it, decodes, and is short enough for one byte more before it. -/
theorem decode_prefixed {m64 : Bool} {i : Instr} (rest : List Byte) (hw : i.wf m64 = true) :
    ∃ h tail, parseHead m64 (encode i ++ rest) = .ok h tail ∧ h.illegal = false ∧ ∀ b c,
      parseHead m64 (c :: encode i ++ rest) = .ok (h.withIllegal b) tail →
        decode m64 (c :: encode i ++ rest) = if b then .invalidOpcode else .ok i ((encode i).length + 1) := by
  obtain ⟨h3, h12⟩ := encode_bound i
  exact decode_withIllegal (decode_encode rest hw) (by omega) (by omega)

/-- Settles O45: the byte 0xF0 marks the head, whatever its class. -/
theorem lockPrefixIsInvalidOpcode : Obligations.LockPrefixIsInvalidOpcode := by
  intro m64 i rest hw
  obtain ⟨h, tail, hh, -, hdec⟩ := decode_prefixed rest hw
  exact hdec true _ (parseHead_cons_lock hh)

/-- Settles O46: the head is read from the same bytes. -/
theorem segmentOverrideHasNoEffect : Obligations.SegmentOverrideHasNoEffect := by
  intro m64 i rest p hw hp
  have hseg : isSegment p = true := by
    revert p
    decide
  obtain ⟨h, tail, hh, hill, hdec⟩ := decode_prefixed rest hw
  have same : h.withIllegal false = h := by rw [← hill]; rfl
  exact hdec false p (by rw [List.cons_append, parseHead_cons_segment _ hseg, hh, same])

/-- Settles O47: the byte stands right before 0xC4 or 0x62, and marks the head. -/
theorem prefixBeforeVexOrEvexIsInvalidOpcode : Obligations.PrefixBeforeVexOrEvexIsInvalidOpcode := by
  intro m64 i rest p hw hc hp
  obtain ⟨h, tail, hh, -, hdec⟩ := decode_prefixed rest hw
  obtain ⟨c, bs, he, hlong⟩ := encode_long i hc
  refine hdec true p ?_
  rw [he] at hh ⊢
  exact parseHead_cons_beforeLong hlong hp hh

/-- Settles O48: the head is a legacy one, which 0xF2 and 0xF3 refuse. -/
theorem repeatPrefixOnLegacyIsRefused : Obligations.RepeatPrefixOnLegacyIsRefused := by
  intro m64 i rest p hw hc hp
  obtain ⟨h, tail, hh, -, -⟩ := decode_prefixed rest hw
  have legacy := decode_legacy_head (decode_encode rest hw) hh hc
  simp only [List.cons_append, decode, parseHead_cons_rep hp hh legacy]

/-- Settles O49: the byte 0x67 is seen, and looked at before anything else. -/
theorem addressSizePrefixIsRefused : Obligations.AddressSizePrefixIsRefused := by
  intro m64 before rest hb
  have prefixes : ∀ b ∈ ([0x26, 0x2E, 0x36, 0x3E, 0x64, 0x65, 0x66, 0xF0, 0xF2, 0xF3] : List Byte),
      isLegacyPrefix b = true := by
    decide
  have seen := takePrefixes_addrSize_mem ⟨false, false, false, false⟩ rest fun b h => prefixes b (hb b h)
  simp only [decode, parseHead_eq, seen, if_true]

/-- Settles O52: no REX byte exists there, and the first byte begins no form. -/
theorem outsideSixtyFourBitModeOtherInstructions : Obligations.OutsideSixtyFourBitModeOtherInstructions := by
  intro b b1 rest
  constructor
  · intro hb
    obtain ⟨h1, h2, h3, h4⟩ : b ≠ 0x0F ∧ b ≠ 0xC5 ∧ b ≠ 0xC4 ∧ b ≠ 0x62 := by
      revert b
      decide
    rw [decode, parseHead_cons rest (isRex_not_prefix hb) rfl]
    simp only [parseEscape, if_neg h1, if_neg h2, if_neg h3, if_neg h4]
  · intro hb h1
    have hlong : isLongPrefix false b1 = false := beq_eq_false_iff_ne.2 h1
    have hstop : isLegacyPrefix b = false := by
      rcases hb with rfl | rfl | rfl <;> decide
    rw [decode, parseHead_cons _ hstop rfl]
    rcases hb with rfl | rfl | rfl <;> simp [parseEscape, hlong]

/-! ## Reserved encodings -/

/-- Settles O50: the key has no row, but one with `mod = 11`. -/
theorem registerOnlyFormsRejectMemory : Obligations.RegisterOnlyFormsRejectMemory := by
  intro op modrm rex b1 b2 rest ho hreg hmod hl
  have legacy {m64 : Bool} {bs : List Byte} {p : LegacyPrefixes} {rex : Byte}
      (hh : parseHead m64 bs = .ok (legacyHead p rex) (op :: modrm :: rest)) (hb : bs.length ≤ rest.length + 9) :
      decode m64 bs = .invalidOpcode :=
    decode_registerOnly_memory hh rfl (.inl (legacyHead_fields p rex)) ho hreg hmod hl hb
  have vex {m64 : Bool} {bs : List Byte} {a1 a2 : Byte}
      (hh : parseHead m64 bs = .ok (vexHead false a1 a2) (op :: modrm :: rest)) (hm : a1.extractLsb' 0 5 = 1)
      (hp : a2.extractLsb' 0 2 = 1) (hb : bs.length ≤ rest.length + 9) : decode m64 bs = .invalidOpcode :=
    decode_registerOnly_memory hh (vexHead_map false a2 hm) (.inr (vexHead_fields false a1 hp)) ho hreg hmod hl hb
  refine ⟨fun m64 => ⟨legacy (parseHead_legacy m64 _) ?_, legacy (parseHead_legacy66 m64 _) ?_⟩,
    fun hrex => ⟨legacy (parseHead_rex _ hrex) ?_, legacy (parseHead_rex66 _ hrex) ?_⟩,
    fun m64 hb hp => ?_, fun m64 hb hm hp => ?_⟩
  iterate 4
    · simp only [List.length_cons]; omega
  · obtain ⟨hmap, hpp, h7⟩ := vex2_bytes b1
    obtain ⟨hlong, hext⟩ := vex_accepted false (hb.imp_right h7)
    have hlong' : isLongPrefix m64 b1 = true := by
      rcases hb with rfl | h3
      · rfl
      · simp [isLongPrefix, h3]
    exact vex (parseHead_vex2 _ hlong' hext) hmap (hpp.trans hp) (by simp only [List.length_cons]; omega)
  · obtain ⟨hlong, hext⟩ := vex_accepted false hb
    exact vex (parseHead_vex _ hlong hext) hm hp (by simp only [List.length_cons]; omega)

/-- Settles O51: with `L'L = 11` the key is reserved; else it has a row, whose fields name no instruction. -/
theorem reservedEvexCombinationsAreInvalid : Obligations.ReservedEvexCombinationsAreInvalid := by
  intro m64 p0 p1 p2 op modrm rest h64 hmap hpp ho hl hres
  obtain ⟨hlong, hext⟩ := evex_accepted false h64
  have hh := parseHead_evex (op :: modrm :: rest) hlong hext
  have hm : (evexHead false p0 p1 p2).map = 1 := by simp [evexHead, hmap]
  have hb : (0x62 :: p0 :: p1 :: p2 :: op :: modrm :: rest).length ≤ rest.length + 9 := by
    simp only [List.length_cons]; omega
  have hop : op = 0xE1 ∨ op = 0xE2 ∨ op = 0x71 ∨ op = 0x72 := by tauto
  have hreg : op = 0x71 ∨ op = 0x72 → modrm.extractLsb' 3 3 = 4 := by
    rintro (rfl | rfl) <;> simpa using ho
  have hpp' : (evexHead false p0 p1 p2).pp = 1 := hpp
  by_cases hll : (evexHead false p0 p1 p2).ll = 3
  · obtain ⟨r, -, hk, -, himm, -⟩ := exists_evex_row (ll := 0) (p1.getLsbD 7) (by decide) hop
    have ⟨_, _, hscope⟩ := hk
    exact decode_of_reserved hh hm hscope hl hb
      (rowMatch_reserved_of_keyed hm (findRow_of_ll_three hll op modrm) (by rw [if_pos hll, hpp']; exact hk)
        fun h => hreg (himm h))
  · obtain ⟨r, -, hk, hcls, himm, hfvi⟩ := exists_evex_row (p1.getLsbD 7) hll hop
    have ⟨_, _, hscope⟩ := hk
    have hrow : (evexHead false p0 p1 p2).rowMatch op modrm = .row r.form :=
      rowMatch_of_keyed hm (by rw [hpp']; exact hk) hcls fun h => hreg (himm h)
    refine decode_of_unbuilt hh hm hscope hl hb hrow ?_
    rcases hres with ⟨hbc, hne⟩ | ⟨hbc, -, hmod⟩ | ⟨hz, haaa⟩ | hll' | hp0 | hp1
    · exact .inr fun _ imm _ => buildInstr_of_bc hcls hbc (.inl (hfvi hne)) _ imm
    · exact .inr fun _ imm hr => buildInstr_of_bc hcls hbc (.inr (hr hmod)) _ imm
    · exact .inr fun rm imm _ => buildInstr_of_masking_none hcls (evexHead_masking_none hz haaa) _ rm imm
    · exact absurd hll' hll
    · exact .inl (evexHead_illegal (.inl hp0))
    · exact .inl (evexHead_illegal (.inr hp1))

/-! ## Execution -/

/-- A form that may not execute raises the invalid-opcode fault, whatever its operands are (R147). -/
theorem exec_of_cannot {i : Instr} {s : State} (h : s.canExecute i.form = false) : exec i s = .fault (.invalidOpcode s.pc) := by
  cases i <;> exact withForm_of_cannot h _

/-- Settles O21: a form with a flag missing may not execute. -/
theorem missingFeatureRaisesInvalidOpcode : Obligations.MissingFeatureRaisesInvalidOpcode := by
  rintro i s ⟨f, hf, hs⟩
  have missing : i.form.needs.all s.launch.features.has = false := by
    rw [List.all_eq_false]
    exact ⟨f, hf, by simp [hs]⟩
  exact exec_of_cannot (by simp only [State.canExecute, missing, Bool.false_and])

/-- Settles O54: an operand is read exactly when it is readable, and aligned where that is asked. -/
theorem instructionsCompleteExactlyWhenReady : Obligations.InstructionsCompleteExactlyWhenReady := by
  intro i s
  cases i
  case psrawMm | psradMm => exact mmxShift_completes.trans (and_congr_right fun _ => countMm_ok_iff)
  case psrawXmm | psradXmm => exact sseShift_completes.trans (and_congr_right fun _ => countXmmAligned_ok_iff)
  case psrawMmImm | psradMmImm => exact mmxShift_completes.trans (and_congr_right fun _ => ok_iff_true)
  case psrawXmmImm | psradXmmImm => exact sseShift_completes.trans (and_congr_right fun _ => ok_iff_true)
  case vpsrawXmm | vpsradXmm | vpsrawYmm | vpsradYmm =>
    exact vexShift_completes.trans (and_congr_right fun _ => countXmm_ok_iff)
  case vpsrawXmmImm | vpsradXmmImm | vpsrawYmmImm | vpsradYmmImm =>
    exact vexShift_completes.trans (and_congr_right fun _ => ok_iff_true)
  case evexVpsraw128 | evexVpsraw256 | evexVpsraw512 | evexVpsrad128 | evexVpsrad256 | evexVpsrad512 | evexVpsraq128 |
      evexVpsraq256 | evexVpsraq512 =>
    exact evexShift_completes_count.trans (and_congr_right fun _ => countXmm_ok_iff)
  case evexVpsraw128Imm | evexVpsraw256Imm | evexVpsraw512Imm =>
    exact evexShift_completes_source.trans (and_congr_right fun _ => source_ok_iff (by decide))
  case evexVpsrad128Imm | evexVpsrad256Imm | evexVpsrad512Imm | evexVpsraq128Imm | evexVpsraq256Imm | evexVpsraq512Imm =>
    exact evexShift_completes_source.trans (and_congr_right fun _ => fvSource_ok_iff (by decide) (by decide))

end Sys2Proof.Machine
end

section
/-! SUPPORT. The shift primitives as arithmetic and under restatement: what a count of the width or more gives, when two
counts shift alike, and a vector as two halves. -/

namespace Sys2Proof.Machine

open Sys2Proof (Form VReg Masking)

/-! ## The element shift as arithmetic (R85) -/

/-- R85: the shifted element, read as a signed number, is the floor of the quotient. -/
theorem sra_toInt {w : Nat} (e : BitVec w) (c : Nat) : (sra e c).toInt = e.toInt / 2 ^ c := by
  rw [sra_eq_sshiftRight, BitVec.toInt_sshiftRight, Int.shiftRight_eq_div_pow]
  norm_cast

/-- The fill of an element is decided by its sign as a number (D27). -/
theorem rep_msb_eq {w : Nat} (e : BitVec w) : rep e.msb w = if e.toInt < 0 then BitVec.allOnes w else 0 := by
  simp only [rep, BitVec.msb_eq_toInt, decide_eq_true_eq]

/-! ## Counts that shift alike (R86, R90) -/

/-- A count enters through its value clamped at the element width. -/
theorem shiftVec_congr {w n : Nat} (s : BitVec n) {c c' : BitVec 64} (h : min c.toNat w = min c'.toNat w) :
    shiftVec w n s c = shiftVec w n s c' := by
  rw [shiftVec, h, shiftVec]

/-- R86: from the width on, the count fills every element with its sign. -/
theorem elem_shiftVec_of_le {w n : Nat} (s : BitVec n) {c : BitVec 64} {j : Nat} (hj : j < n / w) (hc : w ≤ c.toNat) :
    elem w (shiftVec w n s c) j = if (elem w s j).toInt < 0 then BitVec.allOnes w else 0 := by
  rw [elem_shiftVec s c hj, Nat.min_eq_right hc, sra_of_le _ le_rfl, rep_msb_eq]

theorem immCount_toNat (imm : BitVec 8) : (immCount imm).toNat = imm.toNat :=
  BitVec.toNat_setWidth_of_le (by decide)

/-- R87: the two widenings of an immediate differ only where both are at least 128, past every element width. -/
theorem min_signExtend_toNat (imm : BitVec 8) {w : Nat} (hw : w ≤ 128) :
    min (immCount imm).toNat w = min (imm.signExtend 64).toNat w := by
  cases hm : imm.msb with
  | false => rw [BitVec.signExtend_eq_setWidth_of_msb_false hm, immCount]
  | true =>
    have h128 : 128 ≤ (immCount imm).toNat := immCount_toNat imm ▸ BitVec.toNat_ge_of_msb_true hm
    have hsigned : 128 ≤ (imm.signExtend 64).toNat := by
      rw [BitVec.toNat_signExtend, if_pos hm]
      omega
    rw [Nat.min_eq_right (hw.trans h128), Nat.min_eq_right (hw.trans hsigned)]

/-! ## A vector as two parts (R99) -/

/-- The elements of the low part of a vector. -/
theorem elem_append_low {n m w : Nat} (hi : BitVec n) (lo : BitVec m) {j : Nat} (h : w * (j + 1) ≤ m) :
    elem w (hi ++ lo) j = elem w lo j := by
  apply BitVec.eq_of_getLsbD_eq
  intro i hi'
  have : w * j + i < m := by rw [Nat.mul_succ] at h; omega
  rw [elem_getLsbD, elem_getLsbD, BitVec.getLsbD_append, if_pos this]

/-- The elements above a low part of `k` elements are the high part's. -/
theorem elem_append_high {n w k : Nat} (hi : BitVec n) (lo : BitVec (w * k)) (j : Nat) :
    elem w (hi ++ lo) (k + j) = elem w hi j := by
  apply BitVec.eq_of_getLsbD_eq
  intro i _
  have h1 : ¬ w * (k + j) + i < w * k := by rw [Nat.mul_add]; omega
  have h2 : w * (k + j) + i - w * k = w * j + i := by rw [Nat.mul_add]; omega
  rw [elem_getLsbD, elem_getLsbD, BitVec.getLsbD_append, if_neg h1, h2]

/-- R99: two parts of whole elements are shifted each on its own, by the same count. -/
theorem shiftVec_append {w n m : Nat} (hw : 0 < w) (hn : w ∣ n) (hm : w ∣ m) (hi : BitVec n) (lo : BitVec m) (c : BitVec 64) :
    shiftVec w (n + m) (hi ++ lo) c = shiftVec w n hi c ++ shiftVec w m lo c := by
  obtain ⟨l, rfl⟩ := hn
  obtain ⟨k, rfl⟩ := hm
  refine eq_of_elem_eq hw (by rw [← Nat.mul_add]; exact Nat.dvd_mul_right _ _) fun j hj => ?_
  rw [elem_shiftVec _ c hj]
  rw [← Nat.mul_add, Nat.mul_div_cancel_left _ hw] at hj
  rcases Nat.lt_or_ge j k with hlow | hhigh
  · have hle : w * (j + 1) ≤ w * k := Nat.mul_le_mul_left w hlow
    rw [elem_append_low _ _ hle, elem_append_low _ _ hle, elem_shiftVec lo c (by rwa [Nat.mul_div_cancel_left _ hw])]
  · obtain ⟨j, rfl⟩ := Nat.exists_eq_add_of_le hhigh
    rw [elem_append_high, elem_append_high, elem_shiftVec hi c (by rw [Nat.mul_div_cancel_left _ hw]; omega)]

/-! ## What a vector count register gives (R88, R36) -/

section CountRegister

variable {s t : State} {f : Form} {w n : Nat} {d s1 r : VReg} {x : BitVec 512}

theorem readLow_writeV_ne {e : VReg} (h : r ≠ e) : (s.writeV r x).readLow e n = s.readLow e n := by
  rw [State.readLow, readV_writeV_ne s r x h.symm, State.readLow]

/-- A count register is read in its low 64 bits. -/
theorem readLow_writeV_of_low (hx : x.setWidth 64 = (s.readV r).setWidth 64) :
    (s.writeV r x).readLow r 64 = s.readLow r 64 := by
  rw [State.readLow, readV_writeV_same, hx, State.readLow]

theorem maskBits_writeV (m : Masking) : (s.writeV r x).maskBits m = s.maskBits m := by
  cases m <;> rfl

/-- Where nothing of the old value is kept, it does not matter: under zeroing, or with every element selected. -/
theorem maskApply_old_congr (y old old' : BitVec n) {m : BitVec 64} {z : Bool}
    (h : z = true ∨ ∀ j, j < n / w → m.getLsbD j = true) : maskApply w n y old m z = maskApply w n y old' m z :=
  pack_congr fun j hj => by
    rcases h with hz | hall
    · rw [hz, if_pos rfl, if_pos rfl]
    · rw [if_pos (hall j hj), if_pos (hall j hj)]

/-- A masking that does not merge keeps nothing of the old value. -/
theorem keeps_nothing {m : Masking} (hm : ∀ k, m ≠ .merging k) (hn : n / w ≤ 64) :
    m.z = true ∨ ∀ j, j < n / w → (s.maskBits m).getLsbD j = true := by
  cases m with
  | unmasked => exact .inr fun j hj => by rw [maskBits_getLsbD s _ (hj.trans_le hn)]; rfl
  | merging k => exact absurd rfl (hm k)
  | zeroing k => exact .inl rfl

/-- The masked result after a write to `r`, which is not the destination or whose old value is not kept. -/
theorem maskApply_writeV {m : Masking} (hn : n / w ≤ 64) (hd : r = d → ∀ k, m ≠ .merging k) (y : BitVec n) :
    maskApply w n y ((s.writeV r x).readLow d n) ((s.writeV r x).maskBits m) m.z =
      maskApply w n y (s.readLow d n) (s.maskBits m) m.z := by
  rw [maskBits_writeV]
  by_cases hr : r = d
  · exact maskApply_old_congr _ _ _ (keeps_nothing (hd hr) hn)
  · rw [readLow_writeV_ne hr]

/-- A legacy SSE2 form completes alike, whatever lies above bit 63 of its count register. -/
theorem sseShift_writeV_count (hx : x.setWidth 64 = (s.readV r).setWidth 64) (hd : r ≠ d)
    (h : sseShift f w d (.ok (s.readLow r 64)) s = .next t) :
    ∃ t', sseShift f w d (.ok ((s.writeV r x).readLow r 64)) (s.writeV r x) = .next t' ∧ t'.readV d = t.readV d := by
  obtain ⟨can, room, c, hc, rfl⟩ := sseShift_eq_next.1 h
  refine ⟨_, sseShift_eq_next.2 ⟨can, room, c, readLow_writeV_of_low hx ▸ hc, rfl⟩, ?_⟩
  simp only [writeXmmKeep_eq, setPc_readV, readV_writeV_same, readLow_writeV_ne hd, readV_writeV_ne s r x hd.symm]

/-- So does a VEX form. -/
theorem vexShift_writeV_count (hx : x.setWidth 64 = (s.readV r).setWidth 64) (hs : r ≠ s1)
    (h : vexShift f w n d s1 (.ok (s.readLow r 64)) s = .next t) :
    ∃ t', vexShift f w n d s1 (.ok ((s.writeV r x).readLow r 64)) (s.writeV r x) = .next t' ∧
      t'.readV d = t.readV d := by
  obtain ⟨can, room, c, hc, rfl⟩ := vexShift_eq_next.1 h
  refine ⟨_, vexShift_eq_next.2 ⟨can, room, c, readLow_writeV_of_low hx ▸ hc, rfl⟩, ?_⟩
  simp only [writeLowZero_eq, setPc_readV, readV_writeV_same, readLow_writeV_ne hs]

/-- So does an EVEX form. -/
theorem evexShift_writeV_count {m : Masking} (hn : n / w ≤ 64) (hx : x.setWidth 64 = (s.readV r).setWidth 64) (hs : r ≠ s1)
    (hd : r = d → ∀ k, m ≠ .merging k)
    (h : evexShift f w n d m (.ok (s.readLow s1 n)) (.ok (s.readLow r 64)) s = .next t) :
    ∃ t', evexShift f w n d m (.ok ((s.writeV r x).readLow s1 n)) (.ok ((s.writeV r x).readLow r 64)) (s.writeV r x) =
      .next t' ∧ t'.readV d = t.readV d := by
  obtain ⟨can, room, y, hy, c, hc, rfl⟩ := evexShift_eq_next.1 h
  have hsrc : (s.writeV r x).readLow s1 n = s.readLow s1 n := readLow_writeV_ne hs
  refine ⟨_, evexShift_eq_next.2
    ⟨can, room, y, hsrc ▸ hy, c, readLow_writeV_of_low hx ▸ hc, rfl⟩, ?_⟩
  simp only [writeLowZero_eq, setPc_readV, readV_writeV_same, maskApply_writeV hn hd]

end CountRegister

end Sys2Proof.Machine
end

section
/-! SUPPORT. The obligations of 40_shift_primitives.md: the element shift, counts, the write mask, and count registers. -/

namespace Sys2Proof.Machine

/-! ## The element shift -/

/-- Settles O1: the bits are those of `sra_getLsbD`, and the value is the library's arithmetic shift. -/
theorem elementShiftIsFloorDivision : Obligations.ElementShiftIsFloorDivision := by
  intro w hw e c
  have hpos : 0 < w := by omega
  have hsign : e.getLsbD (w - 1) = e.msb := (BitVec.msb_eq_getLsbD_last e).symm
  refine ⟨fun hc i hi => ?_, fun _ _ i hi => ?_, fun hc => hc ▸ sra_zero hpos e, sra_toInt e c⟩
  · rw [sra_of_le e hc, rep_getLsbD, hsign, decide_eq_true hi, Bool.true_and]
  · have hin : i + c < w ↔ i < w - c := by omega
    rw [sra_getLsbD, hsign, decide_eq_true hi, Bool.true_and, if_congr hin rfl rfl]

/-! ## Counts -/

/-- Settles O2: such a count is at least the width. -/
theorem largeCountFillsWithTheSign : Obligations.LargeCountFillsWithTheSign := by
  intro w _ n _ s c j hj hc
  exact elem_shiftVec_of_le s hj (by omega)

/-- Settles O3: the widenings agree once clamped at the element width. -/
theorem immediateWideningCannotMatter : Obligations.ImmediateWideningCannotMatter := by
  intro imm
  exact ⟨immCount_toNat imm, fun w hw n _ s => shiftVec_congr s (min_signExtend_toNat imm (by omega))⟩

/-! ## Vectors -/

/-- Settles O4: the vector is its two halves, and 256 bits are whole elements. -/
theorem wideShiftIsTwoHalves : Obligations.WideShiftIsTwoHalves := by
  intro w hw s c
  have hpos : 0 < w := by omega
  have hdvd : w ∣ 256 := by rcases hw with rfl | rfl <;> decide
  have hs : (s.extractLsb' 256 256 ++ s.extractLsb' 0 256 : BitVec (256 + 256)) = s := by
    exact (BitVec.extractLsb'_append_extractLsb'_eq_extractLsb' (Nat.zero_add 256).symm).trans BitVec.extractLsb'_eq_self
  rw [← shiftVec_append hpos hdvd hdvd, hs]

/-- Settles O5: an element of the masked vector is chosen by its mask bit, and no other bit is looked at. -/
theorem maskApplySelectsPerElement : Obligations.MaskApplySelectsPerElement := by
  intro w _ n _ r old m z
  refine ⟨fun j hj => ?_, fun m' h => maskApply_congr r old z h⟩
  rw [elem_maskApply r old m z hj]
  exact ⟨fun hm => if_pos hm, fun hm hz => by simp [hm, hz], fun hm hz => by simp [hm, hz]⟩

/-! ## Count registers -/

/-- Settles O38: each class of form reads 64 bits of its count register, and no data from it. -/
theorem countRegistersHighBitsAreIgnored : Obligations.CountRegistersHighBitsAreIgnored := by
  intro s d s1 r x m hx
  refine ⟨?_, ?_, ?_, ?_, ?_, ?_, ?_, ?_, ?_, ?_, ?_, ?_, ?_, ?_, ?_⟩
  iterate 2 exact fun hd _ => sseShift_writeV_count hx hd
  iterate 4 exact fun hs _ => vexShift_writeV_count hx hs
  iterate 9 exact fun hs hd _ => evexShift_writeV_count (by decide) hx hs hd

end Sys2Proof.Machine
end

section
/-! SUPPORT. The obligations of 41_mmx_forms.md: each MMX form completes with its elements shifted and nothing else changed. -/

namespace Sys2Proof.Machine

open Sys2Proof (Instr Form MmReg)

/-- An instruction that is an MMX shift of elements of width `w` completes, once it may execute and its count `c` was read:
the one write is the shifted register. -/
theorem completes_of_mmxShift {i : Instr} {f : Form} {w : Nat} {d : MmReg} {cnt : Except FaultKind (BitVec 64)}
    {c : BitVec 64} {s : State} (hexec : exec i s = mmxShift f w d cnt s) (hcnt : cnt = .ok c) (hready : s.Ready f) :
    Completes i s fun t => MmShifted w d c.toNat s t ∧ OnlyMm d s t := by
  obtain ⟨can, room⟩ := hready
  refine ⟨_, hexec.trans (mmxShift_eq_next.2 ⟨can, room, c, hcnt, rfl⟩), rfl, fun j hj => ?_, onlyMm_of_write s d _ _⟩
  rw [setPc_readMm, readMm_writeMm_same, elem_shiftVec _ c hj]

/-- Settles O9: a readable count operand gives the count, and both forms are MMX shifts by it. -/
theorem mmxVariableCountShifts : Obligations.MmxVariableCountShifts := by
  intro s d c hread
  obtain ⟨x, hcnt, hx⟩ := countMm_ok hread
  rw [← hx]
  exact ⟨completes_of_mmxShift rfl hcnt, completes_of_mmxShift rfl hcnt⟩

/-- Settles O10: the count is the immediate widened, which keeps its number. -/
theorem mmxImmediateCountShifts : Obligations.MmxImmediateCountShifts := by
  intro s d imm
  rw [← immCount_toNat imm]
  exact ⟨completes_of_mmxShift rfl rfl, completes_of_mmxShift rfl rfl⟩

end Sys2Proof.Machine
end

section
/-! SUPPORT. The obligations of 42_sse2_forms.md: each legacy SSE2 form completes with its low elements shifted and nothing
else changed, and words written out from the spec decode. -/

namespace Sys2Proof.Machine

/-! ## Completion -/

/-- The register an SSE2 form writes: each of its low elements is the old one, shifted, and its upper bits are the old ones. -/
theorem xmmShifted_of_write {w : Nat} (s : State) (d : VReg) (c p : BitVec 64) :
    XmmShifted w d c.toNat s { s.writeXmmKeep d (shiftVec w 128 (s.readLow d 128) c) with pc := p } := by
  refine ⟨fun j hj => ?_, readV_writeXmmKeep_shiftRight s d _ le_rfl⟩
  have hle : w * (j + 1) ≤ 128 := (Nat.mul_le_mul_left w hj).trans (Nat.mul_div_le 128 w)
  rw [setPc_readV, writeXmmKeep_eq, readV_writeV_same, elem_append_low _ _ hle, elem_shiftVec _ c hj, State.readLow,
    elem_setWidth_div 128 _ hj]

/-- An instruction that is an SSE2 shift of elements of width `w` completes, once it may execute and its count `c` was read:
the one write is the low part of the register. -/
theorem completes_of_sseShift {i : Instr} {f : Form} {w : Nat} {d : VReg} {cnt : Except FaultKind (BitVec 64)}
    {c : BitVec 64} {s : State} (hexec : exec i s = sseShift f w d cnt s) (hcnt : cnt = .ok c) (hready : s.Ready f) :
    Completes i s fun t => XmmShifted w d c.toNat s t ∧ OnlyVec d s t := by
  obtain ⟨can, room⟩ := hready
  exact ⟨_, hexec.trans (sseShift_eq_next.2 ⟨can, room, c, hcnt, rfl⟩), rfl, xmmShifted_of_write s d c _,
    onlyVec_of_write s d _ _⟩

/-- Settles O11: an aligned and readable count operand gives the count, and both forms are SSE2 shifts by it. -/
theorem sse2VariableCountShifts : Obligations.Sse2VariableCountShifts := by
  intro s d c hread haligned
  obtain ⟨x, hcnt, hx⟩ := countXmmAligned_ok hread haligned
  rw [← hx]
  exact ⟨completes_of_sseShift rfl hcnt, completes_of_sseShift rfl hcnt⟩

/-- Settles O12: the count is the immediate widened, which keeps its number. -/
theorem sse2ImmediateCountShifts : Obligations.Sse2ImmediateCountShifts := by
  intro s d imm
  rw [← immCount_toNat imm]
  exact ⟨completes_of_sseShift rfl rfl, completes_of_sseShift rfl rfl⟩

/-! ## Words of the spec -/

/-- The bytes that `encode` writes for a well-formed instruction decode to it. -/
theorem decode_of_encode_eq {m64 : Bool} {i : Instr} {bs : List Byte} (hw : i.wf m64 = true) (he : encode i = bs) :
    decode m64 bs = .ok i bs.length := by
  have h := decode_encode [] hw
  rwa [List.append_nil, he] at h

/-- Settles O44: four words are what `encode` writes. The broadcast names `[rax]` by the ModRM byte alone, where `encode`
writes a SIB byte and a displacement, so that word is decoded as it stands. -/
theorem wordsOfTheSpecDecode : Obligations.WordsOfTheSpecDecode := by
  refine ⟨?psraw, ?psrad, ?vpsraw, ?vpsradBroadcast, ?vpsraq⟩
  case vpsradBroadcast => decide
  all_goals exact decode_of_encode_eq (by decide) (by decide)

end Sys2Proof.Machine
end

section
/-! SUPPORT. The obligations of 43_vex_forms.md: each VEX form completes with its elements shifted, zeros above them and
nothing else changed, and is what the EVEX form of its length does without a write mask. -/

namespace Sys2Proof.Machine

open Sys2Proof (Instr Form VReg Masking)

/-! ## Completion -/

/-- The register a VEX form writes: each of its elements is the source's, shifted, and nothing lies above them (R101). -/
theorem vexShifted_of_write {w n : Nat} (s : State) (d s1 : VReg) (c p : BitVec 64) (hn : n ≤ 512) :
    VexShifted w n d s1 c.toNat s { s.writeLowZero d (shiftVec w n (s.readLow s1 n) c) with pc := p } := by
  refine ⟨fun j hj => ?_, readV_writeLowZero_shiftRight s d _ le_rfl⟩
  have hle : w * (j + 1) ≤ 512 := (Nat.mul_le_mul_left w hj).trans ((Nat.mul_div_le n w).trans hn)
  rw [setPc_readV, writeLowZero_eq, readV_writeV_same, elem_setWidth 512 _ hle, elem_shiftVec _ c hj, State.readLow,
    elem_setWidth_div n _ hj]

/-- An instruction that is a VEX shift of the elements of `n` bits completes, once it may execute and its count `c` was
read: the one write is the whole destination register. -/
theorem completes_of_vexShift {i : Instr} {f : Form} {w n : Nat} {d s1 : VReg} {cnt : Except FaultKind (BitVec 64)}
    {c : BitVec 64} {s : State} (hn : n ≤ 512) (hexec : exec i s = vexShift f w n d s1 cnt s) (hcnt : cnt = .ok c)
    (hready : s.Ready f) : Completes i s fun t => VexShifted w n d s1 c.toNat s t ∧ OnlyVec d s t := by
  obtain ⟨can, room⟩ := hready
  exact ⟨_, hexec.trans (vexShift_eq_next.2 ⟨can, room, c, hcnt, rfl⟩), rfl, vexShifted_of_write s d s1 c _ hn,
    onlyVec_of_write s d _ _⟩

/-- Settles O13: a readable count operand gives the count, and the four forms are VEX shifts by it. -/
theorem vexVariableCountShifts : Obligations.VexVariableCountShifts := by
  intro s d s1 c hread
  obtain ⟨x, hcnt, hx⟩ := countXmm_ok hread
  rw [← hx]
  exact ⟨completes_of_vexShift (by decide) rfl hcnt, completes_of_vexShift (by decide) rfl hcnt,
    completes_of_vexShift (by decide) rfl hcnt, completes_of_vexShift (by decide) rfl hcnt⟩

/-- Settles O14: the count is the immediate widened, which keeps its number. -/
theorem vexImmediateCountShifts : Obligations.VexImmediateCountShifts := by
  intro s d s1 imm
  rw [← immCount_toNat imm]
  exact ⟨completes_of_vexShift (by decide) rfl rfl, completes_of_vexShift (by decide) rfl rfl,
    completes_of_vexShift (by decide) rfl rfl, completes_of_vexShift (by decide) rfl rfl⟩

/-! ## Without a write mask (R100) -/

/-- A mask that selects every element gives the result itself. -/
theorem maskApply_of_selected {w n : Nat} (hw : 0 < w) (hd : w ∣ n) (y old : BitVec n) {m : BitVec 64} (z : Bool)
    (h : ∀ j, j < n / w → m.getLsbD j = true) : maskApply w n y old m z = y :=
  eq_of_elem_eq hw hd fun j hj => by rw [elem_maskApply y old m z hj, if_pos (h j hj)]

theorem maskApply_unmasked {w n : Nat} (hw : 0 < w) (hd : w ∣ n) (hn : n / w ≤ 64) (s : State) (y old : BitVec n)
    (z : Bool) : maskApply w n y old (s.maskBits .unmasked) z = y :=
  maskApply_of_selected hw hd y old z fun j hj => by rw [maskBits_getLsbD s _ (hj.trans_le hn)]; rfl

/-- Where both may execute, the unmasked EVEX shift of a register is the VEX shift, whatever reading the count gave. -/
theorem evexShift_unmasked {f g : Form} {w n : Nat} {d s1 : VReg} {cnt : Except FaultKind (BitVec 64)} {s : State}
    (hw : 0 < w) (hd : w ∣ n) (hn : n / w ≤ 64) (hf : s.canExecute f = true) (hg : s.canExecute g = true) :
    evexShift f w n d .unmasked (.ok (s.readLow s1 n)) cnt s = vexShift g w n d s1 cnt s := by
  cases cnt with
  | error e => exact (withForm_of_can hf _).trans (withForm_of_can hg _).symm
  | ok c => rw [evexShift_of_ok hf, vexShift_of_ok hg, maskApply_unmasked hw hd hn]

/-- Settles O40: each pair of forms is an EVEX and a VEX shift of one width and length, by one count. -/
theorem unmaskedEvexEqualsVex : Obligations.UnmaskedEvexEqualsVex := by
  intro s d s1 c imm
  refine ⟨?vpsraw128, ?vpsraw128Imm, ?vpsrad128, ?vpsrad128Imm, ?vpsraw256, ?vpsraw256Imm, ?vpsrad256, ?vpsrad256Imm⟩
  all_goals exact evexShift_unmasked (by decide) (by decide) (by decide)

end Sys2Proof.Machine
end

section
/-! SUPPORT. The obligations of 44_evex_vpsraw.md: each EVEX form completes with its elements shifted under the write mask,
zeros above them and nothing else changed. The lemmas are for every element width and vector length. -/

namespace Sys2Proof.Machine

open Sys2Proof (Instr Form VReg RegMem Masking)

section Shift

variable {i : Instr} {f : Form} {w n : Nat} {d : VReg} {m : Masking} {s : State}

/-- The register an EVEX form writes: the mask chooses each of its elements (R100), and nothing lies above them (R101). -/
theorem evexShifted_of_write (hn : n ≤ 512) (hl : n / w ≤ 64) {x : BitVec n} {y : Nat → BitVec w}
    (hy : ∀ j, j < n / w → elem w x j = y j) (c p : BitVec 64) :
    EvexShifted w n d m y c.toNat s
      { s.writeLowZero d (maskApply w n (shiftVec w n x c) (s.readLow d n) (s.maskBits m) m.z) with pc := p } := by
  refine ⟨fun j hj => ?_, readV_writeLowZero_shiftRight s d _ le_rfl⟩
  have hle : w * (j + 1) ≤ 512 := (Nat.mul_le_mul_left w hj).trans ((Nat.mul_div_le n w).trans hn)
  have hold : elem w (s.readLow d n) j = elem w (s.readV d) j := elem_setWidth_div n _ hj
  rw [setPc_readV, writeLowZero_eq, readV_writeV_same, elem_setWidth 512 _ hle, elem_maskApply _ _ _ _ hj,
    maskBits_getLsbD s m (hj.trans_le hl), elem_shiftVec x c hj, hy j hj, hold]

/-- An instruction that is an EVEX shift of the elements `y` by `c` completes, once it may execute and both operands were
read: the one write is the whole destination register. -/
theorem completes_of_evexShift {src : Except FaultKind (BitVec n)} {cnt : Except FaultKind (BitVec 64)} {c : BitVec 64}
    {y : Nat → BitVec w} (hn : n ≤ 512) (hl : n / w ≤ 64) (hexec : exec i s = evexShift f w n d m src cnt s)
    (hsrc : ∃ x, src = .ok x ∧ ∀ j, j < n / w → elem w x j = y j) (hcnt : cnt = .ok c) (hready : s.Ready f) :
    Completes i s fun t => EvexShifted w n d m y c.toNat s t ∧ OnlyVec d s t := by
  obtain ⟨can, room⟩ := hready
  obtain ⟨x, hx, hy⟩ := hsrc
  exact ⟨_, hexec.trans (evexShift_eq_next.2 ⟨can, room, x, hx, c, hcnt, rfl⟩), rfl,
    evexShifted_of_write hn hl hy c _, onlyVec_of_write s d _ _⟩

end Shift

/-- A source register is always there, and its elements are the register's. -/
theorem readLow_ok (s : State) (w n : Nat) (r : VReg) :
    ∃ x, (.ok (s.readLow r n) : Except FaultKind (BitVec n)) = .ok x ∧
      ∀ j, j < n / w → elem w x j = elem w (s.readV r) j :=
  ⟨_, rfl, fun _ hj => elem_setWidth_div n _ hj⟩

/-- Settles O15: a readable count operand gives the count, and the three forms are EVEX shifts of a register by it. -/
theorem evexVpsrawVariableCountShifts : Obligations.EvexVpsrawVariableCountShifts := by
  intro s d s1 c m hread
  obtain ⟨x, hcnt, hx⟩ := countXmm_ok hread
  rw [← hx]
  refine ⟨?v128, ?v256, ?v512⟩
  all_goals exact completes_of_evexShift (by decide) (by decide) rfl (readLow_ok s 16 _ s1) hcnt

/-- Settles O18: a readable source gives its elements, and the count is the immediate widened, which keeps its number. -/
theorem evexVpsrawImmediateCountShifts : Obligations.EvexVpsrawImmediateCountShifts := by
  intro s d src imm m
  rw [← immCount_toNat imm]
  refine ⟨?v128, ?v256, ?v512⟩
  all_goals
    intro hread
    exact completes_of_evexShift (by decide) (by decide) rfl (source_ok (by decide) (by decide) hread) rfl

end Sys2Proof.Machine
end

section
/-! SUPPORT. The obligations of 45_evex_vpsrad.md: the doubleword cases of the EVEX completion lemma. The immediate forms
differ from the word ones in their source, which may be one broadcast element. -/

namespace Sys2Proof.Machine

/-- Settles O16: a readable count operand gives the count, and the three forms are EVEX shifts of a register by it. -/
theorem evexVpsradVariableCountShifts : Obligations.EvexVpsradVariableCountShifts := by
  intro s d s1 c m hread
  obtain ⟨x, hcnt, hx⟩ := countXmm_ok hread
  rw [← hx]
  refine ⟨?v128, ?v256, ?v512⟩
  all_goals exact completes_of_evexShift (by decide) (by decide) rfl (readLow_ok s 32 _ s1) hcnt

/-- Settles O19: a readable source, broadcast or not, gives its elements, and the widened immediate keeps its number. -/
theorem evexVpsradImmediateCountShifts : Obligations.EvexVpsradImmediateCountShifts := by
  intro s d src imm m
  rw [← immCount_toNat imm]
  refine ⟨?v128, ?v256, ?v512⟩
  all_goals
    intro hread
    exact completes_of_evexShift (by decide) (by decide) rfl (fvSource_ok (by decide) (by decide) hread) rfl

end Sys2Proof.Machine
end

section
/-! SUPPORT. The obligations of 46_evex_vpsraq.md: the quadword cases of the EVEX completion lemma. A vector length of `n`
bits has `n / 64` elements, eight at most, each with its mask bit (R100). -/

namespace Sys2Proof.Machine

/-- Settles O17: a readable count operand gives the count, and the three forms are EVEX shifts of a register by it. -/
theorem evexVpsraqVariableCountShifts : Obligations.EvexVpsraqVariableCountShifts := by
  intro s d s1 c m hread
  obtain ⟨x, hcnt, hx⟩ := countXmm_ok hread
  rw [← hx]
  refine ⟨?v128, ?v256, ?v512⟩
  all_goals exact completes_of_evexShift (by decide) (by decide) rfl (readLow_ok s 64 _ s1) hcnt

/-- Settles O20: a readable source, broadcast or not, gives its elements, and the widened immediate keeps its number. -/
theorem evexVpsraqImmediateCountShifts : Obligations.EvexVpsraqImmediateCountShifts := by
  intro s d src imm m
  rw [← immCount_toNat imm]
  refine ⟨?v128, ?v256, ?v512⟩
  all_goals
    intro hread
    exact completes_of_evexShift (by decide) (by decide) rfl (fvSource_ok (by decide) (by decide) hread) rfl

end Sys2Proof.Machine
end

section
/-! SUPPORT. The obligations of 60_exceptions.md: the forms that may not execute, the `pc` a fault records, and the order of the
fetch fault and the length fault. -/

namespace Sys2Proof.Machine

/-! ## Forms that may not execute -/

theorem enabled_of_canExecute {s : State} {f : Form} (h : s.canExecute f = true) :
    s.launch.enabled.get f.info.row = true := by
  simp only [State.canExecute, Bool.and_eq_true] at h
  obtain ⟨⟨-, enabled⟩, -⟩ := h
  exact enabled

/-- Settles O22: a disabled form may not execute. -/
theorem disabledFormRaisesInvalidOpcode : Obligations.DisabledFormRaisesInvalidOpcode := by
  intro i s disabled
  refine exec_of_cannot (Bool.eq_false_iff.2 fun can => ?_)
  exact Bool.eq_false_iff.1 disabled (enabled_of_canExecute can)

/-- Settles O23: a form longer than the processor's registers may not execute. -/
theorem lengthBeyondMaxVlRaisesInvalidOpcode : Obligations.LengthBeyondMaxVlRaisesInvalidOpcode := by
  intro i s long
  refine exec_of_cannot (Bool.eq_false_iff.2 fun can => ?_)
  exact Nat.not_le.2 long (vl_le_of_canExecute can)

/-! ## The step, by what the first 15 bytes decode to

`Obligations.StepRunsTheDecodedInstruction` is the case of an instruction. -/

section Step

variable {s : State}

theorem step_of_invalidOpcode (h : decode s.launch.mode64 (s.fetchBytes s.pc.toNat maxLength) = .invalidOpcode) :
    step s = s.raise .invalidOpcode := by
  simp only [step, State.fetch, h]

theorem step_of_tooLong (h : decode s.launch.mode64 (s.fetchBytes s.pc.toNat maxLength) = .tooLong) :
    step s = s.raise .generalProtection := by
  simp only [step, State.fetch, h]

theorem step_of_truncated (h : decode s.launch.mode64 (s.fetchBytes s.pc.toNat maxLength) = .truncated) :
    step s = s.fetchShort (s.fetchBytes s.pc.toNat maxLength).length := by
  simp only [step, State.fetch, h]

theorem step_of_refused {why : DecodeRefusal}
    (h : decode s.launch.mode64 (s.fetchBytes s.pc.toNat maxLength) = .refused why) :
    step s = .refused (refusalOf why) := by
  simp only [step, State.fetch, h]

end Step

/-! ## The pc of a fault -/

theorem raise_fault_pc {s : State} {k : FaultKind} {f : Fault} (h : s.raise k = .fault f) : f.pc = s.pc := by
  obtain ⟨g, hg, hpc⟩ := raise_eq_fault s k
  obtain rfl : g = f := Host.Outcome.fault.inj (hg.symm.trans h)
  exact hpc

theorem fetchLong_fault_pc {s : State} {f : Fault} (h : s.fetchLong = .fault f) : f.pc = s.pc := by
  rcases fetchLong_eq s with he | ⟨u, he, -⟩
  · exact raise_fault_pc (he.symm.trans h)
  · exact raise_fault_pc (he.symm.trans h)

theorem fetchShort_fault_pc {s : State} {n : Nat} {f : Fault} (h : s.fetchShort n = .fault f) : f.pc = s.pc := by
  unfold State.fetchShort at h
  split at h
  · exact fetchLong_fault_pc h
  · split at h
    · cases h
    · exact raise_fault_pc h

/-- Settles O27: a fault of the fetch or of decoding is raised in the state itself, one of execution in the state with the
length latched, whose `pc` is the same. -/
theorem faultsRecordTheInstructionsPc : Obligations.FaultsRecordTheInstructionsPc := by
  intro s f h
  cases hd : decode s.launch.mode64 (s.fetchBytes s.pc.toNat maxLength) with
  | ok i n => exact exec_fault_pc (s := { s with ilen := n }) ((stepRunsTheDecodedInstruction s i n hd).symm.trans h)
  | invalidOpcode => exact raise_fault_pc ((step_of_invalidOpcode hd).symm.trans h)
  | tooLong => exact raise_fault_pc ((step_of_tooLong hd).symm.trans h)
  | truncated => exact fetchShort_fault_pc ((step_of_truncated hd).symm.trans h)
  | refused why => cases (step_of_refused hd).symm.trans h

/-! ## Fetches of different lengths -/

/-- A shorter fetch is the front of a longer one. -/
theorem exists_fetchBytes_eq_append (s : State) (a : Nat) {m n : Nat} (hmn : m ≤ n) :
    ∃ rest, s.fetchBytes a n = s.fetchBytes a m ++ rest := by
  rcases (fetchBytes_length_le s a m).lt_or_eq with short | full
  · exact ⟨[], by rw [List.append_nil, fetchBytes_stop s a m n short hmn]⟩
  · obtain ⟨k, rfl⟩ := Nat.exists_eq_add_of_le hmn
    exact ⟨_, fetchBytes_add s a m k full⟩

theorem fetchBytes_length_of_readable {s : State} {a n : Nat} (hr : s.RangeReadable a n) : (s.fetchBytes a n).length = n := by
  rcases fetchBytes_length_or s a n with full | stop
  · exact full
  · by_contra hne
    rw [hr _ (lt_of_le_of_ne (fetchBytes_length_le s a n) hne)] at stop
    cases stop

/-- Before an unreadable byte, asking for more gives no more. -/
theorem fetchBytes_of_unreadable {s : State} {a m n : Nat} (hr : s.RangeReadable a n) (hu : s.readable (a + n) = false)
    (hnm : n ≤ m) : s.fetchBytes a m = s.fetchBytes a n := by
  obtain ⟨k, rfl⟩ := Nat.exists_eq_add_of_le hnm
  have nothing : s.fetchBytes (a + n) k = [] := by cases k <;> simp [State.fetchBytes, hu]
  rw [fetchBytes_add s a n k (fetchBytes_length_of_readable hr), nothing, List.append_nil]

/-- An instruction that ends within a fetch is what any longer fetch decodes to. -/
theorem decode_fetchBytes_of_le {s : State} {m64 : Bool} {a m n : Nat} (hmn : m ≤ n)
    (h : decode m64 (s.fetchBytes a m) ≠ .truncated) : decode m64 (s.fetchBytes a n) = decode m64 (s.fetchBytes a m) := by
  obtain ⟨rest, e⟩ := exists_fetchBytes_eq_append s a hmn
  rw [e, decode_append rest h]

/-- Two fetches within which the instruction ends decode to the same. -/
theorem decode_fetchBytes_congr {s : State} {m64 : Bool} {a m n : Nat} (hm : decode m64 (s.fetchBytes a m) ≠ .truncated)
    (hn : decode m64 (s.fetchBytes a n) ≠ .truncated) : decode m64 (s.fetchBytes a m) = decode m64 (s.fetchBytes a n) := by
  rcases Nat.le_total m n with h | h
  · exact (decode_fetchBytes_of_le h hm).symm
  · exact decode_fetchBytes_of_le h hn

/-- An instruction that ends within any number of bytes ends within a window of `decode_window`: a window filled ends it, and
one not filled holds every byte that can be read. -/
theorem decode_window_of_ended {s : State} {m64 : Bool} {a n w : Nat} (hw : s.mem.cells.length + 13 ≤ w)
    (h : decode m64 (s.fetchBytes a n) ≠ .truncated) : decode m64 (s.fetchBytes a w) ≠ .truncated := by
  rcases (fetchBytes_length_le s a w).lt_or_eq with short | full
  · rcases Nat.le_total n w with hnw | hwn
    · rwa [decode_fetchBytes_of_le hnw h]
    · rwa [← fetchBytes_stop s a w n short hwn]
  · exact decode_window hw full

/-! ## The fetch fault and the length fault (R147) -/

/-- An over-long instruction whose bytes are there is the length fault. -/
theorem fetchLong_of_ended {s : State} {n : Nat} (h : decode s.launch.mode64 (s.fetchBytes s.pc.toNat n) ≠ .truncated) :
    s.fetchLong = s.raise .generalProtection := by
  have ended := decode_window_of_ended (w := s.mem.cells.length + maxLength) (Nat.add_le_add_left (by decide) _) h
  unfold State.fetchLong
  dsimp only
  split
  · rename_i truncated
    exact absurd truncated ended
  all_goals rfl

/-- An instruction not ended before an unreadable byte is the memory fault there, however many bytes the fetch asks for. -/
theorem fetchLong_of_unreadable {s : State} {n : Nat} (hr : s.RangeReadable s.pc.toNat n)
    (hd : decode s.launch.mode64 (s.fetchBytes s.pc.toNat n) = .truncated) (hu : s.readable (s.pc.toNat + n) = false)
    (hl : s.pc.toNat + n < s.addrLimit) : s.fetchLong = s.raise (.memory (s.pc.toNat + n)) := by
  have inside : n ≤ s.mem.cells.length + maxLength := by
    by_contra beyond
    have part : s.RangeReadable s.pc.toNat (s.mem.cells.length + maxLength) := fun k hk => hr k (by omega)
    have ended : decode s.launch.mode64 (s.fetchBytes s.pc.toNat (s.mem.cells.length + maxLength)) ≠ .truncated :=
      decode_window (Nat.add_le_add_left (by decide) _) (fetchBytes_length_of_readable part)
    exact ended ((decode_fetchBytes_of_le (by omega) ended).symm.trans hd)
  simp only [State.fetchLong, fetchBytes_of_unreadable hr hu inside, fetchBytes_length_of_readable hr, hd, hl, if_true]

theorem fetchShort_of_long {s : State} {n : Nat} (h : maxLength ≤ n) : s.fetchShort n = s.fetchLong := if_pos h

theorem fetchShort_of_short {s : State} {n : Nat} (h : n < maxLength) (hl : s.pc.toNat + n < s.addrLimit) :
    s.fetchShort n = s.raise (.memory (s.pc.toNat + n)) := by
  rw [State.fetchShort, if_neg (Nat.not_le.2 h), if_neg (Nat.not_le.2 hl)]


/-- The first 15 bytes of a longer readable run do not end its instruction: the fetch reads on. -/
theorem step_eq_fetchLong {s : State} {n : Nat} (hn : maxLength ≤ n) (hr : s.RangeReadable s.pc.toNat n)
    (hd : decode s.launch.mode64 (s.fetchBytes s.pc.toNat maxLength) = .truncated) : step s = s.fetchLong := by
  have first : s.RangeReadable s.pc.toNat maxLength := fun k hk => hr k (hk.trans_le hn)
  rw [step_of_truncated hd, fetchBytes_length_of_readable first, fetchShort_of_long le_rfl]

theorem step_of_unreadable {s : State} {n : Nat} (hr : s.RangeReadable s.pc.toNat n)
    (hd : decode s.launch.mode64 (s.fetchBytes s.pc.toNat n) = .truncated) (hu : s.readable (s.pc.toNat + n) = false)
    (hl : s.pc.toNat + n < s.addrLimit) : step s = s.raise (.memory (s.pc.toNat + n)) := by
  rcases Nat.lt_or_ge n maxLength with short | long
  · have same := fetchBytes_of_unreadable hr hu short.le
    rw [step_of_truncated (same ▸ hd), same, fetchBytes_length_of_readable hr, fetchShort_of_short short hl]
  · have truncated : decode s.launch.mode64 (s.fetchBytes s.pc.toNat maxLength) = .truncated := by
      by_contra ended
      exact ended ((decode_fetchBytes_of_le long ended).symm.trans hd)
    rw [step_eq_fetchLong long hr truncated, fetchLong_of_unreadable hr hd hu hl]

theorem step_of_overlong {s : State} {n : Nat} (hr : s.RangeReadable s.pc.toNat n)
    (hd : decode s.launch.mode64 (s.fetchBytes s.pc.toNat n) = .tooLong) : step s = s.raise .generalProtection := by
  have ended : decode s.launch.mode64 (s.fetchBytes s.pc.toNat n) ≠ .truncated := by simp [hd]
  by_cases first : decode s.launch.mode64 (s.fetchBytes s.pc.toNat maxLength) = .truncated
  · have long : maxLength ≤ n := by
      by_contra short
      exact ended ((decode_fetchBytes_of_le (by omega) ended).symm.trans first)
    rw [step_eq_fetchLong long hr first, fetchLong_of_ended ended]
  · exact step_of_tooLong ((decode_fetchBytes_congr first ended).trans hd)

/-- Settles O55: fetches of different lengths that end the instruction agree, so what `n` bytes decode to decides both the
fetch of 15 bytes and the long one that may follow it. -/
theorem fetchFaultComesBeforeTheLengthFault : Obligations.FetchFaultComesBeforeTheLengthFault := by
  intro s n hr
  exact ⟨step_of_unreadable hr, step_of_overlong hr⟩

end Sys2Proof.Machine
end
